-- ==== Sys2Proof/Word.lean ====
section
/-! DEFINITION. The two word types of the engine: a byte of memory and a slot of the register window. -/

namespace Sys2Proof

/-- One byte of memory (20_memory.md R60: every byte can hold any value 0..255). -/
abbrev Byte := BitVec 8

/-- One slot of the register window (10_state.md R20: 64 bits). -/
abbrev Word := BitVec 64

end Sys2Proof
end

