-- ==== Sys2Proof/Config.lean ====
section
/-! DEFINITION. What one instance of the engine fixes (its open parameters W, A, Accessible and which regions are
devices), and the free values the spec leaves open. The instance is plain data, held in State, so that every claim
about every state is a claim about every instance (notes/assumptions/1.md). -/

namespace Sys2Proof

/-- The two width variants (00_scope.md R3, R6). -/
inductive KeyWidth where
  | w32
  | w64
deriving DecidableEq, Repr

/-- W, the key width in bits (00_scope.md R6). -/
def KeyWidth.bits : KeyWidth → Nat
  | .w32 => 32
  | .w64 => 64

/-- K = W / 8, the bytes one key takes in memory (00_scope.md R6). -/
def KeyWidth.bytes : KeyWidth → Nat
  | .w32 => 4
  | .w64 => 8

/-- A half-open byte range `[base, base + len)` (00_scope.md, glossary "Region"). -/
structure Region where
  base : Nat
  len : Nat
deriving DecidableEq, Repr

/-- Address `a` lies in the region. -/
def Region.contains (r : Region) (a : Nat) : Bool :=
  decide (r.base ≤ a) && decide (a < r.base + r.len)

/-- The parameters of one engine instance: fixed while it runs. -/
structure Config where
  /-- W (00_scope.md R6). -/
  width : KeyWidth
  /-- A, the address width, 1 ≤ A ≤ 64 (00_scope.md R7). -/
  addrBits : Nat
  /-- The addresses with `Accessible(a) = false`, as regions (00_scope.md R8). -/
  holes : List Region
  /-- The regions with read side effects, which the engine does not take as buffers (20_memory.md R64). -/
  devices : List Region
deriving DecidableEq, Repr

namespace Config

/-- The number of byte addresses, 2^A (20_memory.md R60). -/
def space (c : Config) : Nat := 2 ^ c.addrBits

/-- `Accessible(a)` (00_scope.md R8). -/
def accessible (c : Config) (a : Nat) : Bool :=
  !(c.holes.any fun r => r.contains a)

/-- Address `a` belongs to a device (20_memory.md R64). -/
def isDevice (c : Config) (a : Nat) : Bool :=
  c.devices.any fun r => r.contains a

/-- The legal instances: 1 ≤ A ≤ 64 (00_scope.md R7). -/
abbrev Legal (c : Config) : Prop := 1 ≤ c.addrBits ∧ c.addrBits ≤ 64

/-- DESIGN CHOICE (notes/assumptions/1.md): the instance State.reset is given, that of the examples of
95_test_vectors.md: W = 32, A = 32, every address accessible (the platform default of 00_scope.md R8), no device.
Safe: every claim about every state is about every instance. -/
def standard : Config :=
  { width := .w32, addrBits := 32, holes := [], devices := [] }

/-- Free value number `k` for a host register read while BUSY = 1 (10_state.md R47): nothing is known of it
(notes/assumptions/5.md). -/
opaque freeWord : Nat → Word

/-- The free value that draw number `k` gives the byte at an address (43_set_codec.md R197 (c), R207 (b);
70_reset_and_hazards.md R272 (b)): nothing is known of it (notes/assumptions/5.md). -/
opaque freeByte : Nat → Nat → Byte

end Config

end Sys2Proof
end

