-- ==== Sys2Proof/Machine/State.lean ====
section
/-! DEFINITION. The state of the machine as plain data: everything 10_state.md gives the engine, the memory of
20_memory.md, and the model's own record of the agents' actions (44_control.md R238). -/

namespace Sys2Proof.Machine

/-- The errors a command can end with (60_exceptions.md R240, codes 1 to 9). Code 0, OK, is no error: STATUS.ERR is
an `Option Err`, `none` for OK. Codes 10 to 255 are never produced. -/
inductive Err where
  | bufferExhausted
  | endOfStream
  | outputExhausted
  | invalidInput
  | illegalCommand
  | configError
  | paramRange
  | decodeOverflow
  | busError
deriving DecidableEq, Repr

/-- STATUS without its reserved bits (10_state.md R24). -/
structure Status where
  busy : Bool
  done : Bool
  ovr : Bool
  /-- STATUS.ERR: `none` is code 0, OK. -/
  err : Option Err
deriving DecidableEq, Repr

/-- The operand, result and buffer registers (10_state.md R26 to R34). Each is one 64-bit slot; what a slot keeps of
a write is R20's "width of contents". -/
structure Regs where
  param : Word
  hdrBits : BitVec 7
  data : Word
  count : Word
  result : Word
  dstBase : Word
  dstLen : Word
  srcBase : Word
  srcLen : Word
  keyBase : Word
  keyCount : Word
  outBase : Word
  outCap : Word
deriving DecidableEq, Repr

/-- The writer cursor (10_state.md R40). -/
structure WrCursor where
  base : Nat
  cap : Nat
  nbytes : Nat
  shift : Fin 8
  byte : Byte
deriving DecidableEq, Repr

/-- The reader cursor (10_state.md R41). -/
structure RdCursor where
  base : Nat
  len : Nat
  nbytes : Nat
  shift : Fin 8
  byte : Byte
deriving DecidableEq, Repr

/-- The loop state of a running ENCODE or DECODE (10_state.md R42). -/
structure LoopState where
  keyIndex : Nat
  nextMin : Nat
  decoded : Nat
  p : Nat
deriving DecidableEq, Repr

/-- Memory: the bytes that differ from `unlistedByte`, in rising order of address (20_memory.md R60). -/
abbrev Memory := List Host.Cell

/-- DESIGN CHOICE (notes/assumptions/2.md): what a byte of memory that nothing has written reads as; the spec leaves
memory at power-on unspecified (70_reset_and_hazards.md R273). Unsafe for a claim about State.reset's own memory. -/
def unlistedByte : Byte := 0

/-- One step of an agent still to come (44_control.md R238; 30_encoding.md R100). -/
inductive Action where
  /-- A host register write of `bytes` bytes at an offset of the window (44_control.md R235). -/
  | regWrite (offset bytes : Nat) (v : Word)
  /-- A host register read of `bytes` bytes at an offset of the window (44_control.md R236). -/
  | regRead (offset bytes : Nat)
  /-- A host write of bytes to consecutive addresses (44_control.md R237). -/
  | memWrite (a : Nat) (bs : List Byte)
  /-- A host read of `n` consecutive bytes (44_control.md R237). -/
  | memRead (a n : Nat)
  /-- The host asserts hardware reset (70_reset_and_hazards.md R270). -/
  | reset
  /-- The host reads STATUS until BUSY = 0 (44_control.md R236). -/
  | wait
  /-- The engine has its turn (44_control.md R238 (b)). -/
  | engine
deriving DecidableEq, Repr

/-- The state of the machine. -/
structure State where
  /-- The engine's parameters: W, A, Accessible, devices; no step changes them. -/
  cfg : Config
  /-- CTRL.IE (10_state.md R23). -/
  ie : Bool
  /-- STATUS (10_state.md R24). -/
  status : Status
  /-- The operand, result and buffer registers. -/
  regs : Regs
  /-- The writer cursor (10_state.md R40). -/
  wr : WrCursor
  /-- The reader cursor (10_state.md R41). -/
  rd : RdCursor
  /-- cur_cmd, the value accepted from CMD (10_state.md R42). -/
  curCmd : Word
  /-- The loop state (10_state.md R42); it lives for one command and is zero between commands. -/
  loop : LoopState
  /-- The memory (20_memory.md R60). -/
  mem : Memory
  /-- The MODEL's own: the agents' actions still to come, the next one first (notes/assumptions/3.md). -/
  pending : List Action
  /-- The MODEL's own: what the host's last register read returned (notes/assumptions/14.md). -/
  seenReg : Word
  /-- The MODEL's own: what the host's last memory read returned (notes/assumptions/14.md). -/
  seenMem : List Byte
  /-- The MODEL's own: the number of free draws made so far (notes/assumptions/5.md). -/
  draws : Nat
deriving DecidableEq, Repr

/-- Why the machine stops with a fault. Only a host action raises one; no command does. -/
inductive Fault where
  /-- A host write to address `a` of the running command's footprint while BUSY = 1 (70_reset_and_hazards.md R280).
  Safe: nothing is promised of such a run. -/
  | footprintWrite (a : Nat)
  /-- A host read of address `a` of the running command's write footprint while BUSY = 1
  (70_reset_and_hazards.md R280). Safe. -/
  | footprintRead (a : Nat)
  /-- A host memory access to an address that does not exist, `a ≥ 2^A` (20_memory.md R60; notes/assumptions/10.md).
  Safe. -/
  | noSuchAddress (a : Nat)
deriving DecidableEq, Repr

/-- Why the model gives a step no meaning. -/
inductive Refusal where
  /-- An arm of exec not modelled yet; no arm raises it. Safe. -/
  | notModelled (mnemonic : String)
  /-- A host register access that is not one whole 64-bit slot at a multiple of 8 inside the window
  (10_state.md R21 (a)). Safe. -/
  | registerAccess (offset bytes : Nat)
  /-- The engine's turn, when the running command's buffer has a byte with read side effects at address `a`
  (20_memory.md R64). Safe. -/
  | deviceBuffer (a : Nat)
  /-- A host memory access to a device at address `a`, whose behaviour the spec does not give
  (notes/assumptions/11.md). Safe. -/
  | deviceAccess (a : Nat)
deriving DecidableEq, Repr

namespace Status

/-- STATUS after reset (10_state.md R50). -/
def cleared : Status := { busy := false, done := false, ovr := false, err := none }

end Status

namespace Regs

/-- The registers after reset (10_state.md R50). -/
def cleared : Regs :=
  { param := 0, hdrBits := 0, data := 0, count := 0, result := 0, dstBase := 0, dstLen := 0, srcBase := 0,
    srcLen := 0, keyBase := 0, keyCount := 0, outBase := 0, outCap := 0 }

end Regs

namespace WrCursor

/-- A writer context that has written nothing (40_bitio.md R120). -/
def fresh (base cap : Nat) : WrCursor := { base := base, cap := cap, nbytes := 0, shift := 0, byte := 0 }

end WrCursor

namespace RdCursor

/-- A reader context that has read nothing (40_bitio.md R130). -/
def fresh (base len : Nat) : RdCursor := { base := base, len := len, nbytes := 0, shift := 0, byte := 0 }

end RdCursor

namespace LoopState

/-- The loop state with nothing coded yet, for parameter `p` (43_set_codec.md R190, R200). -/
def start (p : Nat) : LoopState := { keyIndex := 0, nextMin := 0, decoded := 0, p := p }

/-- No loop state: outside ENCODE and DECODE (10_state.md R42, R50). -/
def none : LoopState := start 0

end LoopState

namespace State

/-- The machine at launch: right after hardware reset (70_reset_and_hazards.md R274), every register and hidden field
at the value of 10_state.md R50, nothing pending. The parameters are those of `Config.standard`
(notes/assumptions/1.md), the memory lists nothing (notes/assumptions/2.md). -/
def reset : State :=
  { cfg := Config.standard, ie := false, status := Status.cleared, regs := Regs.cleared, wr := WrCursor.fresh 0 0,
    rd := RdCursor.fresh 0 0, curCmd := 0, loop := LoopState.none, mem := [], pending := [], seenReg := 0,
    seenMem := [], draws := 0 }

end State

end Sys2Proof.Machine
end

