-- ==== Sys2Proof/Machine/Ops.lean ====
section
/-! DEFINITION. The named operations over memory, the two ends of a sub-procedure (00_scope.md R15), and `finish`, the
one way every command ends (44_control.md R233). The engine has no traps (60_exceptions.md R247, R248): what another
machine does by taking an exception, it does by `finish` with an error code. -/

namespace Sys2Proof.Machine

/-- How a sub-procedure ends: with a value, or by `raise e`; both keep the state reached (00_scope.md R15). -/
inductive Res (σ α : Type) where
  | ok (a : α) (s : σ)
  | raise (e : Err) (s : σ)
deriving DecidableEq, Repr

/-- The state a sub-procedure reached. -/
def Res.state {σ α : Type} : Res σ α → σ
  | .ok _ s => s
  | .raise _ s => s

/-- The code a sub-procedure ended with, `none` for OK. -/
def Res.code {σ α : Type} : Res σ α → Option Err
  | .ok _ _ => none
  | .raise e _ => some e

/-- The byte at address `a`: `MemRead(a, 1)` (00_scope.md R14). -/
def Memory.read : Memory → Nat → Byte
  | [], _ => unlistedByte
  | (k, v) :: rest, a => if k = a then v else Memory.read rest a

/-- The listed cells without the one at `a`. -/
def Memory.drop : Memory → Nat → Memory
  | [], _ => []
  | (k, v) :: rest, a => if k = a then Memory.drop rest a else (k, v) :: Memory.drop rest a

/-- The listed cells with `b` at `a`, in rising order of address. -/
def Memory.put : Memory → Nat → Byte → Memory
  | [], a, b => [(a, b)]
  | (k, v) :: rest, a, b =>
    if a < k then (a, b) :: (k, v) :: rest
    else if a = k then (a, b) :: rest
    else (k, v) :: Memory.put rest a b

/-- `MemWrite(a, 1, b)` (00_scope.md R14). A byte equal to what an unlisted address reads as is not listed. -/
def Memory.write (m : Memory) (a : Nat) (b : Byte) : Memory :=
  if b = unlistedByte then m.drop a else m.put a b

/-- Consecutive bytes written from address `a` upward. -/
def Memory.writeList : Memory → Nat → List Byte → Memory
  | m, _, [] => m
  | m, a, b :: bs => Memory.writeList (m.write a b) (a + 1) bs

/-- `n` consecutive bytes read from address `a` upward. -/
def Memory.readList (m : Memory) (a : Nat) : Nat → List Byte
  | 0 => []
  | n + 1 => m.read a :: Memory.readList m (a + 1) n

/-- Every byte of `[base, base + n)` takes the value `f` gives its address. -/
def Memory.fill (f : Nat → Byte) (base : Nat) : Nat → Memory → Memory
  | 0, m => m
  | n + 1, m => (Memory.fill f base n m).write (base + n) (f (base + n))

/-- The canonical form: addresses strictly rising, no listed byte equal to what an unlisted address reads as. -/
abbrev Memory.wf (m : Memory) : Prop :=
  m.Pairwise (fun c d => c.1 < d.1) ∧ ∀ c ∈ m, c.2 ≠ unlistedByte

/-- The memory in which every byte of a region has taken a free draw, the draw numbered `k`
(notes/assumptions/5.md, 12.md). Addresses of the region at or past 2^A do not exist and take none. -/
def drawMem (c : Config) (k : Nat) (r : Region) (m : Memory) : Memory :=
  m.fill (Config.freeByte k) r.base (min r.len (c.space - r.base))

/-- Every byte of a region takes a free draw (43_set_codec.md R197 (c), R207 (b)). -/
def State.drawRegion (r : Region) (s : State) : State :=
  { s with mem := drawMem s.cfg s.draws r s.mem, draws := s.draws + 1 }

/-- The part of the state a bit writer works on: its cursor and the memory. -/
structure Writer where
  cur : WrCursor
  mem : Memory
deriving DecidableEq, Repr

/-- The writer of a state. -/
def State.writer (s : State) : Writer := { cur := s.wr, mem := s.mem }

/-- The state with another writer. -/
def State.withWriter (s : State) (w : Writer) : State := { s with wr := w.cur, mem := w.mem }

/-- The state with another memory. -/
def State.withMem (s : State) (m : Memory) : State := { s with mem := m }

/-- The state with another reader cursor. -/
def State.withReader (s : State) (c : RdCursor) : State := { s with rd := c }

/-- The state with RESULT = `zext_64(v)` (10_state.md R30). -/
def State.withResult (s : State) (v : Nat) : State :=
  { s with regs := { s.regs with result := BitVec.ofNat 64 v } }

/-- The state with PARAM = `v` (10_state.md R26). -/
def State.withParam (s : State) (v : Nat) : State :=
  { s with regs := { s.regs with param := BitVec.ofNat 64 v } }

/-- The loop state is discarded: it lives only while its ENCODE or DECODE runs (10_state.md R42;
notes/assumptions/13.md). -/
def State.discardLoop (s : State) : State := { s with loop := LoopState.none }

/-- `Finish(code)` of 44_control.md R233: ERR, BUSY and DONE, and nothing else. -/
def finish (code : Option Err) (s : State) : State :=
  { s with status := { s.status with err := code, busy := false, done := true } }

/-- The end of a command in the state `s`. -/
def complete (code : Option Err) (s : State) : Host.Outcome State Fault Refusal :=
  .next (finish code s)

/-- The end of a command that ran the writer. -/
def completeWriter (r : Res Writer Unit) (s : State) : Host.Outcome State Fault Refusal :=
  complete r.code (s.withWriter r.state)

/-- The end of a command that ran the reader: RESULT is written on success only (10_state.md R30). -/
def completeReader (r : Res RdCursor Nat) (s : State) : Host.Outcome State Fault Refusal :=
  match r with
  | .ok v c => complete none ((s.withReader c).withResult v)
  | .raise e c => complete (some e) (s.withReader c)

/-- Acceptance of the value `c` written to CMD while BUSY = 0 (44_control.md R231). -/
def accept (c : Word) (s : State) : State :=
  { s with curCmd := c, status := { s.status with done := false, err := none, busy := true } }

/-- Every piece of engine state at its value of 10_state.md R50, the memory being `m`: the effect hardware and soft
reset share (70_reset_and_hazards.md R270, R271). -/
def clearEngine (s : State) : State :=
  { s with
    ie := false, status := Status.cleared, regs := Regs.cleared, wr := WrCursor.fresh 0 0, rd := RdCursor.fresh 0 0,
    curCmd := 0, loop := LoopState.none }

end Sys2Proof.Machine
end

