-- ==== Sys2Proof/Machine/Operands.lean ====
section
/-! DEFINITION. The operands of the commands: the values their registers hold, the regions they name, key words in
memory (20_memory.md R66, R67), and bitlen (00_scope.md R13). -/

namespace Sys2Proof.Machine

/-- `bitlen(x)` (00_scope.md R13): 0 for 0, else the n with 2^(n-1) ≤ x < 2^n. -/
def bitlen (x : Nat) : Nat := if x = 0 then 0 else x.log2 + 1

namespace State

/-- W. -/
def keyBits (s : State) : Nat := s.cfg.width.bits

/-- K. -/
def keyBytes (s : State) : Nat := s.cfg.width.bytes

/-- h, the value of HDR_BITS (10_state.md R27). -/
def hdr (s : State) : Nat := s.regs.hdrBits.toNat

/-- The value of PARAM (10_state.md R26). -/
def paramVal (s : State) : Nat := s.regs.param.toNat

/-- The destination region `[DST_BASE, DST_BASE + DST_LEN)` (10_state.md R31). -/
def dstRegion (s : State) : Region := { base := s.regs.dstBase.toNat, len := s.regs.dstLen.toNat }

/-- The source region `[SRC_BASE, SRC_BASE + SRC_LEN)` (10_state.md R32). -/
def srcRegion (s : State) : Region := { base := s.regs.srcBase.toNat, len := s.regs.srcLen.toNat }

/-- The key region `[KEY_BASE, KEY_BASE + KEY_COUNT*K)` (10_state.md R33). -/
def keyRegion (s : State) : Region := { base := s.regs.keyBase.toNat, len := s.regs.keyCount.toNat * s.keyBytes }

/-- The output region `[OUT_BASE, OUT_BASE + OUT_CAP*K)` (10_state.md R34). -/
def outRegion (s : State) : Region := { base := s.regs.outBase.toNat, len := s.regs.outCap.toNat * s.keyBytes }

/-- The writer's latched region `[wr_base, wr_base + wr_cap)` (40_bitio.md R121). -/
def wrRegion (s : State) : Region := { base := s.wr.base, len := s.wr.cap }

/-- The reader's latched region `[rd_base, rd_base + rd_len)` (20_memory.md R71). -/
def rdRegion (s : State) : Region := { base := s.rd.base, len := s.rd.len }

end State

/-- `RegionOK` (20_memory.md R68), computed without truncation. -/
def regionOK (c : Config) (r : Region) : Bool := decide (r.base + r.len ≤ c.space)

/-- `Overlap` (20_memory.md R69). -/
def overlap (r q : Region) : Bool :=
  decide (0 < r.len) && decide (0 < q.len) && decide (r.base < q.base + q.len) && decide (q.base < r.base + r.len)

/-- The little-endian number of `k` bytes from address `a` upward, each tested first; BUS_ERROR at the first one that
does not answer (20_memory.md R66). -/
def loadBytes (c : Config) (m : Memory) : Nat → Nat → Except Err Nat
  | _, 0 => .ok 0
  | a, k + 1 =>
    if c.accessible a then
      match loadBytes c m (a + 1) k with
      | .ok hi => .ok ((m.read a).toNat + 2 ^ 8 * hi)
      | .error e => .error e
    else .error .busError

/-- `LoadKey(base, i)` (20_memory.md R66). -/
def loadKey (c : Config) (m : Memory) (base i : Nat) : Except Err Nat :=
  loadBytes c m (base + i * c.width.bytes) c.width.bytes

/-- The `k` low bytes of `v` stored from address `a` upward, least significant first (20_memory.md R67). -/
def storeBytes (c : Config) : Nat → Nat → Nat → Memory → Res Memory Unit
  | _, 0, _, m => .ok () m
  | a, k + 1, v, m =>
    if c.accessible a then storeBytes c (a + 1) k (v / 2 ^ 8) (m.write a (BitVec.ofNat 8 v))
    else .raise .busError m

/-- `StoreKey(base, i, v)` (20_memory.md R67). -/
def storeKey (c : Config) (base i v : Nat) (m : Memory) : Res Memory Unit :=
  storeBytes c (base + i * c.width.bytes) c.width.bytes v m

end Sys2Proof.Machine
end

