-- ==== Sys2Proof/Machine/BitIo.lean ====
section
/-! DEFINITION. The bit writer and the bit reader of 40_bitio.md: the primitives WriteBit, WriteBits, ReadBit and
ReadBits, and the commands WR_INIT, WR_BIT, WR_BITS, RD_INIT, RD_BIT and RD_BITS. -/

namespace Sys2Proof.Machine

/-- The current byte with bit `s` taken to `b`: bits are only ever cleared, since a new byte starts as all ones
(40_bitio.md R122). -/
def mergeBit (byte : Byte) (s : Fin 8) (b : Bool) : Byte :=
  if b then byte else byte &&& ~~~ BitVec.twoPow 8 s.val

/-- The end of WriteBit: the new byte count, free-bit count and current byte, written whole to its address
(40_bitio.md R122). -/
def putByte (w : Writer) (nbytes : Nat) (s : Fin 8) (byte : Byte) : Writer :=
  { cur := { w.cur with nbytes := nbytes, shift := s, byte := byte },
    mem := w.mem.write (w.cur.base + nbytes - 1) byte }

/-- `WriteBit(b)` (40_bitio.md R122). The test for a full buffer is `wr_cap ≤ wr_nbytes`, which is R122's
`wr_nbytes = wr_cap` wherever R40's bound `wr_nbytes ≤ wr_cap` holds (DEDUCED, notes/assumptions/7.md). -/
def writeBit (c : Config) (b : Bool) (w : Writer) : Res Writer Unit :=
  if w.cur.shift = 0 then
    if w.cur.cap ≤ w.cur.nbytes then .raise .bufferExhausted w
    else if c.accessible (w.cur.base + w.cur.nbytes) then
      .ok () (putByte w (w.cur.nbytes + 1) 7 (mergeBit 0xFF 7 b))
    else .raise .busError w
  else .ok () (putByte w w.cur.nbytes (w.cur.shift - 1) (mergeBit w.cur.byte (w.cur.shift - 1) b))

/-- `WriteBits(v, n)`, most significant of the n bits first (40_bitio.md R123). -/
def writeBits (c : Config) (v : Nat) : Nat → Writer → Res Writer Unit
  | 0, w => .ok () w
  | i + 1, w =>
    match writeBit c (v.testBit i) w with
    | .ok _ w' => writeBits c v i w'
    | .raise e w' => .raise e w'

/-- The bit `rd_byte[s]` (00_scope.md R12). -/
def bitOf (byte : Byte) (s : Fin 8) : Bool := byte.getLsbD s.val

/-- `ReadBit()` (40_bitio.md R131). The test for the end of the source is `rd_len ≤ rd_nbytes`, which is R131's
`rd_nbytes = rd_len` wherever R41's bound holds (DEDUCED, notes/assumptions/7.md). -/
def readBit (c : Config) (m : Memory) (r : RdCursor) : Res RdCursor Bool :=
  if r.shift = 0 then
    if r.len ≤ r.nbytes then .raise .endOfStream r
    else if c.accessible (r.base + r.nbytes) then
      .ok (bitOf (m.read (r.base + r.nbytes)) 7)
        { r with nbytes := r.nbytes + 1, shift := 7, byte := m.read (r.base + r.nbytes) }
    else .raise .busError r
  else .ok (bitOf r.byte (r.shift - 1)) { r with shift := r.shift - 1 }

/-- The loop of `ReadBits(n)` with `v` read so far (40_bitio.md R132). -/
def readBitsFrom (c : Config) (m : Memory) : Nat → Nat → RdCursor → Res RdCursor Nat
  | 0, v, r => .ok v r
  | n + 1, v, r =>
    match readBit c m r with
    | .ok b r' => readBitsFrom c m n (2 * v + b.toNat) r'
    | .raise e r' => .raise e r'

/-- `ReadBits(n)` (40_bitio.md R132). -/
def readBits (c : Config) (m : Memory) (n : Nat) (r : RdCursor) : Res RdCursor Nat :=
  readBitsFrom c m n 0 r

/-- WR_INIT (40_bitio.md R120). -/
def execWrInit (s : State) : Host.Outcome State Fault Refusal :=
  if regionOK s.cfg s.dstRegion then
    complete none { s with wr := WrCursor.fresh s.regs.dstBase.toNat s.regs.dstLen.toNat }
  else complete (some .configError) s

/-- WR_BIT b (40_bitio.md R125). -/
def execWrBit (b : Bool) (s : State) : Host.Outcome State Fault Refusal :=
  completeWriter (writeBit s.cfg b s.writer) s

/-- WR_BITS n (40_bitio.md R127). -/
def execWrBits (n : Nat) (s : State) : Host.Outcome State Fault Refusal :=
  completeWriter (writeBits s.cfg s.regs.data.toNat n s.writer) s

/-- RD_INIT (40_bitio.md R130). -/
def execRdInit (s : State) : Host.Outcome State Fault Refusal :=
  if regionOK s.cfg s.srcRegion then
    complete none { s with rd := RdCursor.fresh s.regs.srcBase.toNat s.regs.srcLen.toNat }
  else complete (some .configError) s

/-- The one bit of RD_BIT as a number (40_bitio.md R134: `zext_64(b)`). -/
def readBitVal (c : Config) (m : Memory) (r : RdCursor) : Res RdCursor Nat :=
  match readBit c m r with
  | .ok b r' => .ok b.toNat r'
  | .raise e r' => .raise e r'

/-- RD_BIT (40_bitio.md R134). -/
def execRdBit (s : State) : Host.Outcome State Fault Refusal :=
  completeReader (readBitVal s.cfg s.mem s.rd) s

/-- RD_BITS n (40_bitio.md R136). -/
def execRdBits (n : Nat) (s : State) : Host.Outcome State Fault Refusal :=
  completeReader (readBits s.cfg s.mem n s.rd) s

end Sys2Proof.Machine
end

