-- ==== Sys2Proof/Machine/Control.lean ====
section
/-! DEFINITION. The control command of 44_control.md: NOP. -/

namespace Sys2Proof.Machine

/-- NOP (44_control.md R230): completes with OK and does nothing else. -/
def execNop (s : State) : Host.Outcome State Fault Refusal :=
  complete none s

end Sys2Proof.Machine
end

