-- ==== Sys2Proof/Machine/Estimator.lean ====
section
/-! DEFINITION. The parameter estimator of 42_estimator.md: the function Estimate and the command ESTIMATE. -/

namespace Sys2Proof.Machine

/-- `Estimate(max_key, count, h)` (42_estimator.md R180). The clamp holds for every h (90_conflicts.md C1). -/
def estimate (maxKey count h : Nat) : Nat :=
  if count = 0 then 0
  else if maxKey / count < 1 then 0
  else min (bitlen (maxKey / count) - 1) (2 ^ h - 1)

/-- ESTIMATE (42_estimator.md R182). -/
def execEstimate (s : State) : Host.Outcome State Fault Refusal :=
  if s.keyBits < s.hdr then complete (some .configError) s
  else complete none (s.withResult (estimate s.regs.data.toNat s.regs.count.toNat s.hdr))

end Sys2Proof.Machine
end

