-- ==== Sys2Proof/Machine/ValueCodec.lean ====
section
/-! DEFINITION. The value codec of 41_value_codec.md: EncodeValue, DecodeValue, and the commands ENC_VAL and
DEC_VAL. -/

namespace Sys2Proof.Machine

/-- `repeat q times: WriteBit(1)`, stopping at the first raise (41_value_codec.md R160). -/
def writeOnes (c : Config) : Nat → Writer → Res Writer Unit
  | 0, w => .ok () w
  | q + 1, w =>
    match writeBit c true w with
    | .ok _ w' => writeOnes c q w'
    | .raise e w' => .raise e w'

/-- `EncodeValue(v, p)` (41_value_codec.md R160); it is the write of the codeword, as R163 says
(`encodeValue_eq`, Laws/Writer.lean). -/
def encodeValue (c : Config) (v p : Nat) (w : Writer) : Res Writer Unit :=
  match writeOnes c (v / 2 ^ p) w with
  | .raise e w1 => .raise e w1
  | .ok _ w1 =>
    match writeBit c false w1 with
    | .raise e w2 => .raise e w2
    | .ok _ w2 => writeBits c (v % 2 ^ p) p w2

/-- The bits left to the reader, `Avail` (40_bitio.md R133). -/
def avail (r : RdCursor) : Nat := 8 * (r.len - r.nbytes) + r.shift.val

/-- The unary scan of DecodeValue with `q` ones counted so far. The first argument bounds the ReadBit calls; from
`avail r + 1` it never reaches 0, since each call that returns a bit takes one of the bits left (DEDUCED,
notes/assumptions/8.md). -/
def scanOnes (c : Config) (m : Memory) : Nat → Nat → RdCursor → Res RdCursor Nat
  | 0, _, r => .raise .endOfStream r
  | fuel + 1, q, r =>
    match readBit c m r with
    | .ok true r' => scanOnes c m fuel (q + 1) r'
    | .ok false r' => .ok q r'
    | .raise e r' => .raise e r'

/-- `DecodeValue(p)`, its value not truncated (41_value_codec.md R161). -/
def decodeValue (c : Config) (m : Memory) (p : Nat) (r : RdCursor) : Res RdCursor Nat :=
  match scanOnes c m (avail r + 1) 0 r with
  | .raise e r1 => .raise e r1
  | .ok q r1 =>
    match readBits c m p r1 with
    | .raise e r2 => .raise e r2
    | .ok rem r2 => .ok (q * 2 ^ p + rem) r2

/-- DecodeValue and the check of DEC_VAL that the value has at most W bits (41_value_codec.md R166). -/
def decodeChecked (c : Config) (m : Memory) (p : Nat) (r : RdCursor) : Res RdCursor Nat :=
  match decodeValue c m p r with
  | .raise e r1 => .raise e r1
  | .ok v r1 => if 2 ^ c.width.bits ≤ v then .raise .decodeOverflow r1 else .ok v r1

/-- ENC_VAL (41_value_codec.md R162). -/
def execEncVal (s : State) : Host.Outcome State Fault Refusal :=
  if s.keyBits ≤ s.paramVal then complete (some .paramRange) s
  else completeWriter (encodeValue s.cfg s.regs.data.toNat s.paramVal s.writer) s

/-- DEC_VAL (41_value_codec.md R166). -/
def execDecVal (s : State) : Host.Outcome State Fault Refusal :=
  if s.keyBits ≤ s.paramVal then complete (some .paramRange) s
  else completeReader (decodeChecked s.cfg s.mem s.paramVal s.rd) s

end Sys2Proof.Machine
end

