-- ==== Sys2Proof/Machine/SetCodec.lean ====
section
/-! DEFINITION. The set codec of 43_set_codec.md: the commands ENCODE and DECODE, phase by phase. -/

namespace Sys2Proof.Machine

/-- ENCODE's check phase (43_set_codec.md R191): the checks, in its order. -/
def encodeConfigOK (s : State) : Bool :=
  decide (s.hdr ≤ s.keyBits) && regionOK s.cfg s.dstRegion && regionOK s.cfg s.keyRegion &&
    !overlap s.keyRegion s.dstRegion

/-- ENCODE's parameter phase (43_set_codec.md R192 for AUTO = 0, R193 for AUTO = 1): the parameter to use. -/
def encodeParam (auto : Bool) (s : State) : Except Err Nat :=
  if auto then
    if s.regs.keyCount.toNat = 0 then .ok 0
    else
      match loadKey s.cfg s.mem s.regs.keyBase.toNat (s.regs.keyCount.toNat - 1) with
      | .error e => .error e
      | .ok key => .ok (estimate key s.regs.keyCount.toNat s.hdr)
  else if s.keyBits ≤ s.paramVal ∨ (0 < s.hdr ∧ 2 ^ s.hdr ≤ s.paramVal) then .error .paramRange
  else .ok s.paramVal

/-- The loop state once `key` is coded (43_set_codec.md R195). -/
def LoopState.afterKey (l : LoopState) (key : Nat) : LoopState :=
  { l with keyIndex := l.keyIndex + 1, nextMin := key + 1 }

/-- The loop state once `value` is stored (43_set_codec.md R204). -/
def LoopState.afterValue (l : LoopState) (value : Nat) : LoopState :=
  { l with decoded := l.decoded + 1, nextMin := value + 1 }

/-- What a running ENCODE writes: the writer and the loop state. -/
structure EncodeRun where
  wr : Writer
  loop : LoopState
deriving DecidableEq, Repr

/-- ENCODE's element phase, `n` keys to go (43_set_codec.md R195). -/
def encodeKeys (c : Config) (keyBase : Nat) : Nat → EncodeRun → Res EncodeRun Unit
  | 0, r => .ok () r
  | n + 1, r =>
    match loadKey c r.wr.mem keyBase r.loop.keyIndex with
    | .error e => .raise e r
    | .ok key =>
      if key < r.loop.nextMin then .raise .invalidInput r
      else
        match encodeValue c (key - r.loop.nextMin) r.loop.p r.wr with
        | .raise e w => .raise e { r with wr := w }
        | .ok _ w =>
          encodeKeys c keyBase n { wr := w, loop := r.loop.afterKey key }

/-- ENCODE's writer and header phase and then its element phase, from a fresh writer (43_set_codec.md R194, R195).
`WriteBits(p, 0)` writes nothing, so it also stands for "no header". -/
def encodeStream (s : State) (p : Nat) : Res EncodeRun Unit :=
  match writeBits s.cfg p s.hdr { cur := WrCursor.fresh s.regs.dstBase.toNat s.regs.dstLen.toNat, mem := s.mem } with
  | .raise e w => .raise e { wr := w, loop := LoopState.start p }
  | .ok _ w =>
    encodeKeys s.cfg s.regs.keyBase.toNat s.regs.keyCount.toNat { wr := w, loop := LoopState.start p }

/-- The end of ENCODE once its writer phase has begun: on success RESULT is the bytes written (43_set_codec.md R196);
on an error the destination region takes free draws (R197 (c)). The loop state is discarded (10_state.md R42). -/
def completeEncode (r : Res EncodeRun Unit) (s : State) : Host.Outcome State Fault Refusal :=
  match r with
  | .ok _ t => complete none ((s.withWriter t.wr).withResult t.wr.cur.nbytes).discardLoop
  | .raise e t => complete (some e) ((s.withWriter t.wr).drawRegion s.dstRegion).discardLoop

/-- ENCODE a (43_set_codec.md R190). -/
def execEncode (auto : Bool) (s : State) : Host.Outcome State Fault Refusal :=
  if encodeConfigOK s then
    match encodeParam auto s with
    | .error e => complete (some e) s
    | .ok p => completeEncode (encodeStream s p) (if auto then s.withParam p else s)
  else complete (some .configError) s

/-- DECODE's check phase (43_set_codec.md R201): the checks, in its order. -/
def decodeConfigOK (s : State) : Bool :=
  decide (s.hdr ≤ s.keyBits) && regionOK s.cfg s.srcRegion && regionOK s.cfg s.outRegion &&
    !overlap s.srcRegion s.outRegion

/-- DECODE's parameter phase without a header refuses PARAM (43_set_codec.md R202). -/
def decodeParamBad (s : State) : Bool :=
  decide (s.hdr = 0) && decide (s.keyBits ≤ s.paramVal)

/-- What a running DECODE writes: the reader cursor, the memory and the loop state. -/
structure DecodeRun where
  rd : RdCursor
  mem : Memory
  loop : LoopState
deriving DecidableEq, Repr

/-- DECODE's element phase (43_set_codec.md R204, R205, R206). The first argument bounds the codewords; from
`8 * SRC_LEN + 1` it never reaches 0, since every codeword takes at least one bit (R206; DEDUCED,
notes/assumptions/8.md). -/
def decodeKeys (c : Config) (outBase cap : Nat) : Nat → DecodeRun → Res DecodeRun Unit
  | 0, r => .ok () r
  | fuel + 1, r =>
    match decodeValue c r.mem r.loop.p r.rd with
    | .raise .endOfStream rd => .ok () { r with rd := rd }
    | .raise e rd => .raise e { r with rd := rd }
    | .ok d rd =>
      if 2 ^ c.width.bits ≤ d + r.loop.nextMin then .raise .decodeOverflow { r with rd := rd }
      else if r.loop.decoded = cap then .raise .outputExhausted { r with rd := rd }
      else
        match storeKey c outBase r.loop.decoded (d + r.loop.nextMin) r.mem with
        | .raise e m => .raise e { r with rd := rd, mem := m }
        | .ok _ m =>
          decodeKeys c outBase cap fuel
            { rd := rd, mem := m, loop := r.loop.afterValue (d + r.loop.nextMin) }

/-- DECODE's element phase on the state `s`, the parameter being `p` and the reader `rd`. -/
def decodeElements (s : State) (p : Nat) (rd : RdCursor) : Res DecodeRun Unit :=
  decodeKeys s.cfg s.regs.outBase.toNat s.regs.outCap.toNat (8 * s.regs.srcLen.toNat + 1)
    { rd := rd, mem := s.mem, loop := LoopState.start p }

/-- The end of DECODE with an error once its reader phase has begun: the output region takes free draws
(43_set_codec.md R207 (b)). -/
def failDecode (e : Err) (rd : RdCursor) (s : State) : Host.Outcome State Fault Refusal :=
  complete (some e) ((s.withReader rd).drawRegion s.outRegion).discardLoop

/-- The end of DECODE's element phase: on success RESULT is the count of keys (43_set_codec.md R206). The loop state
is discarded (10_state.md R42). -/
def completeDecode (r : Res DecodeRun Unit) (s : State) : Host.Outcome State Fault Refusal :=
  match r with
  | .ok _ t => complete none (((s.withMem t.mem).withReader t.rd).withResult t.loop.decoded).discardLoop
  | .raise e t => failDecode e t.rd (s.withMem t.mem)

/-- DECODE with a header, from a fresh reader (43_set_codec.md R203): PARAM takes the header's value, which must be
below W. -/
def decodeHeader (s : State) : Host.Outcome State Fault Refusal :=
  match readBits s.cfg s.mem s.hdr (RdCursor.fresh s.regs.srcBase.toNat s.regs.srcLen.toNat) with
  | .raise e rd => failDecode e rd s
  | .ok p rd =>
    if s.keyBits ≤ p then failDecode .paramRange rd (s.withParam p)
    else completeDecode (decodeElements s p rd) (s.withParam p)

/-- DECODE without a header, from a fresh reader (43_set_codec.md R202, R203). -/
def decodeNoHeader (s : State) : Host.Outcome State Fault Refusal :=
  completeDecode (decodeElements s s.paramVal (RdCursor.fresh s.regs.srcBase.toNat s.regs.srcLen.toNat)) s

/-- DECODE (43_set_codec.md R200). -/
def execDecode (s : State) : Host.Outcome State Fault Refusal :=
  if decodeConfigOK s then
    if decodeParamBad s then complete (some .paramRange) s
    else if s.hdr = 0 then decodeNoHeader s
    else decodeHeader s
  else complete (some .configError) s

end Sys2Proof.Machine
end

