-- ==== Sys2Proof/Syntax.lean ====
section
/-! DEFINITION. The twelve commands of 30_encoding.md R94, one constructor for each row of spec/opcode_table.json. -/

namespace Sys2Proof

/-- One command. Its explicit operands are the fields F and N of the command word (30_encoding.md R90, R91); every
other operand is a register its rule names (30_encoding.md R95). -/
inductive Instr where
  /-- NOP (44_control.md R230). -/
  | nop
  /-- WR_INIT (40_bitio.md R120). -/
  | wrInit
  /-- WR_BIT b, b = F (40_bitio.md R125). -/
  | wrBit (b : Bool)
  /-- WR_BITS n, n = N (40_bitio.md R127). -/
  | wrBits (n : Nat)
  /-- RD_INIT (40_bitio.md R130). -/
  | rdInit
  /-- RD_BIT (40_bitio.md R134). -/
  | rdBit
  /-- RD_BITS n, n = N (40_bitio.md R136). -/
  | rdBits (n : Nat)
  /-- ENC_VAL (41_value_codec.md R162). -/
  | encVal
  /-- DEC_VAL (41_value_codec.md R166). -/
  | decVal
  /-- ESTIMATE (42_estimator.md R182). -/
  | estimate
  /-- ENCODE a, a = F, the AUTO flag (43_set_codec.md R190). -/
  | encode (auto : Bool)
  /-- DECODE (43_set_codec.md R200). -/
  | decode
deriving DecidableEq, Repr

end Sys2Proof
end

