-- ==== Sys2Proof/Machine/Dispatch.lean ====
section
/-! DEFINITION. The meaning of each command (30_encoding.md R94), its completion included (44_control.md R232). -/

namespace Sys2Proof.Machine

def exec (i : Instr) (s : State) : Host.Outcome State Fault Refusal :=
  match i with
  | .nop => Sys2Proof.Machine.execNop s
  | .wrInit => Sys2Proof.Machine.execWrInit s
  | .wrBit b => Sys2Proof.Machine.execWrBit b s
  | .wrBits n => Sys2Proof.Machine.execWrBits n s
  | .rdInit => Sys2Proof.Machine.execRdInit s
  | .rdBit => Sys2Proof.Machine.execRdBit s
  | .rdBits n => Sys2Proof.Machine.execRdBits n s
  | .encVal => Sys2Proof.Machine.execEncVal s
  | .decVal => Sys2Proof.Machine.execDecVal s
  | .estimate => Sys2Proof.Machine.execEstimate s
  | .encode auto => Sys2Proof.Machine.execEncode auto s
  | .decode => Sys2Proof.Machine.execDecode s

end Sys2Proof.Machine
end

