-- ==== Sys2Proof/WellFormed.lean ====
section
/-! DEFINITION. Which commands are legal on an engine of key width W (30_encoding.md R96, R99). -/

namespace Sys2Proof

/-- A legal command: the bit count of WR_BITS and RD_BITS is at most W (30_encoding.md R96 (e)); every other
operand is legal at each of its values. -/
def Instr.wf (w : KeyWidth) : Instr → Bool
  | .nop => true
  | .wrInit => true
  | .wrBit _ => true
  | .wrBits n => decide (n ≤ w.bits)
  | .rdInit => true
  | .rdBit => true
  | .rdBits n => decide (n ≤ w.bits)
  | .encVal => true
  | .decVal => true
  | .estimate => true
  | .encode _ => true
  | .decode => true

end Sys2Proof
end

