-- ==== Sys2Proof/Decode.lean ====
section
/-! DEFINITION. The decoder of command words (30_encoding.md R98), total on all 64-bit values, and the encoder
(30_encoding.md R99). -/

namespace Sys2Proof

/-- Why a value written to CMD is illegal (30_encoding.md R96). Each is the error ILLEGAL_COMMAND to the host. -/
inductive DecodeError where
  /-- (b) a bit of 15:9, 31:23 or 63:32 is set. -/
  | reservedBits
  /-- (a) OPC is not in the table of R94. -/
  | reservedOpcode
  /-- (c) F = 1 and OPC is not WR_BIT or ENCODE. -/
  | strayFlag
  /-- (d) N ≠ 0 and OPC is not WR_BITS or RD_BITS. -/
  | strayCount
  /-- (e) N > W for WR_BITS or RD_BITS. -/
  | countTooLarge
deriving DecidableEq, Repr

/-- `c[lo+len-1 : lo]` (00_scope.md R12). -/
def field (c : Word) (lo len : Nat) : Nat := (c.toNat / 2 ^ lo) % 2 ^ len

/-- OPC, bits 7:0 (30_encoding.md R91). -/
def cmdOpc (c : Word) : Nat := field c 0 8

/-- F, bit 8 (30_encoding.md R91). -/
def cmdF (c : Word) : Nat := field c 8 1

/-- N, bits 22:16, unsigned (30_encoding.md R91). -/
def cmdN (c : Word) : Nat := field c 16 7

/-- The reserved bits of the CMD write are all zero (30_encoding.md R96 (b)). -/
def reservedClear (c : Word) : Bool :=
  decide (field c 32 32 = 0) && decide (field c 9 7 = 0) && decide (field c 23 9 = 0)

/-- The opcodes in use (30_encoding.md R94); every other one is reserved (R97). -/
def opcodes : List Nat :=
  [0x00, 0x01, 0x02, 0x03, 0x04, 0x05, 0x06, 0x08, 0x09, 0x0C, 0x10, 0x11]

/-- The command an opcode of R94 selects, with F = f and N = n. -/
def assemble (opc : Nat) (f : Bool) (n : Nat) : Except DecodeError Instr :=
  match opc with
  | 0x00 => .ok .nop
  | 0x01 => .ok .wrInit
  | 0x02 => .ok (.wrBit f)
  | 0x03 => .ok (.wrBits n)
  | 0x04 => .ok .rdInit
  | 0x05 => .ok .rdBit
  | 0x06 => .ok (.rdBits n)
  | 0x08 => .ok .encVal
  | 0x09 => .ok .decVal
  | 0x0C => .ok .estimate
  | 0x10 => .ok (.encode f)
  | 0x11 => .ok .decode
  | _ => .error .reservedOpcode

/-- `Decode(c)` of 30_encoding.md R98, its checks in R98's order. -/
def decode (w : KeyWidth) (c : Word) : Except DecodeError Instr :=
  if !reservedClear c then .error .reservedBits
  else if cmdOpc c ∉ opcodes then .error .reservedOpcode
  else if cmdF c = 1 ∧ cmdOpc c ∉ [0x02, 0x10] then .error .strayFlag
  else if cmdN c ≠ 0 ∧ cmdOpc c ∉ [0x03, 0x06] then .error .strayCount
  else if cmdOpc c ∈ [0x03, 0x06] ∧ w.bits < cmdN c then .error .countTooLarge
  else assemble (cmdOpc c) (decide (cmdF c = 1)) (cmdN c)

/-- The opcode of a command (30_encoding.md R94). -/
def opcodeOf : Instr → Nat
  | .nop => 0x00
  | .wrInit => 0x01
  | .wrBit _ => 0x02
  | .wrBits _ => 0x03
  | .rdInit => 0x04
  | .rdBit => 0x05
  | .rdBits _ => 0x06
  | .encVal => 0x08
  | .decVal => 0x09
  | .estimate => 0x0C
  | .encode _ => 0x10
  | .decode => 0x11

/-- The value of field F in a command's word (30_encoding.md R99). -/
def flagOf : Instr → Bool
  | .wrBit b => b
  | .encode a => a
  | .nop | .wrInit | .wrBits _ | .rdInit | .rdBit | .rdBits _ | .encVal | .decVal | .estimate | .decode => false

/-- The value of field N in a command's word (30_encoding.md R99). -/
def countOf : Instr → Nat
  | .wrBits n => n
  | .rdBits n => n
  | .nop | .wrInit | .wrBit _ | .rdInit | .rdBit | .encVal | .decVal | .estimate | .encode _ | .decode => 0

/-- The value to write to CMD for a command (30_encoding.md R99): OPC, F at bit 8, N at bit 16. -/
def encode (i : Instr) : Word :=
  BitVec.ofNat 64 (opcodeOf i + (flagOf i).toNat * 2 ^ 8 + countOf i * 2 ^ 16)

/-- The instruction the decoder reads from a table row's word: the command word is bits 31:0 of the CMD write and
every bit above `nbits` is 0. The width is that of `Config.standard`. -/
def decodeTableWord (nbits w : Nat) : Option Instr :=
  (decode Config.standard.width (BitVec.ofNat 64 (w % 2 ^ nbits))).toOption

end Sys2Proof
end

