-- ==== Sys2Proof/Machine/Footprint.lean ====
section
/-! DEFINITION. The footprint of a command (20_memory.md R75), and which buffers a command takes (20_memory.md R64). -/

namespace Sys2Proof.Machine

/-- The read footprint of a command (20_memory.md R75). -/
def readFootprint (i : Instr) (s : State) : Region :=
  match i with
  | .rdBit | .rdBits _ | .decVal => s.rdRegion
  | .encode _ => s.keyRegion
  | .decode => s.srcRegion
  | .nop | .estimate | .wrInit | .rdInit | .wrBit _ | .wrBits _ | .encVal => { base := 0, len := 0 }

/-- The write footprint of a command (20_memory.md R75). -/
def writeFootprint (i : Instr) (s : State) : Region :=
  match i with
  | .wrBit _ | .wrBits _ | .encVal => s.wrRegion
  | .encode _ => s.dstRegion
  | .decode => s.outRegion
  | .nop | .estimate | .wrInit | .rdInit | .rdBit | .rdBits _ | .decVal => { base := 0, len := 0 }

/-- The command the engine is running; an illegal one runs nothing and has no footprint (DEDUCED from 30_encoding.md
R96, notes/assumptions/12.md). -/
def running (s : State) : Option Instr :=
  if s.status.busy then (decode s.cfg.width s.curCmd).toOption else none

/-- The read footprint of the running command. -/
def runningReads (s : State) : Region :=
  match running s with
  | some i => readFootprint i s
  | none => { base := 0, len := 0 }

/-- The write footprint of the running command. -/
def runningWrites (s : State) : Region :=
  match running s with
  | some i => writeFootprint i s
  | none => { base := 0, len := 0 }

/-- The command takes its footprint as buffers: it is past the checks its rule makes before any access, and it is not a
WR_BITS 0 or RD_BITS 0. DESIGN CHOICE (notes/assumptions/11.md): 20_memory.md R64 does not say when a command takes a
buffer; a command past its checks takes its whole footprint even where it then moves no bit of it (ENCODE with h = 0
and no keys, DECODE with h = 0 and no source bytes, WR_BIT to a full buffer, RD_BIT at the end). -/
def takesBuffers (i : Instr) (s : State) : Bool :=
  match i with
  | .nop | .estimate | .wrInit | .rdInit => false
  | .wrBit _ | .rdBit => true
  | .wrBits n | .rdBits n => decide (n ≠ 0)
  | .encVal | .decVal => decide (s.paramVal < s.keyBits)
  | .encode auto => encodeConfigOK s && (encodeParam auto s != .error .paramRange)
  | .decode => decodeConfigOK s && !decodeParamBad s

/-- The first of the regions that shares a byte with `r` (20_memory.md R69). -/
def firstOverlap (r : Region) : List Region → Option Region
  | [] => none
  | d :: ds => if overlap r d then some d else firstOverlap r ds

/-- An address a device shares with a buffer the command takes, if there is one (20_memory.md R64). -/
def deviceInBuffer (i : Instr) (s : State) : Option Nat :=
  if takesBuffers i s then
    match firstOverlap (readFootprint i s) s.cfg.devices with
    | some d => some (max d.base (readFootprint i s).base)
    | none =>
      match firstOverlap (writeFootprint i s) s.cfg.devices with
      | some d => some (max d.base (writeFootprint i s).base)
      | none => none
  else none

end Sys2Proof.Machine
end

