-- ==== Sys2Proof/Machine/Engine.lean ====
section
/-! DEFINITION. The engine's one step, *complete* (44_control.md R232). -/

namespace Sys2Proof.Machine

/-- *Complete* (44_control.md R232): an illegal command ends with ILLEGAL_COMMAND (30_encoding.md R96), a legal one
runs its meaning. A command whose buffer has a byte with read side effects is refused (20_memory.md R64). -/
def runCommand (s : State) : Host.Outcome State Fault Refusal :=
  match decode s.cfg.width s.curCmd with
  | .error _ => complete (some .illegalCommand) s
  | .ok i =>
    match deviceInBuffer i s with
    | some a => .refused (.deviceBuffer a)
    | none => exec i s

end Sys2Proof.Machine
end

