-- ==== Sys2Proof/Machine/Flags.lean ====
section
/-! DEFINITION. The flags of the engine (10_state.md R45: BUSY, DONE, OVR, ERR), as the host sees them in STATUS, and
the interrupt output. -/

namespace Sys2Proof.Machine

/-- The number of an error code (60_exceptions.md R240). -/
def Err.code : Err → Nat
  | .bufferExhausted => 1
  | .endOfStream => 2
  | .outputExhausted => 3
  | .invalidInput => 4
  | .illegalCommand => 5
  | .configError => 6
  | .paramRange => 7
  | .decodeOverflow => 8
  | .busError => 9

/-- The contents of STATUS.ERR: 0 is OK (60_exceptions.md R240). -/
def errField : Option Err → Nat
  | none => 0
  | some e => e.code

/-- STATUS as a host read sees it (10_state.md R24): BUSY bit 0, DONE bit 1, OVR bit 2, ERR bits 15:8. -/
def statusWord (st : Status) : Word :=
  BitVec.ofNat 64 (st.busy.toNat + 2 * st.done.toNat + 4 * st.ovr.toNat + 2 ^ 8 * errField st.err)

/-- What a host write of `v` leaves in STATUS: DONE and OVR are write-1-to-clear (10_state.md R24). -/
def clearFlags (v : Word) (st : Status) : Status :=
  { st with done := st.done && !v.getLsbD 1, ovr := st.ovr && !v.getLsbD 2 }

/-- A host write was dropped because BUSY = 1: OVR is set (10_state.md R48). -/
def overrun (s : State) : State := { s with status := { s.status with ovr := true } }

/-- The IRQ output (60_exceptions.md R252). -/
def irq (s : State) : Bool := s.status.done && s.ie

end Sys2Proof.Machine
end

