-- ==== Sys2Proof/Machine/Registers.lean ====
section
/-! DEFINITION. The register window of 10_state.md R20 as the host uses it: reads, writes, and reset. -/

namespace Sys2Proof.Machine

/-- The slots of the register window (10_state.md R20). -/
inductive Slot where
  | id | ctrl | status | cmd | param | hdrBits | data | count | result
  | dstBase | dstLen | srcBase | srcLen | keyBase | keyCount | outBase | outCap
  | wrNbytes | wrShift | rdNbytes | rdShift | reserved
deriving DecidableEq, Repr

/-- The slot at an offset, of the 32 slots at multiples of 8 below 0x100 (10_state.md R20). -/
def slotAt (offset : Nat) : Slot :=
  match offset / 8 with
  | 0 => .id
  | 1 => .ctrl
  | 2 => .status
  | 3 => .cmd
  | 4 => .param
  | 5 => .hdrBits
  | 6 => .data
  | 7 => .count
  | 8 => .result
  | 9 => .dstBase
  | 10 => .dstLen
  | 11 => .srcBase
  | 12 => .srcLen
  | 13 => .keyBase
  | 14 => .keyCount
  | 15 => .outBase
  | 16 => .outCap
  | 17 => .wrNbytes
  | 18 => .wrShift
  | 19 => .rdNbytes
  | 20 => .rdShift
  | _ => .reserved

/-- A register access the interface has: one whole slot of 8 bytes at a multiple of 8 in the window
(10_state.md R21 (a)). -/
def accessOK (offset bytes : Nat) : Bool :=
  decide (bytes = 8) && decide (offset % 8 = 0) && decide (offset < 0x100)

/-- ID (10_state.md R22): WIDTH in bits 7:0, AWIDTH in bits 15:8. -/
def idWord (c : Config) : Word := BitVec.ofNat 64 (c.width.bits + 2 ^ 8 * c.addrBits)

/-- The contents of a slot, zero-extended to 64 bits (10_state.md R21 (b), (d), R39). -/
def slotValue (s : State) : Slot → Word
  | .id => idWord s.cfg
  | .ctrl => BitVec.ofNat 64 s.ie.toNat
  | .status => statusWord s.status
  | .cmd => 0
  | .param => s.regs.param
  | .hdrBits => s.regs.hdrBits.setWidth 64
  | .data => s.regs.data
  | .count => s.regs.count
  | .result => s.regs.result
  | .dstBase => s.regs.dstBase
  | .dstLen => s.regs.dstLen
  | .srcBase => s.regs.srcBase
  | .srcLen => s.regs.srcLen
  | .keyBase => s.regs.keyBase
  | .keyCount => s.regs.keyCount
  | .outBase => s.regs.outBase
  | .outCap => s.regs.outCap
  | .wrNbytes => BitVec.ofNat 64 s.wr.nbytes
  | .wrShift => BitVec.ofNat 64 s.wr.shift.val
  | .rdNbytes => BitVec.ofNat 64 s.rd.nbytes
  | .rdShift => BitVec.ofNat 64 s.rd.shift.val
  | .reserved => 0

/-- The slots a running command may change: a read of one while BUSY = 1 returns an unspecified value
(10_state.md R47). -/
def Slot.changing : Slot → Bool
  | .param | .result | .wrNbytes | .wrShift | .rdNbytes | .rdShift => true
  | .id | .ctrl | .status | .cmd | .hdrBits | .data | .count | .dstBase | .dstLen | .srcBase | .srcLen | .keyBase
  | .keyCount | .outBase | .outCap | .reserved => false

/-- The slots a host write changes only while BUSY = 0; a write while BUSY = 1 is dropped and sets OVR
(10_state.md R48). -/
def Slot.guarded : Slot → Bool
  | .cmd | .param | .hdrBits | .data | .count | .dstBase | .dstLen | .srcBase | .srcLen | .keyBase | .keyCount
  | .outBase | .outCap => true
  | .id | .ctrl | .status | .result | .wrNbytes | .wrShift | .rdNbytes | .rdShift | .reserved => false

/-- The low `n` bits of a written value (10_state.md R21 (c)). -/
def keepLow (n : Nat) (v : Word) : Word := BitVec.ofNat 64 (v.toNat % 2 ^ n)

/-- A read-write operand or buffer register takes the low bits of the written value (10_state.md R21 (c), R49);
every other slot leaves the registers as they are. -/
def setReg (c : Config) (slot : Slot) (v : Word) (r : Regs) : Regs :=
  match slot with
  | .param => { r with param := keepLow c.width.bits v }
  | .hdrBits => { r with hdrBits := v.setWidth 7 }
  | .data => { r with data := keepLow c.width.bits v }
  | .count => { r with count := keepLow c.width.bits v }
  | .dstBase => { r with dstBase := keepLow c.addrBits v }
  | .dstLen => { r with dstLen := keepLow c.addrBits v }
  | .srcBase => { r with srcBase := keepLow c.addrBits v }
  | .srcLen => { r with srcLen := keepLow c.addrBits v }
  | .keyBase => { r with keyBase := keepLow c.addrBits v }
  | .keyCount => { r with keyCount := keepLow c.addrBits v }
  | .outBase => { r with outBase := keepLow c.addrBits v }
  | .outCap => { r with outCap := keepLow c.addrBits v }
  | .id | .ctrl | .status | .cmd | .result | .wrNbytes | .wrShift | .rdNbytes | .rdShift | .reserved => r

/-- Hardware or soft reset (70_reset_and_hazards.md R270, R271). A reset that aborts a running command leaves the
bytes of its write footprint to free draws (R272); otherwise memory does not change. -/
def resetEngine (s : State) : State :=
  clearEngine (if s.status.busy then s.drawRegion (runningWrites s) else s)

/-- A host write of `v` to CTRL (10_state.md R23). -/
def writeCtrl (v : Word) (s : State) : State :=
  if v.getLsbD 1 then resetEngine s else { s with ie := v.getLsbD 0 }

/-- A host write of `v` to STATUS (10_state.md R24). -/
def writeStatus (v : Word) (s : State) : State := { s with status := clearFlags v s.status }

/-- A host write of `v` to a slot (44_control.md R235). -/
def writeSlot (slot : Slot) (v : Word) (s : State) : State :=
  if slot.guarded && s.status.busy then overrun s
  else
    match slot with
    | .ctrl => writeCtrl v s
    | .status => writeStatus v s
    | .cmd => accept v s
    | .param | .hdrBits | .data | .count | .dstBase | .dstLen | .srcBase | .srcLen | .keyBase | .keyCount | .outBase
    | .outCap | .id | .result | .wrNbytes | .wrShift | .rdNbytes | .rdShift | .reserved =>
      { s with regs := setReg s.cfg slot v s.regs }

/-- A host read of a slot (44_control.md R236): its contents, or a free draw where 10_state.md R47 says the value is
unspecified. Only what the host has seen changes. -/
def readSlot (slot : Slot) (s : State) : State :=
  if slot.changing && s.status.busy then { s with seenReg := Config.freeWord s.draws, draws := s.draws + 1 }
  else { s with seenReg := slotValue s slot }

end Sys2Proof.Machine
end

