-- ==== Sys2Proof/Machine/HostActions.lean ====
section
/-! DEFINITION. What the host does to the machine (44_control.md R235 to R237), and which agent moves next
(44_control.md R238). -/

namespace Sys2Proof.Machine

/-- A host register write (44_control.md R235); an access the interface lacks is refused (10_state.md R21 (a)). -/
def hostRegWrite (offset bytes : Nat) (v : Word) (s : State) : Host.Outcome State Fault Refusal :=
  if accessOK offset bytes then .next (writeSlot (slotAt offset) v s) else .refused (.registerAccess offset bytes)

/-- A host register read (44_control.md R236); an access the interface lacks is refused (10_state.md R21 (a)). -/
def hostRegRead (offset bytes : Nat) (s : State) : Host.Outcome State Fault Refusal :=
  if accessOK offset bytes then .next (readSlot (slotAt offset) s) else .refused (.registerAccess offset bytes)

/-- The addresses `a`, `a + 1`, ... of an access of `n` bytes. -/
def addresses (a : Nat) : Nat → List Nat
  | 0 => []
  | n + 1 => a :: addresses (a + 1) n

/-- The first of the addresses with a property. -/
def firstWith (p : Nat → Bool) (l : List Nat) : Option Nat := l.find? p

/-- A host write of bytes to memory (44_control.md R237). It must keep to addresses that exist and to ordinary memory
(notes/assumptions/10.md, 11.md) and, while a command runs, off its footprint (70_reset_and_hazards.md R280). -/
def hostMemWrite (a : Nat) (bs : List Byte) (s : State) : Host.Outcome State Fault Refusal :=
  match firstWith (fun x => decide (s.cfg.space ≤ x)) (addresses a bs.length) with
  | some x => .fault (.noSuchAddress x)
  | none =>
    match firstWith (fun x => (runningReads s).contains x || (runningWrites s).contains x) (addresses a bs.length) with
    | some x => .fault (.footprintWrite x)
    | none =>
      match firstWith s.cfg.isDevice (addresses a bs.length) with
      | some x => .refused (.deviceAccess x)
      | none => .next (s.withMem (s.mem.writeList a bs))

/-- A host read of `n` bytes of memory (44_control.md R237), with the same limits; the read footprint of a running
command may be read (70_reset_and_hazards.md R280, R290). -/
def hostMemRead (a n : Nat) (s : State) : Host.Outcome State Fault Refusal :=
  match firstWith (fun x => decide (s.cfg.space ≤ x)) (addresses a n) with
  | some x => .fault (.noSuchAddress x)
  | none =>
    match firstWith (runningWrites s).contains (addresses a n) with
    | some x => .fault (.footprintRead x)
    | none =>
      match firstWith s.cfg.isDevice (addresses a n) with
      | some x => .refused (.deviceAccess x)
      | none => .next { s with seenMem := s.mem.readList a n }

/-- The engine's turn: *complete* while BUSY = 1; it is not enabled while BUSY = 0 and then nothing happens
(44_control.md R238 (b)). -/
def engineTurn (s : State) : Host.Outcome State Fault Refusal :=
  if s.status.busy then runCommand s else .next s

/-- The state once the action at the head of `pending` is taken off. -/
def State.taken (s : State) : State := { s with pending := s.pending.tail }

/-- One step of the agent whose turn it is (44_control.md R238; notes/assumptions/3.md). A waiting host lets the
engine complete and reads STATUS once BUSY = 0. With nothing pending a busy engine completes (44_control.md R234),
and an idle machine has no step and stays as it is. -/
def advance (s : State) : Host.Outcome State Fault Refusal :=
  match s.pending with
  | [] => engineTurn s
  | .engine :: _ => engineTurn s.taken
  | .wait :: _ => if s.status.busy then engineTurn s else .next (readSlot .status s.taken)
  | .regWrite offset bytes v :: _ => hostRegWrite offset bytes v s.taken
  | .regRead offset bytes :: _ => hostRegRead offset bytes s.taken
  | .memWrite a bs :: _ => hostMemWrite a bs s.taken
  | .memRead a n :: _ => hostMemRead a n s.taken
  | .reset :: _ => .next (resetEngine s.taken)

end Sys2Proof.Machine
end

