-- ==== Sys2Proof/Machine/Step.lean ====
section
/-! DEFINITION. One step of the machine, and the state in which a given command word is the one that runs next. -/

namespace Sys2Proof.Machine

/-- One step of one agent (44_control.md R238). -/
def step (s : State) : Host.Outcome State Fault Refusal := advance s

/-- The state with a command word accepted (44_control.md R231) and the engine's turn next, so that the next step
runs that command. This stands for the host's write to CMD: the engine fetches nothing (10_state.md R44;
notes/assumptions/4.md). -/
def State.withFetchWord (s : State) (nbits w : Nat) : State :=
  { accept (BitVec.ofNat 64 (w % 2 ^ nbits)) s with pending := .engine :: s.pending }

end Sys2Proof.Machine
end

