-- ==== Sys2Proof/Machine/Bitstream.lean ====
section
/-! DEFINITION. The bitstream of 30_encoding.md as bit strings, and where its bits lie in memory: the words in which
claims speak of what the writer writes and the reader reads. No meaning uses them. -/

namespace Sys2Proof.Machine

/-- `bin_n(v)`: the low `n` bits of `v`, most significant first (00_scope.md R13). -/
def binBits : Nat → Nat → List Bool
  | 0, _ => []
  | i + 1, v => v.testBit i :: binBits i v

/-- The number a bit string spells, most significant bit first. -/
def valueOf (l : List Bool) : Nat := l.foldl (fun v b => 2 * v + b.toNat) 0

/-- `Code_p(v) = ones(v >> p) ++ 0 ++ bin_p(v)` (30_encoding.md R105). -/
def codeword (p v : Nat) : List Bool := List.replicate (v / 2 ^ p) true ++ false :: binBits p v

/-- The codewords of the deltas of the keys, the first delta being taken from `nextMin` (30_encoding.md R109;
43_set_codec.md R195). -/
def codewords (p : Nat) : Nat → List Nat → List Bool
  | _, [] => []
  | nextMin, k :: ks => codeword p (k - nextMin) ++ codewords p (k + 1) ks

/-- The stream `S = H ++ Code_p(d_0) ++ ...` of a key sequence, H being empty for h = 0 (30_encoding.md R108, R109). -/
def stream (h p : Nat) (ks : List Nat) : List Bool := binBits h p ++ codewords p 0 ks

/-- `B = (n + 7) / 8`: the bytes that `n` bits fill (30_encoding.md R109). -/
def bytesFor (n : Nat) : Nat := (n + 7) / 8

/-- Every key is at least the `next_min` it meets (43_set_codec.md R195): from 0, the keys are strictly ascending. -/
def AscendsFrom : Nat → List Nat → Prop
  | _, [] => True
  | nextMin, k :: ks => nextMin ≤ k ∧ AscendsFrom (k + 1) ks

/-- Bit `i` of the stream whose first byte is at `base` (20_memory.md R65). -/
def bitAt (m : Memory) (base i : Nat) : Bool := (m.read (base + i / 8)).getLsbD (7 - i % 8)

/-- The `k` low bits of a byte, most significant first. -/
def byteBits (b : Byte) : Nat → List Bool
  | 0 => []
  | k + 1 => b.getLsbD k :: byteBits b k

/-- The bits of `n` bytes from address `a` upward, in the order of 20_memory.md R65. -/
def memBits (m : Memory) (a : Nat) : Nat → List Bool
  | 0 => []
  | n + 1 => byteBits (m.read a) 8 ++ memBits m (a + 1) n

/-- The bits a reader has not read yet: those left of its current byte, then the bytes it has not opened
(40_bitio.md R133). -/
def unread (m : Memory) (r : RdCursor) : List Bool :=
  byteBits r.byte r.shift.val ++ memBits m (r.base + r.nbytes) (r.len - r.nbytes)

/-- The bits read so far, `Q` (40_bitio.md R133). -/
def RdCursor.pos (r : RdCursor) : Nat := 8 * r.nbytes - r.shift.val

/-- The bits written so far, `P` (40_bitio.md R126). -/
def WrCursor.pos (w : WrCursor) : Nat := 8 * w.nbytes - w.shift.val

/-- The bits still free, `Free` (40_bitio.md R126). -/
def WrCursor.free (w : WrCursor) : Nat := 8 * (w.cap - w.nbytes) + w.shift.val

/-- A bit string written by successive WriteBit calls, stopping at the first raise (40_bitio.md R126). -/
def writeString (c : Config) : List Bool → Writer → Res Writer Unit
  | [], w => .ok () w
  | b :: bs, w =>
    match writeBit c b w with
    | .ok _ w' => writeString c bs w'
    | .raise e w' => .raise e w'

/-- The cursor after `n` more bits are read (40_bitio.md R133 (b)): `Q' = Q + n`, and rd_byte is the byte opened last
(R131). -/
def RdCursor.moved (m : Memory) (n : Nat) (r : RdCursor) : RdCursor :=
  { r with
    nbytes := bytesFor (r.pos + n)
    shift := ⟨8 * bytesFor (r.pos + n) - (r.pos + n), by unfold bytesFor; omega⟩
    byte := if bytesFor (r.pos + n) = r.nbytes then r.byte else m.read (r.base + bytesFor (r.pos + n) - 1) }

/-- The bytes that reading `n` more bits opens (40_bitio.md R131). -/
def RdCursor.opens (n : Nat) (r : RdCursor) : Region :=
  { base := r.base + r.nbytes, len := bytesFor (r.pos + n) - r.nbytes }

/-- The reader with its source cut off at byte `j`: its unread bits are those before that byte. -/
def RdCursor.upto (j : Nat) (r : RdCursor) : RdCursor := { r with len := j }

/-- The bytes that writing `n` more bits opens (40_bitio.md R122). -/
def WrCursor.opens (n : Nat) (w : WrCursor) : Region :=
  { base := w.base + w.nbytes, len := bytesFor (w.pos + n) - w.nbytes }

/-- The bit string `l` has been appended (40_bitio.md R126 (b)). -/
structure Appended (l : List Bool) (w w' : Writer) : Prop where
  /-- The region is the same. -/
  base : w'.cur.base = w.cur.base
  cap : w'.cur.cap = w.cur.cap
  /-- `P' = P + |l|`. -/
  nbytes : w'.cur.nbytes = bytesFor (w.cur.pos + l.length)
  shift : w'.cur.shift.val = 8 * w'.cur.nbytes - (w.cur.pos + l.length)
  /-- Stream bits P .. P' - 1 are `l`. -/
  bits : ∀ i (h : i < l.length), bitAt w'.mem w.cur.base (w.cur.pos + i) = l[i]
  /-- The bits of the current byte before P are those of the old wr_byte (R122). -/
  kept : l ≠ [] → ∀ i, 8 * (w.cur.pos / 8) ≤ i → i < w.cur.pos →
    bitAt w'.mem w.cur.base i = w.cur.byte.getLsbD (7 - i % 8)
  /-- The rest of the last opened byte is ones (R124). -/
  ones : l ≠ [] → ∀ i, w.cur.pos + l.length ≤ i → i < 8 * w'.cur.nbytes → bitAt w'.mem w.cur.base i = true
  /-- Memory holds wr_byte at the last opened byte (20_memory.md R86). -/
  current : l ≠ [] → w'.mem.read (w.cur.base + w'.cur.nbytes - 1) = w'.cur.byte
  /-- No byte but those from the current one to the last opened one has changed. -/
  outside : ∀ a, a < w.cur.base + w.cur.pos / 8 ∨ w.cur.base + w'.cur.nbytes ≤ a → w'.mem.read a = w.mem.read a
  /-- Nothing changes for the empty string (R126 (a)). -/
  same : l = [] → w' = w

/-- The cursor of a writer that has written the bit string `l` from the start of the region of `cap` bytes at `base`,
and nothing else (40_bitio.md R120, R126): wr_byte holds the last of the bits, and ones after them (R124). -/
structure WrCursor.Wrote (base cap : Nat) (l : List Bool) (w : WrCursor) : Prop where
  base : w.base = base
  cap : w.cap = cap
  nbytes : w.nbytes = bytesFor l.length
  shift : w.shift.val = (8 - l.length % 8) % 8
  byte : ∀ i, 8 * (w.nbytes - 1) ≤ i → i < 8 * w.nbytes → w.byte.getLsbD (7 - i % 8) = l.getD i true
  fresh : l = [] → w.byte = 0

/-- A bit string that ends in no whole codeword of parameter `p`: ones to its end, or a terminator with fewer than `p`
bits after it (41_value_codec.md R164 (a), (b)). -/
def NoCodeword (p : Nat) (l : List Bool) : Prop :=
  (∃ q, l = List.replicate q true) ∨ (∃ q rem, l = List.replicate q true ++ false :: rem ∧ rem.length < p)

end Sys2Proof.Machine
end

