-- ==== Sys2Proof/Safety.lean ====
section
/-! DEFINITION. The invariant of the machine: what 10_state.md and 40_bitio.md say holds between steps, in the terms
claims use. -/

namespace Sys2Proof

/-- Address `a` lies outside the region. -/
def Region.Outside (r : Region) (a : Nat) : Prop := a < r.base ∨ r.base + r.len ≤ a

/-- Every byte of the region answers (00_scope.md R8). -/
def Config.Answers (c : Config) (r : Region) : Prop :=
  ∀ a, r.base ≤ a → a < r.base + r.len → c.accessible a = true

/-- Byte `j` of the region at `base` is the first from byte `i` on that does not answer (60_exceptions.md R241). -/
structure Config.FirstHole (c : Config) (base i j : Nat) : Prop where
  le : i ≤ j
  before : c.Answers { base := base + i, len := j - i }
  hole : c.accessible (base + j) = false

/-- A byte of key `i` of the array at `base` does not answer, so LoadKey and StoreKey of it raise BUS_ERROR
(20_memory.md R66, R67). -/
def Config.KeyHole (c : Config) (base i : Nat) : Prop :=
  ∃ j, j < c.width.bytes ∧ c.accessible (base + i * c.width.bytes + j) = false

end Sys2Proof

namespace Sys2Proof.Machine

/-- The bounds of a writer cursor (10_state.md R40) and its guard bits (40_bitio.md R124). -/
structure WrCursor.Sound (c : Config) (w : WrCursor) : Prop where
  /-- wr_base has A bits. -/
  base_lt : w.base < c.space
  /-- wr_cap has A bits. -/
  cap_lt : w.cap < c.space
  /-- The region is valid (20_memory.md R68). -/
  region : w.base + w.cap ≤ c.space
  /-- wr_nbytes ≤ wr_cap (10_state.md R40). -/
  opened : w.nbytes ≤ w.cap
  /-- wr_nbytes = 0 implies wr_shift = 0 (10_state.md R40). -/
  start : w.nbytes = 0 → w.shift = 0
  /-- The unwritten bits of the current byte are ones (40_bitio.md R124). -/
  guard : ∀ k, k < w.shift.val → w.byte.getLsbD k = true

/-- The bounds of a reader cursor (10_state.md R41). -/
structure RdCursor.Sound (c : Config) (r : RdCursor) : Prop where
  /-- rd_base has A bits. -/
  base_lt : r.base < c.space
  /-- rd_len has A bits. -/
  len_lt : r.len < c.space
  /-- The region is valid (20_memory.md R68). -/
  region : r.base + r.len ≤ c.space
  /-- rd_nbytes ≤ rd_len (10_state.md R41). -/
  opened : r.nbytes ≤ r.len
  /-- rd_nbytes = 0 implies rd_shift = 0 (10_state.md R41). -/
  start : r.nbytes = 0 → r.shift = 0

/-- Every register fits the width of its contents (10_state.md R20, R21). -/
structure Regs.Fit (c : Config) (r : Regs) : Prop where
  param : r.param.toNat < 2 ^ c.width.bits
  data : r.data.toNat < 2 ^ c.width.bits
  count : r.count.toNat < 2 ^ c.width.bits
  dstBase : r.dstBase.toNat < c.space
  dstLen : r.dstLen.toNat < c.space
  srcBase : r.srcBase.toNat < c.space
  srcLen : r.srcLen.toNat < c.space
  keyBase : r.keyBase.toNat < c.space
  keyCount : r.keyCount.toNat < c.space
  outBase : r.outBase.toNat < c.space
  outCap : r.outCap.toNat < c.space

/-- The memory is in canonical form and lists no address past the space (20_memory.md R60). -/
structure Memory.Sound (c : Config) (m : Memory) : Prop where
  wf : m.wf
  inSpace : ∀ x ∈ m, x.1 < c.space

/-- The invariant of the machine. -/
structure State.Inv (s : State) : Prop where
  /-- 1 ≤ A ≤ 64 (00_scope.md R7). -/
  legal : s.cfg.Legal
  mem : s.mem.Sound s.cfg
  regs : s.regs.Fit s.cfg
  wr : s.wr.Sound s.cfg
  rd : s.rd.Sound s.cfg
  /-- While BUSY = 1, DONE = 0 and ERR = 0 (10_state.md R24; 44_control.md R231). -/
  busy : s.status.busy = true → s.status.done = false ∧ s.status.err = none
  /-- There is no loop state between commands (10_state.md R42). -/
  loop : s.loop = LoopState.none

/-- It is the engine's turn at `s` (44_control.md R238), and `s'` is the state its command runs in: `s` itself when
nothing is pending or the host waits, else `s` less the turn. -/
def State.EngineAt (s s' : State) : Prop :=
  s.status.busy = true ∧
    ((s.pending = [] ∧ s' = s) ∨ (∃ l, s.pending = .wait :: l ∧ s' = s) ∨
      (∃ l, s.pending = .engine :: l ∧ s' = { s with pending := l }))

/-- What no command writes: the parameters, CTRL.IE, STATUS.OVR, cur_cmd, and what is the host's (30_encoding.md R95;
44_control.md R233). -/
structure State.CommandKeeps (s t : State) : Prop where
  cfg : t.cfg = s.cfg
  ie : t.ie = s.ie
  ovr : t.status.ovr = s.status.ovr
  curCmd : t.curCmd = s.curCmd
  pending : t.pending = s.pending
  seenReg : t.seenReg = s.seenReg
  seenMem : t.seenMem = s.seenMem

/-- The four checks ENCODE makes first (43_set_codec.md R191). -/
structure State.EncodeChecks (s : State) : Prop where
  header : s.hdr ≤ s.keyBits
  destination : s.regs.dstBase.toNat + s.regs.dstLen.toNat ≤ s.cfg.space
  keys : s.regs.keyBase.toNat + s.regs.keyCount.toNat * s.keyBytes ≤ s.cfg.space
  disjoint : ¬(0 < s.regs.keyCount.toNat * s.keyBytes ∧ 0 < s.regs.dstLen.toNat ∧
    s.regs.keyBase.toNat < s.regs.dstBase.toNat + s.regs.dstLen.toNat ∧
    s.regs.dstBase.toNat < s.regs.keyBase.toNat + s.regs.keyCount.toNat * s.keyBytes)

/-- The four checks DECODE makes first (43_set_codec.md R201). -/
structure State.DecodeChecks (s : State) : Prop where
  header : s.hdr ≤ s.keyBits
  source : s.regs.srcBase.toNat + s.regs.srcLen.toNat ≤ s.cfg.space
  output : s.regs.outBase.toNat + s.regs.outCap.toNat * s.keyBytes ≤ s.cfg.space
  disjoint : ¬(0 < s.regs.srcLen.toNat ∧ 0 < s.regs.outCap.toNat * s.keyBytes ∧
    s.regs.srcBase.toNat < s.regs.outBase.toNat + s.regs.outCap.toNat * s.keyBytes ∧
    s.regs.outBase.toNat < s.regs.srcBase.toNat + s.regs.srcLen.toNat)

/-- The first keys of the array ENCODE reads are `ks` (10_state.md R33; 20_memory.md R66). -/
def State.HoldsFirst (s : State) (ks : List Nat) : Prop :=
  ks.length ≤ s.regs.keyCount.toNat ∧
    ∀ i (h : i < ks.length), loadKey s.cfg s.mem s.regs.keyBase.toNat i = .ok ks[i]

/-- The key array ENCODE reads holds the keys `ks` and no more (10_state.md R33; 20_memory.md R66). -/
def State.HoldsKeys (s : State) (ks : List Nat) : Prop := ks.length = s.regs.keyCount.toNat ∧ s.HoldsFirst ks

/-- `p` is the parameter ENCODE uses: for AUTO = 1 the estimate from the last key, 0 without keys; else PARAM, which
must be legal (43_set_codec.md R192, R193). -/
def State.EncodeParamIs (s : State) (auto : Bool) (p : Nat) : Prop :=
  if auto then
    if s.regs.keyCount.toNat = 0 then p = 0
    else ∃ k, loadKey s.cfg s.mem s.regs.keyBase.toNat (s.regs.keyCount.toNat - 1) = .ok k ∧
      p = estimate k s.regs.keyCount.toNat s.hdr
  else p = s.paramVal ∧ p < s.keyBits ∧ (0 < s.hdr → p < 2 ^ s.hdr)

/-- `p` is the parameter DECODE uses: PARAM without a header, else the header's value, which fits it; it must be legal
(43_set_codec.md R202, R203). -/
def State.DecodeParamIs (s : State) (p : Nat) : Prop :=
  p < s.keyBits ∧ if s.hdr = 0 then p = s.paramVal else p < 2 ^ s.hdr

end Sys2Proof.Machine
end

