-- ==== Sys2Proof/Certificates/Slice0/Obligations.lean ====
section
/-! DEFINITION. The statements made of the machine, from the numbered rules of spec/. -/

open Sys2Proof Sys2Proof.Machine

/-! ### Encoding (30_encoding.md) -/

/-- 30_encoding.md R99: the words of the assembler table decode to their commands, one or more of each family. -/
def Obligations.TableWordsDecode : Prop :=
  decode .w32 0x00000000 = .ok .nop ∧ decode .w32 0x00000001 = .ok .wrInit ∧
  decode .w32 0x00000002 = .ok (.wrBit false) ∧ decode .w32 0x00000102 = .ok (.wrBit true) ∧
  decode .w32 0x000C0003 = .ok (.wrBits 12) ∧ decode .w64 0x00400006 = .ok (.rdBits 64) ∧
  decode .w32 0x00000004 = .ok .rdInit ∧ decode .w32 0x00000005 = .ok .rdBit ∧
  decode .w32 0x00000008 = .ok .encVal ∧ decode .w32 0x00000009 = .ok .decVal ∧
  decode .w32 0x0000000C = .ok .estimate ∧ decode .w32 0x00000110 = .ok (.encode true) ∧
  decode .w32 0x00000011 = .ok .decode

/-- 30_encoding.md R98, R99: the decoder reads every legal command back from its word, for both widths and every
operand. -/
def Obligations.DecodeOfEncode : Prop :=
  ∀ (w : KeyWidth) (i : Instr), i.wf w = true → decode w (encode i) = .ok i

/-- 30_encoding.md R98: a value that decodes is the word of the one legal command it decodes to, so two values never
decode to one command. -/
def Obligations.EncodeOfDecode : Prop :=
  ∀ (w : KeyWidth) (c : Word) (i : Instr), decode w c = .ok i → i.wf w = true ∧ encode i = c

/-- 30_encoding.md R96: which CMD values are illegal, and that the engine's step on one changes STATUS only. -/
def Obligations.IllegalCommand : Prop :=
  (∀ (w : KeyWidth) (c : Word), (∃ e, decode w c = .error e) ↔
    ((c.extractLsb' 0 8).toNat ∉ [0x00, 0x01, 0x02, 0x03, 0x04, 0x05, 0x06, 0x08, 0x09, 0x0C, 0x10, 0x11] ∨
     (c.extractLsb' 9 7 ≠ 0 ∨ c.extractLsb' 23 9 ≠ 0 ∨ c.extractLsb' 32 32 ≠ 0) ∨
     (c.getLsbD 8 = true ∧ (c.extractLsb' 0 8).toNat ∉ [0x02, 0x10]) ∨
     ((c.extractLsb' 16 7).toNat ≠ 0 ∧ (c.extractLsb' 0 8).toNat ∉ [0x03, 0x06]) ∨
     ((c.extractLsb' 0 8).toNat ∈ [0x03, 0x06] ∧ w.bits < (c.extractLsb' 16 7).toNat))) ∧
  (∀ s s' : State, s.EngineAt s' → (∃ e, decode s.cfg.width s.curCmd = .error e) →
    step s = .next { s' with
      status := { busy := false, done := true, ovr := s.status.ovr, err := some .illegalCommand } })

/-! ### The step and the engine's turn (44_control.md) -/

/-- 44_control.md R232, R238: at the engine's turn the step is the meaning of the decoded command, at the state less
the turn it takes off `pending`, unless a device shares the command's buffers. Who has the turn is the model's choice,
log 3; that a device stops it only then, log 11. -/
def Obligations.StepRunsDecoded : Prop :=
  ∀ (s s' : State) (i : Instr), s.EngineAt s' → decode s.cfg.width s.curCmd = .ok i →
    deviceInBuffer i s' = none → step s = exec i s'

/-- 20_memory.md R64: the engine's turn is refused exactly when the command takes its buffers and a byte of its
footprint has read side effects. Which commands take them, command by command, is the model's choice, log 11: WR_BIT and
RD_BIT always, WR_BITS and RD_BITS for n above 0, ENC_VAL and DEC_VAL for PARAM below W, ENCODE and DECODE past their
checks with a legal PARAM where they use it; the others never. -/
def Obligations.DeviceBufferRefused : Prop :=
  ∀ (s s' : State) (i : Instr), s.EngineAt s' → decode s.cfg.width s.curCmd = .ok i →
    ((∃ a, step s = .refused (.deviceBuffer a)) ↔
      (match i with
        | .nop | .wrInit | .rdInit | .estimate => False
        | .wrBit _ | .rdBit => True
        | .wrBits n | .rdBits n => n ≠ 0
        | .encVal | .decVal => s.paramVal < s.keyBits
        | .encode auto =>
          s.EncodeChecks ∧ (auto = true ∨ (s.paramVal < s.keyBits ∧ (0 < s.hdr → s.paramVal < 2 ^ s.hdr)))
        | .decode => s.DecodeChecks ∧ (s.hdr = 0 → s.paramVal < s.keyBits)) ∧
      ∃ a, s.cfg.isDevice a = true ∧
        ((readFootprint i s').contains a = true ∨ (writeFootprint i s').contains a = true))

/-- 44_control.md R233, R234: every command, in every state, completes in one step with BUSY = 0, DONE = 1, some code,
and OVR as it was. -/
def Obligations.EveryCommandCompletes : Prop :=
  ∀ (i : Instr) (s : State), ∃ t code, exec i s = .next t ∧
    t.status = { busy := false, done := true, ovr := s.status.ovr, err := code }

/-- 60_exceptions.md R240, column "raised by": the codes each command can end with. ENCODE with AUTO = 1 never ends with
PARAM_RANGE (43_set_codec.md R193), and DECODE ends with END_OF_STREAM only when its source is too short for the
header. -/
def Obligations.CodesOfEachCommand : Prop :=
  ∀ (i : Instr) (s t : State), exec i s = .next t →
    (match i with
      | .nop => t.status.err = none
      | .wrInit | .rdInit | .estimate => t.status.err ∈ [none, some .configError]
      | .wrBit _ | .wrBits _ => t.status.err ∈ [none, some .bufferExhausted, some .busError]
      | .rdBit | .rdBits _ => t.status.err ∈ [none, some .endOfStream, some .busError]
      | .encVal => t.status.err ∈ [none, some .paramRange, some .bufferExhausted, some .busError]
      | .decVal =>
        t.status.err ∈ [none, some .paramRange, some .endOfStream, some .decodeOverflow, some .busError]
      | .encode auto => t.status.err ∈ [none, some .configError, some .paramRange, some .busError,
          some .invalidInput, some .bufferExhausted] ∧ (auto = true → t.status.err ≠ some .paramRange)
      | .decode => t.status.err ∈ [none, some .configError, some .paramRange, some .endOfStream, some .busError,
          some .decodeOverflow, some .outputExhausted] ∧
          (t.status.err = some .endOfStream → 8 * s.regs.srcLen.toNat < s.hdr))

/-! ### Reset and the invariant -/

/-- 10_state.md R50: the values State.reset holds. The instance (W = 32, A = 32), the empty memory and the host's
fields are the model's choice, log 1, 2, 3, 5, 14. -/
def Obligations.ResetStateValues : Prop :=
  State.reset.ie = false ∧ State.reset.status = { busy := false, done := false, ovr := false, err := none } ∧
  State.reset.regs =
    { param := 0, hdrBits := 0, data := 0, count := 0, result := 0, dstBase := 0, dstLen := 0,
      srcBase := 0, srcLen := 0, keyBase := 0, keyCount := 0, outBase := 0, outCap := 0 } ∧
  State.reset.wr = { base := 0, cap := 0, nbytes := 0, shift := 0, byte := 0 } ∧
  State.reset.rd = { base := 0, len := 0, nbytes := 0, shift := 0, byte := 0 } ∧
  State.reset.curCmd = 0 ∧ State.reset.loop = { keyIndex := 0, nextMin := 0, decoded := 0, p := 0 } ∧
  irq State.reset = false

/-- 10_state.md R50, R40, R41: the invariant holds at reset. The instance and the memory of State.reset are the model's
choice, log 1, 2. -/
def Obligations.ResetMeetsInvariant : Prop := State.reset.Inv

/-- 10_state.md R40, R41, R21, 20_memory.md R85, 40_bitio.md R124, 44_control.md R231: every step keeps the bounds of
the cursors, the widths of the registers, the guard bits, the canonical memory within the address space, and DONE = 0,
ERR = 0 while BUSY = 1. That the loop state is zero between steps is the model's choice, log 13. -/
def Obligations.StepKeepsInvariant : Prop :=
  ∀ s t : State, s.Inv → step s = .next t → t.Inv

/-- 00_scope.md R3, R8; 10_state.md R22: no step changes W, A or Accessible. That the devices are a parameter too, and
that all four stand in State.cfg, is the model's choice, log 1, 11. -/
def Obligations.ParametersAreFixed : Prop :=
  ∀ s t : State, step s = .next t → t.cfg = s.cfg

/-- 70_reset_and_hazards.md R270, R272: hardware reset at any state puts every register and hidden field at zero;
memory changes only when a command is aborted, and then only in the command's write footprint (20_memory.md R75),
whose bytes take free values. That an address past 2^A takes none and an illegal command has no footprint is the
model's reading, log 12. -/
def Obligations.HardwareReset : Prop :=
  ∀ (s : State) (l : List Action), s.pending = .reset :: l → ∃ t, step s = .next t ∧
    t.ie = false ∧ t.status = { busy := false, done := false, ovr := false, err := none } ∧
    t.regs =
      { param := 0, hdrBits := 0, data := 0, count := 0, result := 0, dstBase := 0, dstLen := 0, srcBase := 0,
        srcLen := 0, keyBase := 0, keyCount := 0, outBase := 0, outCap := 0 } ∧
    t.wr = { base := 0, cap := 0, nbytes := 0, shift := 0, byte := 0 } ∧
    t.rd = { base := 0, len := 0, nbytes := 0, shift := 0, byte := 0 } ∧
    t.curCmd = 0 ∧ t.loop = { keyIndex := 0, nextMin := 0, decoded := 0, p := 0 } ∧ irq t = false ∧
    t.cfg = s.cfg ∧ t.pending = l ∧
    (s.status.busy = false → t.mem = s.mem) ∧
    (s.status.busy = true → ∀ a,
      ((∃ i, decode s.cfg.width s.curCmd = .ok i ∧ (writeFootprint i s).contains a = true) ∧ a < s.cfg.space →
        t.mem.read a = Config.freeByte s.draws a) ∧
      (¬((∃ i, decode s.cfg.width s.curCmd = .ok i ∧ (writeFootprint i s).contains a = true) ∧ a < s.cfg.space) →
        t.mem.read a = s.mem.read a))

/-- 70_reset_and_hazards.md R271: a write to CTRL with bit 1 set is a hardware reset, busy or not, whatever bit 0
holds; SRST reads 0; a command stops running only by its own completion, by a hardware reset or by such a write. -/
def Obligations.SoftReset : Prop :=
  (∀ (s : State) (l : List Action) (v : Word), v.getLsbD 1 = true →
    step { s with pending := .regWrite 0x08 8 v :: l } = step { s with pending := .reset :: l } ∧
    ∃ t, step { s with pending := .regWrite 0x08 8 v :: l } = .next t ∧ t.ie = false ∧ slotValue t .ctrl = 0) ∧
  (∀ s : State, (slotValue s .ctrl).getLsbD 1 = false) ∧
  (∀ s t : State, s.status.busy = true → step s = .next t → t.status.busy = false →
    (∃ s', s.EngineAt s') ∨ (∃ l, s.pending = .reset :: l) ∨
    ∃ l v, s.pending = .regWrite 0x08 8 v :: l ∧ v.getLsbD 1 = true)

/-! ### The register window (10_state.md) -/

/-- 44_control.md R231: a write to CMD while BUSY = 0 is accepted and does nothing else; while BUSY = 1 it is dropped
and sets OVR. -/
def Obligations.CommandAcceptance : Prop :=
  ∀ (s : State) (l : List Action) (c : Word), s.pending = .regWrite 0x18 8 c :: l →
    (s.status.busy = false → step s = .next { s with
      pending := l, curCmd := c,
      status := { busy := true, done := false, ovr := s.status.ovr, err := none } }) ∧
    (s.status.busy = true → step s = .next { s with pending := l, status := { s.status with ovr := true } })

/-- 10_state.md R48: while BUSY = 1 a write to CMD, an operand or a buffer register is dropped and sets OVR; CTRL and
STATUS act as R23 and R24 say; read-only and reserved slots ignore it. -/
def Obligations.WritesWhileBusy : Prop :=
  ∀ (s : State) (l : List Action) (offset : Nat) (v : Word), s.pending = .regWrite offset 8 v :: l →
    s.status.busy = true →
    (offset ∈ [0x18, 0x20, 0x28, 0x30, 0x38, 0x48, 0x50, 0x58, 0x60, 0x68, 0x70, 0x78, 0x80] →
      step s = .next { s with pending := l, status := { s.status with ovr := true } }) ∧
    (offset = 0x08 → v.getLsbD 1 = false → step s = .next { s with pending := l, ie := v.getLsbD 0 }) ∧
    (offset = 0x08 → v.getLsbD 1 = true → step s = step { s with pending := .reset :: l } ∧
      ∃ t, step s = .next t ∧ t.ie = false) ∧
    (offset = 0x10 → step s = .next { s with pending := l, status := { s.status with
      done := s.status.done && !v.getLsbD 1, ovr := s.status.ovr && !v.getLsbD 2 } }) ∧
    (offset ∈ [0x00, 0x40, 0x88, 0x90, 0x98, 0xA0, 0xA8, 0xB0, 0xB8, 0xC0, 0xC8, 0xD0, 0xD8, 0xE0, 0xE8, 0xF0, 0xF8] →
      step s = .next { s with pending := l })

/-- 44_control.md R235, 10_state.md R21 (c), (d), R49: while BUSY = 0 a read-write register takes the low bits of the
value, as many as its contents are wide; read-only and reserved slots ignore it. -/
def Obligations.WritesWhileIdle : Prop :=
  ∀ (s : State) (l : List Action) (v : Word), s.status.busy = false →
    let run := fun offset => step { s with pending := .regWrite offset 8 v :: l }
    let w := BitVec.ofNat 64 (v.toNat % 2 ^ s.cfg.width.bits)
    let a := BitVec.ofNat 64 (v.toNat % 2 ^ s.cfg.addrBits)
    let put := fun r : Regs => Host.Outcome.next (φ := Fault) (ρ := Refusal) { s with pending := l, regs := r }
    run 0x20 = put { s.regs with param := w } ∧
    run 0x28 = put { s.regs with hdrBits := BitVec.ofNat 7 v.toNat } ∧
    run 0x30 = put { s.regs with data := w } ∧ run 0x38 = put { s.regs with count := w } ∧
    run 0x48 = put { s.regs with dstBase := a } ∧ run 0x50 = put { s.regs with dstLen := a } ∧
    run 0x58 = put { s.regs with srcBase := a } ∧ run 0x60 = put { s.regs with srcLen := a } ∧
    run 0x68 = put { s.regs with keyBase := a } ∧ run 0x70 = put { s.regs with keyCount := a } ∧
    run 0x78 = put { s.regs with outBase := a } ∧ run 0x80 = put { s.regs with outCap := a } ∧
    ∀ offset ∈ [0x00, 0x40, 0x88, 0x90, 0x98, 0xA0, 0xA8, 0xB0, 0xB8, 0xC0, 0xC8, 0xD0, 0xD8, 0xE0, 0xE8, 0xF0, 0xF8],
      run offset = put s.regs

/-- 10_state.md R23: CTRL reads IE in bit 0 and zeros above, IE gates IRQ, and reset clears it; a write with bit 1
clear sets IE to bit 0, busy or not, and nothing else; a write with bit 1 set is a reset and leaves IE 0. -/
def Obligations.CtrlRegister : Prop :=
  (∀ s : State, slotValue s .ctrl = if s.ie then 1 else 0) ∧ (∀ s : State, irq s = (s.status.done && s.ie)) ∧
  State.reset.ie = false ∧
  (∀ (s : State) (l : List Action) (v : Word), s.pending = .regWrite 0x08 8 v :: l →
    (v.getLsbD 1 = false → step s = .next { s with pending := l, ie := v.getLsbD 0 }) ∧
    (v.getLsbD 1 = true → step s = step { s with pending := .reset :: l } ∧ ∃ t, step s = .next t ∧ t.ie = false))

/-- 10_state.md R24, 60_exceptions.md R240: the bits of STATUS as a host reads them, and the write-1-to-clear of DONE
and OVR, which changes nothing else, busy or not. -/
def Obligations.StatusRegister : Prop :=
  (∀ (s : State) (k : Nat), k < 64 → (slotValue s .status).getLsbD k =
    (if k = 0 then s.status.busy else if k = 1 then s.status.done else if k = 2 then s.status.ovr
     else if 8 ≤ k ∧ k < 16 then (match s.status.err with
       | none => 0
       | some .bufferExhausted => 1
       | some .endOfStream => 2
       | some .outputExhausted => 3
       | some .invalidInput => 4
       | some .illegalCommand => 5
       | some .configError => 6
       | some .paramRange => 7
       | some .decodeOverflow => 8
       | some .busError => 9 : Nat).testBit (k - 8)
     else false)) ∧
  (∀ (s : State) (l : List Action) (v : Word), s.pending = .regWrite 0x10 8 v :: l →
    step s = .next { s with pending := l, status := { s.status with
      done := s.status.done && !v.getLsbD 1, ovr := s.status.ovr && !v.getLsbD 2 } })

/-- 10_state.md R47: a read of a slot a running command may change returns a free value while BUSY = 1; every other
read returns the slot's contents; no read changes anything but what the host has seen. That the free value is free in
all 64 bits is the model's reading, log 6. -/
def Obligations.RegisterReads : Prop :=
  ∀ (s : State) (l : List Action) (offset : Nat), s.pending = .regRead offset 8 :: l → offset % 8 = 0 → offset < 0x100 →
    (s.status.busy = true ∧ offset ∈ [0x20, 0x40, 0x88, 0x90, 0x98, 0xA0] →
      step s = .next { s with pending := l, seenReg := Config.freeWord s.draws, draws := s.draws + 1 }) ∧
    (¬(s.status.busy = true ∧ offset ∈ [0x20, 0x40, 0x88, 0x90, 0x98, 0xA0]) →
      step s = .next { s with pending := l, seenReg := slotValue s (slotAt offset) })

/-- 10_state.md R20, R21, R22, R39: what each slot holds, zero-extended to 64 bits, in a state whose registers fit
their widths. Slot 0x10 is the STATUS whose bits StatusRegister gives. -/
def Obligations.RegisterContents : Prop :=
  ∀ s : State, s.Inv → let read := fun offset => (slotValue s (slotAt offset)).toNat
    read 0x00 = s.cfg.width.bits + 256 * s.cfg.addrBits ∧ read 0x08 = s.ie.toNat ∧ slotAt 0x10 = .status ∧
    read 0x10 = s.status.busy.toNat + 2 * s.status.done.toNat + 4 * s.status.ovr.toNat + 256 * errField s.status.err ∧
    read 0x18 = 0 ∧
    read 0x20 = s.regs.param.toNat ∧ read 0x28 = s.regs.hdrBits.toNat ∧ read 0x30 = s.regs.data.toNat ∧
    read 0x38 = s.regs.count.toNat ∧ read 0x40 = s.regs.result.toNat ∧ read 0x48 = s.regs.dstBase.toNat ∧
    read 0x50 = s.regs.dstLen.toNat ∧ read 0x58 = s.regs.srcBase.toNat ∧ read 0x60 = s.regs.srcLen.toNat ∧
    read 0x68 = s.regs.keyBase.toNat ∧ read 0x70 = s.regs.keyCount.toNat ∧ read 0x78 = s.regs.outBase.toNat ∧
    read 0x80 = s.regs.outCap.toNat ∧ read 0x88 = s.wr.nbytes ∧ read 0x90 = s.wr.shift.val ∧
    read 0x98 = s.rd.nbytes ∧ read 0xA0 = s.rd.shift.val ∧
    (∀ offset, 0xA8 ≤ offset → offset < 0x100 → read offset = 0) ∧
    (∀ offset ∈ [0x20, 0x30, 0x38], read offset < 2 ^ s.cfg.width.bits) ∧
    (∀ offset ∈ [0x48, 0x50, 0x58, 0x60, 0x68, 0x70, 0x78, 0x80, 0x88, 0x98], read offset < 2 ^ s.cfg.addrBits)

/-- 10_state.md R21 (a): a register access that is not one whole slot at a multiple of 8 in the window is refused; that
one outside the window is, is the model's reading, log 17. -/
def Obligations.PartialRegisterAccess : Prop :=
  ∀ (s : State) (l : List Action) (offset bytes : Nat) (v : Word),
    bytes ≠ 8 ∨ offset % 8 ≠ 0 ∨ 0x100 ≤ offset →
    step { s with pending := .regWrite offset bytes v :: l } = .refused (.registerAccess offset bytes) ∧
    step { s with pending := .regRead offset bytes :: l } = .refused (.registerAccess offset bytes)

/-- 60_exceptions.md R252, R253: IRQ is DONE and IE; DONE is cleared by writing 1 to it, by acceptance and by
hardware or soft reset; writing IE = 0 masks IRQ and leaves DONE. -/
def Obligations.InterruptClearing : Prop :=
  (∀ s : State, irq s = true ↔ s.status.done = true ∧ s.ie = true) ∧
  ∀ (s : State) (l : List Action) (v : Word), ∃ t₁ t₂ t₃ t₄,
    (v.getLsbD 1 = true → step { s with pending := .regWrite 0x10 8 v :: l } = .next t₁ ∧
      t₁.status.done = false ∧ irq t₁ = false) ∧
    (s.status.busy = false → step { s with pending := .regWrite 0x18 8 v :: l } = .next t₂ ∧
      t₂.status.done = false ∧ irq t₂ = false) ∧
    (step { s with pending := .reset :: l } = .next t₃ ∧ t₃.status.done = false ∧ irq t₃ = false) ∧
    (v.getLsbD 1 = true → step { s with pending := .regWrite 0x08 8 v :: l } = .next t₃) ∧
    (v.getLsbD 0 = false → v.getLsbD 1 = false → step { s with pending := .regWrite 0x08 8 v :: l } = .next t₄ ∧
      t₄.status.done = s.status.done ∧ irq t₄ = false)

/-- 10_state.md R39: a step that is not the engine's turn and no reset leaves both cursors as they are, whether a command
runs or not. -/
def Obligations.HostCannotSetCursors : Prop :=
  ∀ s t : State, step s = .next t → (∀ s', ¬s.EngineAt s') →
    (∀ l, s.pending ≠ .reset :: l) → (∀ l v, s.pending = .regWrite 0x08 8 v :: l → v.getLsbD 1 = false) →
    t.wr = s.wr ∧ t.rd = s.rd

/-- 10_state.md R26, R30: a command changes RESULT only by succeeding, and only RD_BIT, RD_BITS, DEC_VAL, ESTIMATE,
ENCODE and DECODE do; only ENCODE with AUTO = 1 and DECODE with a header change PARAM; none changes another operand or
buffer register. -/
def Obligations.ResultAndParamWriters : Prop :=
  ∀ (i : Instr) (s t : State), exec i s = .next t →
    (t.regs.result ≠ s.regs.result → t.status.err = none ∧
      (i = .rdBit ∨ (∃ n, i = .rdBits n) ∨ i = .decVal ∨ i = .estimate ∨ (∃ a, i = .encode a) ∨ i = .decode)) ∧
    (t.regs.param ≠ s.regs.param → i = .encode true ∨ (i = .decode ∧ 0 < s.hdr)) ∧
    t.regs = { s.regs with result := t.regs.result, param := t.regs.param }

/-! ### Host memory access (20_memory.md, 70_reset_and_hazards.md) -/

/-- 44_control.md R237, 70_reset_and_hazards.md R280: a host write off the running command's footprint stores its bytes
and changes nothing else; one that meets the footprint while BUSY = 1 is a fault that names an address of both. That a
wide access is one step is the model's choice, log 18; that it does not consult Accessible and that an illegal running
command has no footprint are the model's readings, log 9, 12. -/
def Obligations.HostMemoryWrites : Prop :=
  ∀ (s : State) (l : List Action) (a : Nat) (bs : List Byte), s.pending = .memWrite a bs :: l →
    a + bs.length ≤ s.cfg.space →
    ((∃ x, a ≤ x ∧ x < a + bs.length ∧ ((runningReads s).contains x = true ∨ (runningWrites s).contains x = true)) →
      ∃ x, step s = .fault (.footprintWrite x) ∧ a ≤ x ∧ x < a + bs.length ∧
        ((runningReads s).contains x = true ∨ (runningWrites s).contains x = true)) ∧
    ((∀ x, a ≤ x → x < a + bs.length → (runningReads s).contains x = false ∧ (runningWrites s).contains x = false ∧
        s.cfg.isDevice x = false) →
      ∃ t, step s = .next t ∧ t = { s with pending := l, mem := t.mem } ∧
        ∀ x, t.mem.read x = if h : a ≤ x ∧ x < a + bs.length then bs[x - a]'(by omega) else s.mem.read x)

/-- 44_control.md R237, 70_reset_and_hazards.md R280: a host read off the running command's write footprint returns
the bytes and changes nothing else; one that meets it while BUSY = 1 is a fault that names an address of both. That a
wide access is one step is the model's choice, log 18; that it does not consult Accessible and that an illegal running
command has no footprint are the model's readings, log 9, 12. -/
def Obligations.HostMemoryReads : Prop :=
  ∀ (s : State) (l : List Action) (a n : Nat), s.pending = .memRead a n :: l → a + n ≤ s.cfg.space →
    ((∃ x, a ≤ x ∧ x < a + n ∧ (runningWrites s).contains x = true) →
      ∃ x, step s = .fault (.footprintRead x) ∧ a ≤ x ∧ x < a + n ∧ (runningWrites s).contains x = true) ∧
    ((∀ x, a ≤ x → x < a + n → (runningWrites s).contains x = false ∧ s.cfg.isDevice x = false) →
      ∃ bs : List Byte, step s = .next { s with pending := l, seenMem := bs } ∧ bs.length = n ∧
        ∀ j (h : j < bs.length), bs[j] = s.mem.read (a + j))

/-- 20_memory.md R75: the footprint of the running command, command by command; an idle engine has none. That an illegal
command has none is the model's reading of 30_encoding.md R96, log 12. -/
def Obligations.FootprintTable : Prop :=
  (∀ s : State, s.status.busy = false ∨ (∃ e, decode s.cfg.width s.curCmd = .error e) →
    ∀ x, (runningReads s).contains x = false ∧ (runningWrites s).contains x = false) ∧
  (∀ (s : State) (i : Instr) (x : Nat), s.status.busy = true → decode s.cfg.width s.curCmd = .ok i →
    let inside := fun base len => decide (base ≤ x ∧ x < base + len)
    match i with
    | .nop | .estimate | .wrInit | .rdInit =>
      (runningReads s).contains x = false ∧ (runningWrites s).contains x = false
    | .wrBit _ | .wrBits _ | .encVal =>
      (runningReads s).contains x = false ∧ (runningWrites s).contains x = inside s.wr.base s.wr.cap
    | .rdBit | .rdBits _ | .decVal =>
      (runningReads s).contains x = inside s.rd.base s.rd.len ∧ (runningWrites s).contains x = false
    | .encode _ =>
      (runningReads s).contains x = inside s.regs.keyBase.toNat (s.regs.keyCount.toNat * s.keyBytes) ∧
      (runningWrites s).contains x = inside s.regs.dstBase.toNat s.regs.dstLen.toNat
    | .decode =>
      (runningReads s).contains x = inside s.regs.srcBase.toNat s.regs.srcLen.toNat ∧
      (runningWrites s).contains x = inside s.regs.outBase.toNat (s.regs.outCap.toNat * s.keyBytes))

/-- 20_memory.md R66, R67: a key stored is loaded back, and no byte but its K bytes changes. -/
def Obligations.KeyStoredIsLoaded : Prop :=
  ∀ (c : Config) (m : Memory) (base i v : Nat), v < 2 ^ c.width.bits →
    c.Answers { base := base + i * c.width.bytes, len := c.width.bytes } →
    ∃ m', storeKey c base i v m = .ok () m' ∧ loadKey c m' base i = .ok v ∧
      (∀ j, j < c.width.bytes → (m'.read (base + i * c.width.bytes + j)).toNat = v / 2 ^ (8 * j) % 2 ^ 8) ∧
      ∀ a, a < base + i * c.width.bytes ∨ base + i * c.width.bytes + c.width.bytes ≤ a → m'.read a = m.read a

/-! ### The bit commands (40_bitio.md) -/

/-- 44_control.md R230: NOP completes with OK and changes nothing else. -/
def Obligations.NopCompletes : Prop :=
  ∀ s : State, exec .nop s =
    .next { s with status := { busy := false, done := true, ovr := s.status.ovr, err := none } }

/-- 40_bitio.md R120: WR_INIT starts a fresh writer on a valid destination region, else CONFIG_ERROR and the cursor
stays; memory is not touched. -/
def Obligations.WrInitCompletes : Prop :=
  ∀ s : State,
    (s.regs.dstBase.toNat + s.regs.dstLen.toNat ≤ 2 ^ s.cfg.addrBits → exec .wrInit s =
      .next { s with
        wr := { base := s.regs.dstBase.toNat, cap := s.regs.dstLen.toNat, nbytes := 0, shift := 0, byte := 0 },
        status := { busy := false, done := true, ovr := s.status.ovr, err := none } }) ∧
    (2 ^ s.cfg.addrBits < s.regs.dstBase.toNat + s.regs.dstLen.toNat → exec .wrInit s =
      .next { s with status := { busy := false, done := true, ovr := s.status.ovr, err := some .configError } })

/-- 40_bitio.md R130: RD_INIT, likewise for the source region and the reader. -/
def Obligations.RdInitCompletes : Prop :=
  ∀ s : State,
    (s.regs.srcBase.toNat + s.regs.srcLen.toNat ≤ 2 ^ s.cfg.addrBits → exec .rdInit s =
      .next { s with
        rd := { base := s.regs.srcBase.toNat, len := s.regs.srcLen.toNat, nbytes := 0, shift := 0, byte := 0 },
        status := { busy := false, done := true, ovr := s.status.ovr, err := none } }) ∧
    (2 ^ s.cfg.addrBits < s.regs.srcBase.toNat + s.regs.srcLen.toNat → exec .rdInit s =
      .next { s with status := { busy := false, done := true, ovr := s.status.ovr, err := some .configError } })

/-- 40_bitio.md R122, R125: WR_BIT in each of its cases. A raise changes nothing; else the bit goes to the top of a new
byte of ones, or to the next position of the current byte, and the byte is written whole to its address. -/
def Obligations.WrBitCompletes : Prop :=
  ∀ (b : Bool) (s : State),
    let done := fun code => ({ busy := false, done := true, ovr := s.status.ovr, err := code } : Status)
    (s.wr.shift = 0 → s.wr.nbytes = s.wr.cap →
      exec (.wrBit b) s = .next { s with status := done (some .bufferExhausted) }) ∧
    (s.wr.shift = 0 → s.wr.nbytes < s.wr.cap → s.cfg.accessible (s.wr.base + s.wr.nbytes) = false →
      exec (.wrBit b) s = .next { s with status := done (some .busError) }) ∧
    (s.wr.shift = 0 → s.wr.nbytes < s.wr.cap → s.cfg.accessible (s.wr.base + s.wr.nbytes) = true →
      exec (.wrBit b) s = .next { s with
        wr := { s.wr with nbytes := s.wr.nbytes + 1, shift := 7, byte := if b then 0xFF else 0x7F },
        mem := s.mem.write (s.wr.base + s.wr.nbytes) (if b then 0xFF else 0x7F), status := done none }) ∧
    (∀ k : Nat, s.wr.shift.val = k + 1 →
      let byte := if b then s.wr.byte else s.wr.byte &&& ~~~((1 : Byte) <<< k)
      ∃ sh : Fin 8, sh.val = k ∧ exec (.wrBit b) s = .next { s with
        wr := { s.wr with shift := sh, byte := byte },
        mem := s.mem.write (s.wr.base + s.wr.nbytes - 1) byte, status := done none })

/-- 40_bitio.md R126: the closed form of writing a bit string when the bytes it opens answer: it is appended whole if it
fits, else its first Free bits are and the writer is full. -/
def Obligations.WriterClosedForm : Prop :=
  ∀ (c : Config) (w : Writer) (l : List Bool), w.cur.Sound c →
    (l.length ≤ w.cur.free → c.Answers (w.cur.opens l.length) →
      ∃ w', writeString c l w = .ok () w' ∧ Appended l w w') ∧
    (w.cur.free < l.length → c.Answers (w.cur.opens w.cur.free) →
      ∃ w', writeString c l w = .raise .bufferExhausted w' ∧ Appended (l.take w.cur.free) w w' ∧
        w'.cur.nbytes = w.cur.cap ∧ w'.cur.shift = 0)

/-- 60_exceptions.md R241, 40_bitio.md R122, R127, 41_value_codec.md R162: a writer that must open a byte that does not
answer stops with BUS_ERROR there, the bits before it appended: for a bit string, WR_BITS and ENC_VAL. ENCODE stops so
too, in its header or in the codewords of its first keys, with RESULT as it was, PARAM the parameter used, the
destination's bytes free values and no other byte changed (43_set_codec.md R197 (c)). -/
def Obligations.WriterBusError : Prop :=
  (∀ (c : Config) (w : Writer) (l : List Bool) (j : Nat), w.cur.Sound c → c.FirstHole w.cur.base w.cur.nbytes j →
    j < w.cur.cap → 8 * j - w.cur.pos < l.length →
    ∃ w', writeString c l w = .raise .busError w' ∧ Appended (l.take (8 * j - w.cur.pos)) w w') ∧
  (∀ (s : State) (j : Nat), s.wr.Sound s.cfg → s.cfg.FirstHole s.wr.base s.wr.nbytes j → j < s.wr.cap →
    (∀ n, n ≤ s.keyBits → 8 * j - s.wr.pos < n →
      ∃ w', Appended ((binBits n s.regs.data.toNat).take (8 * j - s.wr.pos)) s.writer w' ∧ exec (.wrBits n) s =
        .next { s with
          wr := w'.cur, mem := w'.mem,
          status := { busy := false, done := true, ovr := s.status.ovr, err := some .busError } }) ∧
    (s.paramVal < s.keyBits → 8 * j - s.wr.pos < (codeword s.paramVal s.regs.data.toNat).length →
      ∃ w', Appended ((codeword s.paramVal s.regs.data.toNat).take (8 * j - s.wr.pos)) s.writer w' ∧ exec .encVal s =
        .next { s with
          wr := w'.cur, mem := w'.mem,
          status := { busy := false, done := true, ovr := s.status.ovr, err := some .busError } })) ∧
  (∀ (s : State) (auto : Bool) (ks : List Nat) (p j : Nat), s.Inv → s.EncodeChecks → s.HoldsFirst ks →
    AscendsFrom 0 ks → s.EncodeParamIs auto p → s.cfg.FirstHole s.regs.dstBase.toNat 0 j → j < s.regs.dstLen.toNat →
    8 * j < (stream s.hdr p ks).length →
    ∃ t, exec (.encode auto) s = .next t ∧
      t = { s with
        wr := t.wr, mem := t.mem, draws := s.draws + 1,
        regs := { s.regs with param := if auto then BitVec.ofNat 64 p else s.regs.param },
        status := { busy := false, done := true, ovr := s.status.ovr, err := some .busError } } ∧
      t.wr.Wrote s.regs.dstBase.toNat s.regs.dstLen.toNat ((stream s.hdr p ks).take (8 * j)) ∧
      ∀ a, t.mem.read a = if s.dstRegion.contains a then Config.freeByte s.draws a else s.mem.read a)

/-- 40_bitio.md R127, R123, R126: WR_BITS n, the bytes it opens answering, appends the low n bits of DATA, most
significant first, if they fit, and else as many as fit, with BUFFER_EXHAUSTED. -/
def Obligations.WrBitsCompletes : Prop :=
  ∀ (n : Nat) (s : State), n ≤ s.keyBits → s.wr.Sound s.cfg →
    (n ≤ s.wr.free → s.cfg.Answers (s.wr.opens n) →
      ∃ w', Appended (binBits n s.regs.data.toNat) s.writer w' ∧ exec (.wrBits n) s =
      .next { s with
        wr := w'.cur, mem := w'.mem,
        status := { busy := false, done := true, ovr := s.status.ovr, err := none } }) ∧
    (s.wr.free < n → s.cfg.Answers (s.wr.opens s.wr.free) →
      ∃ w', Appended ((binBits n s.regs.data.toNat).take s.wr.free) s.writer w' ∧
      w'.cur.nbytes = s.wr.cap ∧ w'.cur.shift = 0 ∧ exec (.wrBits n) s =
      .next { s with
        wr := w'.cur, mem := w'.mem,
        status := { busy := false, done := true, ovr := s.status.ovr, err := some .bufferExhausted } })

/-- 40_bitio.md R131, R134: RD_BIT in each of its cases. -/
def Obligations.RdBitCompletes : Prop :=
  ∀ s : State,
    let done := fun code => ({ busy := false, done := true, ovr := s.status.ovr, err := code } : Status)
    (s.rd.shift = 0 → s.rd.nbytes = s.rd.len →
      exec .rdBit s = .next { s with status := done (some .endOfStream) }) ∧
    (s.rd.shift = 0 → s.rd.nbytes < s.rd.len → s.cfg.accessible (s.rd.base + s.rd.nbytes) = false →
      exec .rdBit s = .next { s with status := done (some .busError) }) ∧
    (s.rd.shift = 0 → s.rd.nbytes < s.rd.len → s.cfg.accessible (s.rd.base + s.rd.nbytes) = true →
      let byte := s.mem.read (s.rd.base + s.rd.nbytes)
      exec .rdBit s = .next { s with
        rd := { s.rd with nbytes := s.rd.nbytes + 1, shift := 7, byte := byte },
        regs := { s.regs with result := if byte.getLsbD 7 then 1 else 0 }, status := done none }) ∧
    (∀ k : Nat, s.rd.shift.val = k + 1 → ∃ sh : Fin 8, sh.val = k ∧
      exec .rdBit s = .next { s with
        rd := { s.rd with shift := sh },
        regs := { s.regs with result := if s.rd.byte.getLsbD k then 1 else 0 }, status := done none })

/-- 40_bitio.md R132, R133, R136: RD_BITS n, the bytes it opens answering, takes the next n unread bits, most significant
first, into RESULT; with fewer left it takes them all and ends with END_OF_STREAM, RESULT as it was. -/
def Obligations.RdBitsCompletes : Prop :=
  ∀ (n : Nat) (s : State), n ≤ s.keyBits → s.rd.Sound s.cfg →
    (n ≤ avail s.rd → s.cfg.Answers (s.rd.opens n) →
      unread s.mem (s.rd.moved s.mem n) = (unread s.mem s.rd).drop n ∧
      exec (.rdBits n) s = .next { s with
        rd := s.rd.moved s.mem n,
        regs := { s.regs with result := BitVec.ofNat 64 (valueOf ((unread s.mem s.rd).take n)) },
        status := { busy := false, done := true, ovr := s.status.ovr, err := none } }) ∧
    (avail s.rd < n → s.cfg.Answers (s.rd.opens (avail s.rd)) →
      (s.rd.moved s.mem (avail s.rd)).nbytes = s.rd.len ∧ (s.rd.moved s.mem (avail s.rd)).shift = 0 ∧
      exec (.rdBits n) s = .next { s with
        rd := s.rd.moved s.mem (avail s.rd),
        status := { busy := false, done := true, ovr := s.status.ovr, err := some .endOfStream } })

/-! ### The value codec (41_value_codec.md) and the estimator (42_estimator.md) -/

/-- 41_value_codec.md R162, R163: ENC_VAL refuses PARAM ≥ W and changes nothing; else, the bytes it opens answering, it
appends the codeword of DATA if it fits, and else as many of its bits as fit, with BUFFER_EXHAUSTED. -/
def Obligations.EncValCompletes : Prop :=
  ∀ s : State,
    (s.keyBits ≤ s.paramVal → exec .encVal s =
      .next { s with status := { busy := false, done := true, ovr := s.status.ovr, err := some .paramRange } }) ∧
    (s.paramVal < s.keyBits → s.wr.Sound s.cfg →
      let l := codeword s.paramVal s.regs.data.toNat
      (l.length ≤ s.wr.free → s.cfg.Answers (s.wr.opens l.length) →
        ∃ w', Appended l s.writer w' ∧ exec .encVal s =
        .next { s with
          wr := w'.cur, mem := w'.mem,
          status := { busy := false, done := true, ovr := s.status.ovr, err := none } }) ∧
      (s.wr.free < l.length → s.cfg.Answers (s.wr.opens s.wr.free) →
        ∃ w', Appended (l.take s.wr.free) s.writer w' ∧
        w'.cur.nbytes = s.wr.cap ∧ w'.cur.shift = 0 ∧ exec .encVal s =
        .next { s with
          wr := w'.cur, mem := w'.mem,
          status := { busy := false, done := true, ovr := s.status.ovr, err := some .bufferExhausted } }))

/-- 41_value_codec.md R164, R166: DEC_VAL refuses PARAM ≥ W; else, the bytes it opens answering, it takes `j` ones, a
zero and `p` bits `rem` off the unread bits and gives `j * 2^p + rem`, or DECODE_OVERFLOW when that is 2^W or more;
unread bits that hold no whole codeword are all taken, with END_OF_STREAM. -/
def Obligations.DecValCompletes : Prop :=
  ∀ s : State,
    (s.keyBits ≤ s.paramVal → exec .decVal s =
      .next { s with status := { busy := false, done := true, ovr := s.status.ovr, err := some .paramRange } }) ∧
    (s.paramVal < s.keyBits → s.rd.Sound s.cfg →
      (∀ (j : Nat) (rem rest : List Bool), rem.length = s.paramVal →
        unread s.mem s.rd = List.replicate j true ++ false :: rem ++ rest →
        s.cfg.Answers (s.rd.opens (j + 1 + s.paramVal)) →
        unread s.mem (s.rd.moved s.mem (j + 1 + s.paramVal)) = rest ∧ exec .decVal s =
          if 2 ^ s.keyBits ≤ j * 2 ^ s.paramVal + valueOf rem then
            .next { s with
              rd := s.rd.moved s.mem (j + 1 + s.paramVal),
              status := { busy := false, done := true, ovr := s.status.ovr, err := some .decodeOverflow } }
          else
            .next { s with
              rd := s.rd.moved s.mem (j + 1 + s.paramVal),
              regs := { s.regs with result := BitVec.ofNat 64 (j * 2 ^ s.paramVal + valueOf rem) },
              status := { busy := false, done := true, ovr := s.status.ovr, err := none } }) ∧
      (NoCodeword s.paramVal (unread s.mem s.rd) → s.cfg.Answers (s.rd.opens (avail s.rd)) →
        (s.rd.moved s.mem (avail s.rd)).nbytes = s.rd.len ∧ (s.rd.moved s.mem (avail s.rd)).shift = 0 ∧
        exec .decVal s = .next { s with
          rd := s.rd.moved s.mem (avail s.rd),
          status := { busy := false, done := true, ovr := s.status.ovr, err := some .endOfStream } }))

/-- 41_value_codec.md R165: DecodeValue reads back the value of a codeword at the front of the unread bits and
consumes exactly its bits, the bytes it opens answering. -/
def Obligations.ValueRoundTrip : Prop :=
  ∀ (c : Config) (m : Memory) (r : RdCursor) (p v : Nat) (rest : List Bool), r.Sound c →
    c.Answers (r.opens (codeword p v).length) → v < 2 ^ c.width.bits → p < c.width.bits →
    unread m r = codeword p v ++ rest →
    decodeValue c m p r = .ok v (r.moved m (codeword p v).length) ∧ unread m (r.moved m (codeword p v).length) = rest

/-- 60_exceptions.md R241, 40_bitio.md R131, R136, 41_value_codec.md R166, 43_set_codec.md R206: a reader that must open a
byte that does not answer stops with BUS_ERROR there, RESULT as it was, the bits before it consumed: RD_BIT, which has
none before it, RD_BITS, DEC_VAL when those bits hold no whole codeword, and DECODE when the source before it holds the
codewords of keys and then no whole one. Then PARAM is the header's value, the output region's bytes take free values,
and no other byte changes (R207 (b)). -/
def Obligations.ReaderBusError : Prop :=
  (∀ (s : State) (n : Nat), s.rd.shift = 0 → s.rd.nbytes < s.rd.len →
    s.cfg.accessible (s.rd.base + s.rd.nbytes) = false →
    let t := { s with status := { busy := false, done := true, ovr := s.status.ovr, err := some .busError } }
    exec .rdBit s = .next t ∧ (0 < n → exec (.rdBits n) s = .next t) ∧
    (s.paramVal < s.keyBits → exec .decVal s = .next t)) ∧
  (∀ (s : State) (j : Nat), s.rd.Sound s.cfg → s.cfg.FirstHole s.rd.base s.rd.nbytes j → j < s.rd.len →
    let t := { s with
      rd := s.rd.moved s.mem (8 * j - s.rd.pos),
      status := { busy := false, done := true, ovr := s.status.ovr, err := some .busError } }
    (∀ n, n ≤ s.keyBits → 8 * j - s.rd.pos < n → exec (.rdBits n) s = .next t) ∧
    (s.paramVal < s.keyBits → NoCodeword s.paramVal (unread s.mem (s.rd.upto j)) → exec .decVal s = .next t)) ∧
  (∀ (s : State) (ks : List Nat) (tail : List Bool) (p j : Nat), s.Inv → s.DecodeChecks → s.DecodeParamIs p →
    s.cfg.FirstHole s.regs.srcBase.toNat 0 j → j < s.regs.srcLen.toNat →
    s.cfg.Answers { base := s.regs.outBase.toNat, len := ks.length * s.keyBytes } → AscendsFrom 0 ks →
    (∀ k ∈ ks, k < 2 ^ s.keyBits) → ks.length ≤ s.regs.outCap.toNat → NoCodeword p tail →
    memBits s.mem s.regs.srcBase.toNat j = stream s.hdr p ks ++ tail →
    ∃ t, exec .decode s = .next t ∧
      t = { s with
        rd := (RdCursor.fresh s.regs.srcBase.toNat s.regs.srcLen.toNat).moved s.mem (8 * j),
        mem := t.mem, draws := s.draws + 1,
        regs := { s.regs with param := if s.hdr = 0 then s.regs.param else BitVec.ofNat 64 p },
        status := { busy := false, done := true, ovr := s.status.ovr, err := some .busError } } ∧
      ∀ a, t.mem.read a = if s.outRegion.contains a then Config.freeByte s.draws a else s.mem.read a)

/-- 42_estimator.md R180, R182: ESTIMATE's result, and CONFIG_ERROR with nothing else changed for HDR_BITS > W. -/
def Obligations.EstimateCompletes : Prop :=
  ∀ s : State, let delta := s.regs.data.toNat / s.regs.count.toNat
    (s.keyBits < s.hdr → exec .estimate s =
      .next { s with status := { busy := false, done := true, ovr := s.status.ovr, err := some .configError } }) ∧
    (s.hdr ≤ s.keyBits → ∀ p : Nat,
      (s.regs.count.toNat = 0 → p = 0) →
      (s.regs.count.toNat ≠ 0 → delta = 0 → p = 0) →
      (s.regs.count.toNat ≠ 0 → ∀ q, 2 ^ q ≤ delta → delta < 2 ^ (q + 1) → p = min q (2 ^ s.hdr - 1)) →
      exec .estimate s = .next { s with
        regs := { s.regs with result := BitVec.ofNat 64 p },
        status := { busy := false, done := true, ovr := s.status.ovr, err := none } })

/-- 42_estimator.md R181 (b) to (e): the bounds of Estimate. -/
def Obligations.EstimateBounds : Prop :=
  ∀ maxKey count h : Nat,
    (count = 0 → estimate maxKey count h = 0) ∧ estimate maxKey count h ≤ 2 ^ h - 1 ∧
    (∀ w : KeyWidth, maxKey < 2 ^ w.bits → estimate maxKey count h ≤ w.bits - 1) ∧
    (0 < count → 1 ≤ maxKey / count → 2 ^ (bitlen (maxKey / count) - 1) ≤ maxKey / count ∧
      maxKey / count < 2 ^ bitlen (maxKey / count))

/-! ### The set codec (43_set_codec.md) -/

/-- 43_set_codec.md R191, R192, R201, R202: ENCODE and DECODE refuse a failed check with CONFIG_ERROR, and ENCODE with
AUTO = 0 or DECODE without a header an illegal PARAM with PARAM_RANGE; ENCODE with AUTO = 1 whose last key has a byte
that does not answer ends with BUS_ERROR (R193). Then nothing but STATUS changes (R197 (a), (b), R207 (a)). -/
def Obligations.SetCodecRefusals : Prop :=
  ∀ (s : State) (auto : Bool),
    let fail := fun e => Host.Outcome.next (φ := Fault) (ρ := Refusal)
      { s with status := { busy := false, done := true, ovr := s.status.ovr, err := some e } }
    (¬s.EncodeChecks → exec (.encode auto) s = fail .configError) ∧
    (s.EncodeChecks → s.keyBits ≤ s.paramVal ∨ (0 < s.hdr ∧ 2 ^ s.hdr ≤ s.paramVal) →
      exec (.encode false) s = fail .paramRange) ∧
    (s.EncodeChecks → 0 < s.regs.keyCount.toNat →
      s.cfg.KeyHole s.regs.keyBase.toNat (s.regs.keyCount.toNat - 1) → exec (.encode true) s = fail .busError) ∧
    (¬s.DecodeChecks → exec .decode s = fail .configError) ∧
    (s.DecodeChecks → s.hdr = 0 → s.keyBits ≤ s.paramVal → exec .decode s = fail .paramRange)

/-- 43_set_codec.md R190, R194, R195, R196, 30_encoding.md R109: ENCODE of strictly ascending keys whose stream fits, the
bytes it opens answering, completes with the stream in the destination, ones after it to the end of its last byte,
RESULT its byte count, PARAM the parameter used, and nothing else changed. -/
def Obligations.EncodeWritesStream : Prop :=
  ∀ (s : State) (auto : Bool) (ks : List Nat) (p : Nat), s.Inv → s.EncodeChecks → s.HoldsKeys ks →
    AscendsFrom 0 ks → s.EncodeParamIs auto p →
    let l := stream s.hdr p ks
    s.cfg.Answers { base := s.regs.dstBase.toNat, len := bytesFor l.length } →
    bytesFor l.length ≤ s.regs.dstLen.toNat →
    ∃ t, exec (.encode auto) s = .next t ∧
      t = { s with
        wr := t.wr, mem := t.mem,
        regs := { s.regs with
          result := BitVec.ofNat 64 (bytesFor l.length), param := if auto then BitVec.ofNat 64 p else s.regs.param },
        status := { busy := false, done := true, ovr := s.status.ovr, err := none } } ∧
      t.wr.Wrote s.regs.dstBase.toNat s.regs.dstLen.toNat l ∧
      (∀ i (h : i < l.length), bitAt t.mem s.regs.dstBase.toNat i = l[i]) ∧
      (∀ i, l.length ≤ i → i < 8 * bytesFor l.length → bitAt t.mem s.regs.dstBase.toNat i = true) ∧
      ∀ a, a < s.regs.dstBase.toNat ∨ s.regs.dstBase.toNat + bytesFor l.length ≤ a → t.mem.read a = s.mem.read a

/-- 43_set_codec.md R195, R197 (c), 60_exceptions.md R245: ENCODE whose first keys `ks` ascend, with their stream fitting
and the bytes it opens answering, ends at the next key with BUS_ERROR if a byte of it does not answer, and with
INVALID_INPUT if it is below the next_min it meets; RESULT stays, PARAM is the parameter used, the writer stands after
the stream of `ks`, the destination takes free values, and no byte outside it changes. -/
def Obligations.EncodeInvalidInput : Prop :=
  ∀ (s : State) (auto : Bool) (ks : List Nat) (p : Nat) (e : Err), s.Inv → s.EncodeChecks → s.HoldsFirst ks →
    ks.length < s.regs.keyCount.toNat → AscendsFrom 0 ks → s.EncodeParamIs auto p →
    s.cfg.Answers { base := s.regs.dstBase.toNat, len := bytesFor (stream s.hdr p ks).length } →
    bytesFor (stream s.hdr p ks).length ≤ s.regs.dstLen.toNat →
    (s.cfg.KeyHole s.regs.keyBase.toNat ks.length ∧ e = .busError) ∨
      (∃ k, loadKey s.cfg s.mem s.regs.keyBase.toNat ks.length = .ok k ∧ ¬AscendsFrom 0 (ks ++ [k]) ∧
        e = .invalidInput) →
    ∃ t, exec (.encode auto) s = .next t ∧
      t = { s with
        wr := t.wr, mem := t.mem, draws := s.draws + 1,
        regs := { s.regs with param := if auto then BitVec.ofNat 64 p else s.regs.param },
        status := { busy := false, done := true, ovr := s.status.ovr, err := some e } } ∧
      t.wr.Wrote s.regs.dstBase.toNat s.regs.dstLen.toNat (stream s.hdr p ks) ∧
      ∀ a, t.mem.read a = if s.dstRegion.contains a then Config.freeByte s.draws a else s.mem.read a

/-- 43_set_codec.md R198, R197 (c): ENCODE whose first keys `ks` ascend and whose stream for them needs more bytes than
DST_LEN ends with BUFFER_EXHAUSTED when the destination answers; the writer is full, RESULT stays, PARAM is the
parameter used, the destination takes free values, and no byte outside it changes. -/
def Obligations.EncodeBufferExhausted : Prop :=
  ∀ (s : State) (auto : Bool) (ks : List Nat) (p : Nat), s.Inv → s.EncodeChecks → s.HoldsFirst ks →
    AscendsFrom 0 ks → s.EncodeParamIs auto p → s.cfg.Answers s.dstRegion →
    s.regs.dstLen.toNat < bytesFor (stream s.hdr p ks).length →
    ∃ t, exec (.encode auto) s = .next t ∧
      t = { s with
        wr := t.wr, mem := t.mem, draws := s.draws + 1,
        regs := { s.regs with param := if auto then BitVec.ofNat 64 p else s.regs.param },
        status := { busy := false, done := true, ovr := s.status.ovr, err := some .bufferExhausted } } ∧
      t.wr.nbytes = s.regs.dstLen.toNat ∧ t.wr.shift = 0 ∧
      t.wr.Wrote s.regs.dstBase.toNat s.regs.dstLen.toNat ((stream s.hdr p ks).take (8 * s.regs.dstLen.toNat)) ∧
      ∀ a, t.mem.read a = if s.dstRegion.contains a then Config.freeByte s.draws a else s.mem.read a

/-- 43_set_codec.md R200, R203, R204, R206: DECODE of a source that answers and holds the stream of the keys and then no
whole codeword, with room for the keys in bytes that answer, stores the keys, sets RESULT to their count and PARAM to
the header's value, leaves the reader at the end of the source, and changes nothing else. -/
def Obligations.DecodeStoresKeys : Prop :=
  ∀ (s : State) (ks : List Nat) (tail : List Bool) (p : Nat), s.Inv → s.DecodeChecks → s.DecodeParamIs p →
    s.cfg.Answers s.srcRegion → s.cfg.Answers { base := s.regs.outBase.toNat, len := ks.length * s.keyBytes } →
    AscendsFrom 0 ks → (∀ k ∈ ks, k < 2 ^ s.keyBits) → ks.length ≤ s.regs.outCap.toNat → NoCodeword p tail →
    memBits s.mem s.regs.srcBase.toNat s.regs.srcLen.toNat = stream s.hdr p ks ++ tail →
    ∃ t, exec .decode s = .next t ∧
      t = { s with
        rd := (RdCursor.fresh s.regs.srcBase.toNat s.regs.srcLen.toNat).moved s.mem (8 * s.regs.srcLen.toNat),
        mem := t.mem,
        regs := { s.regs with
          result := BitVec.ofNat 64 ks.length, param := if s.hdr = 0 then s.regs.param else BitVec.ofNat 64 p },
        status := { busy := false, done := true, ovr := s.status.ovr, err := none } } ∧
      t.rd.nbytes = s.regs.srcLen.toNat ∧ t.rd.shift = 0 ∧
      (∀ i (h : i < ks.length), loadKey s.cfg t.mem s.regs.outBase.toNat i = .ok ks[i]) ∧
      ∀ a, a < s.regs.outBase.toNat ∨ s.regs.outBase.toNat + ks.length * s.keyBytes ≤ a →
        t.mem.read a = s.mem.read a

/-- 43_set_codec.md R203, R207 (b): DECODE with a source too short for its header ends with END_OF_STREAM; with a byte of
the header that does not answer, with BUS_ERROR; with a header value of W or more, with PARAM_RANGE and PARAM written.
The reader stands where the header's read stopped, RESULT stays, the output region takes free values, and no byte
outside it changes. -/
def Obligations.DecodeBadHeader : Prop :=
  ∀ s : State, s.Inv → s.DecodeChecks → 0 < s.hdr →
    let rd := fun n => (RdCursor.fresh s.regs.srcBase.toNat s.regs.srcLen.toNat).moved s.mem n
    let drawn := fun (t : State) =>
      ∀ a, t.mem.read a = if s.outRegion.contains a then Config.freeByte s.draws a else s.mem.read a
    (s.cfg.Answers s.srcRegion → 8 * s.regs.srcLen.toNat < s.hdr → ∃ t, exec .decode s = .next t ∧ drawn t ∧
      t = { s with
        rd := rd (8 * s.regs.srcLen.toNat), mem := t.mem, draws := s.draws + 1,
        status := { busy := false, done := true, ovr := s.status.ovr, err := some .endOfStream } }) ∧
    (∀ j, s.cfg.FirstHole s.regs.srcBase.toNat 0 j → j < s.regs.srcLen.toNat → 8 * j < s.hdr →
      ∃ t, exec .decode s = .next t ∧ drawn t ∧
      t = { s with
        rd := rd (8 * j), mem := t.mem, draws := s.draws + 1,
        status := { busy := false, done := true, ovr := s.status.ovr, err := some .busError } }) ∧
    (∀ p rest, memBits s.mem s.regs.srcBase.toNat s.regs.srcLen.toNat = binBits s.hdr p ++ rest → p < 2 ^ s.hdr →
      s.keyBits ≤ p → s.cfg.Answers { base := s.regs.srcBase.toNat, len := bytesFor s.hdr } →
      ∃ t, exec .decode s = .next t ∧ drawn t ∧
      t = { s with
        rd := rd s.hdr, mem := t.mem, draws := s.draws + 1, regs := { s.regs with param := BitVec.ofNat 64 p },
        status := { busy := false, done := true, ovr := s.status.ovr, err := some .paramRange } })

/-- 43_set_codec.md R205, R207 (b), R212, R67: DECODE of a source whose next value after the keys `ks` is 2^W or more ends
with DECODE_OVERFLOW; else, with the output array full, with OUTPUT_EXHAUSTED; else, with a byte of the value's place
that does not answer, with BUS_ERROR. The reader stands after the value, RESULT stays, PARAM is the header's value, the
output region takes free values, and no byte outside it changes. -/
def Obligations.DecodeValueErrors : Prop :=
  ∀ (s : State) (ks : List Nat) (k : Nat) (rest : List Bool) (p : Nat), s.Inv → s.DecodeChecks → s.DecodeParamIs p →
    s.cfg.Answers { base := s.regs.srcBase.toNat, len := bytesFor (stream s.hdr p (ks ++ [k])).length } →
    s.cfg.Answers { base := s.regs.outBase.toNat, len := ks.length * s.keyBytes } → AscendsFrom 0 (ks ++ [k]) →
    (∀ x ∈ ks, x < 2 ^ s.keyBits) → ks.length ≤ s.regs.outCap.toNat →
    memBits s.mem s.regs.srcBase.toNat s.regs.srcLen.toNat = stream s.hdr p (ks ++ [k]) ++ rest →
    2 ^ s.keyBits ≤ k ∨ ks.length = s.regs.outCap.toNat ∨ s.cfg.KeyHole s.regs.outBase.toNat ks.length →
    ∃ t, exec .decode s = .next t ∧
      t = { s with
        rd := (RdCursor.fresh s.regs.srcBase.toNat s.regs.srcLen.toNat).moved s.mem (stream s.hdr p (ks ++ [k])).length,
        mem := t.mem, draws := s.draws + 1,
        regs := { s.regs with param := if s.hdr = 0 then s.regs.param else BitVec.ofNat 64 p },
        status :=
          { busy := false, done := true, ovr := s.status.ovr,
            err :=
              if 2 ^ s.keyBits ≤ k then some .decodeOverflow
              else if ks.length = s.regs.outCap.toNat then some .outputExhausted else some .busError } } ∧
      ∀ a, t.mem.read a = if s.outRegion.contains a then Config.freeByte s.draws a else s.mem.read a

/-- 43_set_codec.md R209: the keys a successful DECODE stores are as many as RESULT says, at most OUT_CAP, strictly
ascending and below 2^W, whatever the source. -/
def Obligations.DecodedKeysAscend : Prop :=
  ∀ s t : State, s.Inv → exec .decode s = .next t → t.status.err = none →
    t.regs.result.toNat ≤ s.regs.outCap.toNat ∧ ∃ ks : List Nat, ks.length = t.regs.result.toNat ∧ AscendsFrom 0 ks ∧
      ∀ i (h : i < ks.length), ks[i] < 2 ^ s.keyBits ∧ loadKey s.cfg t.mem s.regs.outBase.toNat i = .ok ks[i]

/-- 43_set_codec.md R210, R211: DECODE of exactly the bytes a successful ENCODE wrote, with the same header
configuration and room for the keys, gives back the keys in order, their count, and the parameter used. -/
def Obligations.SetRoundTrip : Prop :=
  ∀ (s t u : State) (auto : Bool), s.Inv → exec (.encode auto) s = .next t → t.status.err = none →
    u.Inv → u.cfg = s.cfg → u.hdr = s.hdr → (s.hdr = 0 → u.regs.param = t.regs.param) →
    u.regs.srcLen = t.regs.result →
    (∀ j, j < t.regs.result.toNat →
      u.mem.read (u.regs.srcBase.toNat + j) = t.mem.read (s.regs.dstBase.toNat + j)) →
    u.DecodeChecks → s.regs.keyCount.toNat ≤ u.regs.outCap.toNat → (∀ a, a < u.cfg.space → u.cfg.accessible a = true) →
    ∃ v, exec .decode u = .next v ∧ v.status.err = none ∧ v.regs.result.toNat = s.regs.keyCount.toNat ∧
      v.regs.param = t.regs.param ∧
      ∀ i, i < s.regs.keyCount.toNat →
        loadKey u.cfg v.mem u.regs.outBase.toNat i = loadKey s.cfg s.mem s.regs.keyBase.toNat i

/-! ### What the commands leave alone -/

/-- 20_memory.md R70: no command writes a byte outside its write footprint. -/
def Obligations.WritesStayInFootprint : Prop :=
  ∀ (i : Instr) (s t : State), s.Inv → exec i s = .next t →
    ∀ a, (writeFootprint i s).contains a = false → t.mem.read a = s.mem.read a

/-- 20_memory.md R71: what a command does to the registers, the cursors and STATUS depends on no byte of memory
outside its read footprint. -/
def Obligations.ReadsStayInFootprint : Prop :=
  ∀ (i : Instr) (s : State) (m : Memory), s.Inv →
    (∀ a, (readFootprint i s).contains a = true → m.read a = s.mem.read a) →
    ∃ t t', exec i s = .next t ∧ exec i { s with mem := m } = .next t' ∧ { t' with mem := t.mem } = t

/-- Frame of WR_BIT, WR_BITS and ENC_VAL (30_encoding.md R95): only the writer cursor, STATUS and memory change; the
writer keeps its region; the bytes stored to run from the byte of stream bit P to the last byte opened, and no other
byte changes. -/
def Obligations.WriterCommandsFrame : Prop :=
  ∀ (i : Instr) (s t : State), (∃ b, i = .wrBit b) ∨ (∃ n, i = .wrBits n) ∨ i = .encVal → s.wr.Sound s.cfg →
    exec i s = .next t →
    s.CommandKeeps t ∧ t.regs = s.regs ∧ t.rd = s.rd ∧ t.loop = s.loop ∧ t.draws = s.draws ∧
    t.wr.base = s.wr.base ∧ t.wr.cap = s.wr.cap ∧
    ∀ a, a < s.wr.base + s.wr.pos / 8 ∨ s.wr.base + t.wr.nbytes ≤ a → t.mem.read a = s.mem.read a

/-- Frame of RD_BIT, RD_BITS and DEC_VAL (30_encoding.md R95): only the reader cursor, RESULT and STATUS change; no
byte of memory does; the reader keeps its region. -/
def Obligations.ReaderCommandsFrame : Prop :=
  ∀ (i : Instr) (s t : State), i = .rdBit ∨ (∃ n, i = .rdBits n) ∨ i = .decVal → exec i s = .next t →
    s.CommandKeeps t ∧ t.regs = { s.regs with result := t.regs.result } ∧ t.wr = s.wr ∧ t.loop = s.loop ∧
    t.draws = s.draws ∧ t.mem = s.mem ∧ t.rd.base = s.rd.base ∧ t.rd.len = s.rd.len

/-- Frame of NOP, WR_INIT, RD_INIT and ESTIMATE (30_encoding.md R95): beside STATUS, NOP changes nothing, WR_INIT only
the writer cursor, RD_INIT only the reader cursor, ESTIMATE only RESULT; none changes a byte of memory. -/
def Obligations.SetupCommandsFrame : Prop :=
  ∀ (i : Instr) (s t : State), i = .nop ∨ i = .wrInit ∨ i = .rdInit ∨ i = .estimate → exec i s = .next t →
    s.CommandKeeps t ∧ t.mem = s.mem ∧ t.loop = s.loop ∧ t.draws = s.draws ∧
    (i ≠ .wrInit → t.wr = s.wr) ∧ (i ≠ .rdInit → t.rd = s.rd) ∧ (i ≠ .estimate → t.regs = s.regs) ∧
    t.regs = { s.regs with result := t.regs.result }

/-- Frame of ENCODE (30_encoding.md R95, 43_set_codec.md R196, R197): beside STATUS only the writer cursor, RESULT,
PARAM for AUTO = 1, and bytes of the destination region change; on success no byte past the last one opened does. -/
def Obligations.EncodeFrame : Prop :=
  ∀ (auto : Bool) (s t : State), s.Inv → exec (.encode auto) s = .next t →
    s.CommandKeeps t ∧ t.rd = s.rd ∧ t.loop = s.loop ∧
    t.regs = { s.regs with result := t.regs.result, param := t.regs.param } ∧
    (auto = false → t.regs.param = s.regs.param) ∧ (t.status.err ≠ none → t.regs.result = s.regs.result) ∧
    (∀ a, s.dstRegion.Outside a → t.mem.read a = s.mem.read a) ∧
    (t.status.err = none → t.draws = s.draws ∧
      ∀ a, a < s.regs.dstBase.toNat ∨ s.regs.dstBase.toNat + t.wr.nbytes ≤ a → t.mem.read a = s.mem.read a)

/-- Frame of DECODE (30_encoding.md R95, 43_set_codec.md R206, R207): beside STATUS only the reader cursor, RESULT,
PARAM when there is a header, and bytes of the output region change; on success no byte past the last key does. -/
def Obligations.DecodeFrame : Prop :=
  ∀ s t : State, s.Inv → exec .decode s = .next t →
    s.CommandKeeps t ∧ t.wr = s.wr ∧ t.loop = s.loop ∧
    t.regs = { s.regs with result := t.regs.result, param := t.regs.param } ∧
    (s.hdr = 0 → t.regs.param = s.regs.param) ∧ (t.status.err ≠ none → t.regs.result = s.regs.result) ∧
    (∀ a, s.outRegion.Outside a → t.mem.read a = s.mem.read a) ∧
    (t.status.err = none → t.draws = s.draws ∧
      ∀ a, a < s.regs.outBase.toNat ∨ s.regs.outBase.toNat + t.regs.result.toNat * s.keyBytes ≤ a →
        t.mem.read a = s.mem.read a)
end

