-- ==== Sys2Proof/Laws/Invariant.lean ====
section
/-! SUPPORT. The invariant as a computation, so that it can be evaluated on a concrete state. -/

namespace Sys2Proof

/-- With no hole every region answers. -/
theorem Config.answers_of_no_holes {c : Config} (h : c.holes = []) (r : Region) : c.Answers r := by
  intro a _ _; simp [Config.accessible, h]

end Sys2Proof

namespace Sys2Proof.Machine

/-- `WrCursor.Sound` on a concrete cursor. -/
def WrCursor.check (c : Config) (w : WrCursor) : Bool :=
  decide (w.base < c.space ∧ w.cap < c.space ∧ w.base + w.cap ≤ c.space ∧ w.nbytes ≤ w.cap ∧
    (w.nbytes = 0 → w.shift = 0)) && (List.range 8).all fun k => decide (w.shift.val ≤ k) || w.byte.getLsbD k

theorem WrCursor.sound_of_check {c : Config} {w : WrCursor} (h : w.check c = true) : w.Sound c := by
  simp only [check, Bool.and_eq_true, decide_eq_true_eq, List.all_eq_true, List.mem_range, Bool.or_eq_true] at h
  obtain ⟨⟨h1, h2, h3, h4, h5⟩, h6⟩ := h
  refine ⟨h1, h2, h3, h4, h5, fun k hk => (h6 k (by omega)).resolve_left (by omega)⟩

/-- `RdCursor.Sound` on a concrete cursor. -/
def RdCursor.check (c : Config) (r : RdCursor) : Bool :=
  decide (r.base < c.space ∧ r.len < c.space ∧ r.base + r.len ≤ c.space ∧ r.nbytes ≤ r.len ∧
    (r.nbytes = 0 → r.shift = 0))

theorem RdCursor.sound_of_check {c : Config} {r : RdCursor} (h : r.check c = true) : r.Sound c :=
  have ⟨h1, h2, h3, h4, h5⟩ := of_decide_eq_true h
  ⟨h1, h2, h3, h4, h5⟩

/-- `Regs.Fit` on concrete registers. -/
def Regs.check (c : Config) (r : Regs) : Bool :=
  ([r.param, r.data, r.count].all fun v => decide (v.toNat < 2 ^ c.width.bits)) &&
    [r.dstBase, r.dstLen, r.srcBase, r.srcLen, r.keyBase, r.keyCount, r.outBase, r.outCap].all fun v =>
      decide (v.toNat < c.space)

theorem Regs.fit_of_check {c : Config} {r : Regs} (h : r.check c = true) : r.Fit c := by
  simp only [check, List.all_cons, List.all_nil, Bool.and_true, Bool.and_eq_true, decide_eq_true_eq] at h
  obtain ⟨⟨h1, h2, h3⟩, h4, h5, h6, h7, h8, h9, h10, h11⟩ := h
  exact ⟨h1, h2, h3, h4, h5, h6, h7, h8, h9, h10, h11⟩

/-- `State.Inv` on a concrete state. -/
def State.check (s : State) : Bool :=
  decide s.cfg.Legal && decide s.mem.wf && (s.mem.all fun x => decide (x.1 < s.cfg.space)) && s.regs.check s.cfg &&
    s.wr.check s.cfg && s.rd.check s.cfg && (!s.status.busy || (!s.status.done && decide (s.status.err = none))) &&
    decide (s.loop = LoopState.none)

theorem State.inv_of_check {s : State} (h : s.check = true) : s.Inv := by
  simp only [check, Bool.and_eq_true, decide_eq_true_eq, List.all_eq_true, Bool.or_eq_true, Bool.not_eq_true'] at h
  obtain ⟨⟨⟨⟨⟨⟨⟨h1, h2⟩, h3⟩, h4⟩, h5⟩, h6⟩, h7⟩, h8⟩ := h
  exact ⟨h1, ⟨h2, h3⟩, Regs.fit_of_check h4, WrCursor.sound_of_check h5, RdCursor.sound_of_check h6,
    fun hb => h7.resolve_left (by rw [hb]; decide), h8⟩

end Sys2Proof.Machine
end

