-- ==== Sys2Proof/Laws/Memory.lean ====
section
/-! SUPPORT. Memory: a read after each operation, and that each operation keeps the canonical form. -/

namespace Sys2Proof.Machine.Memory

variable {m m' : Memory} {a x : Nat} {b : Byte}

theorem read_drop (m : Memory) (a x : Nat) : (m.drop a).read x = if x = a then unlistedByte else m.read x := by
  induction m with
  | nil => simp [drop, read]
  | cons c m ih =>
    obtain ⟨k, v⟩ := c
    by_cases hk : k = a <;> by_cases hx : x = a <;> simp_all [drop, read]
    · exact fun h => absurd h.symm hx

theorem read_cons (c : Host.Cell) (m : Memory) (x : Nat) :
    Memory.read (c :: m) x = if x = c.1 then c.2 else m.read x := by
  simp only [read, eq_comm]

theorem read_put (m : Memory) (a : Nat) (b : Byte) (x : Nat) : (m.put a b).read x = if x = a then b else m.read x := by
  induction m with
  | nil => exact read_cons _ _ _
  | cons c m ih =>
    obtain ⟨k, v⟩ := c
    simp only [put]
    split
    · exact read_cons _ _ _
    · split
      · subst a; simp only [read_cons]; split <;> rfl
      · simp only [read_cons, ih]
        by_cases hx : x = a
        · subst x; rw [if_neg (by assumption), if_pos rfl, if_pos rfl]
        · rw [if_neg hx, if_neg hx]

/-- A byte write is seen at its address and nowhere else. -/
theorem read_write (m : Memory) (a : Nat) (b : Byte) (x : Nat) :
    (m.write a b).read x = if x = a then b else m.read x := by
  unfold write
  split
  · subst b; exact read_drop m a x
  · exact read_put m a b x

@[simp] theorem read_write_self (m : Memory) (a : Nat) (b : Byte) : (m.write a b).read a = b := by simp [read_write]

theorem read_write_of_ne (m : Memory) (b : Byte) (h : x ≠ a) : (m.write a b).read x = m.read x := by
  simp [read_write, h]

theorem mem_drop {c : Host.Cell} (h : c ∈ m.drop a) : c ∈ m := by
  induction m with
  | nil => simp [drop] at h
  | cons d m ih =>
    obtain ⟨k, v⟩ := d
    simp only [drop] at h
    split at h
    · exact List.mem_cons_of_mem _ (ih h)
    · rcases List.mem_cons.1 h with rfl | h
      · exact List.mem_cons_self
      · exact List.mem_cons_of_mem _ (ih h)

theorem mem_put {c : Host.Cell} (h : c ∈ m.put a b) : c = (a, b) ∨ c ∈ m := by
  induction m with
  | nil => simpa [put] using h
  | cons d m ih =>
    obtain ⟨k, v⟩ := d
    simp only [put] at h
    split at h
    · simpa using h
    · split at h
      · rcases List.mem_cons.1 h with h | h
        · exact .inl h
        · exact .inr (List.mem_cons_of_mem _ h)
      · rcases List.mem_cons.1 h with rfl | h
        · exact .inr List.mem_cons_self
        · exact (ih h).imp_right (List.mem_cons_of_mem _)

theorem wf_tail {c : Host.Cell} (h : Memory.wf (c :: m)) : m.wf :=
  ⟨h.1.of_cons, fun d hd => h.2 d (List.mem_cons_of_mem _ hd)⟩

theorem wf_drop (h : m.wf) (a : Nat) : (m.drop a).wf := by
  induction m with
  | nil => simp [drop, wf]
  | cons c m ih =>
    obtain ⟨k, v⟩ := c
    simp only [drop]
    split
    · exact ih (wf_tail h)
    · refine ⟨List.pairwise_cons.2 ⟨fun d hd => (List.pairwise_cons.1 h.1).1 d (mem_drop hd), (ih (wf_tail h)).1⟩,
        fun d hd => ?_⟩
      rcases List.mem_cons.1 hd with rfl | hd
      · exact h.2 _ List.mem_cons_self
      · exact (ih (wf_tail h)).2 d hd

theorem wf_put (h : m.wf) (a : Nat) (hb : b ≠ unlistedByte) : (m.put a b).wf := by
  induction m with
  | nil => simp [put, wf, hb]
  | cons c m ih =>
    obtain ⟨k, v⟩ := c
    have hk := (List.pairwise_cons.1 h.1).1
    have ih := ih (wf_tail h)
    refine ⟨?_, fun d hd => ?_⟩
    · simp only [put]
      split
      · refine List.pairwise_cons.2 ⟨fun d hd => ?_, h.1⟩
        rcases List.mem_cons.1 hd with rfl | hd
        · assumption
        · exact Nat.lt_trans (by assumption) (hk d hd)
      · split
        · subst a; exact List.pairwise_cons.2 ⟨hk, (wf_tail h).1⟩
        · refine List.pairwise_cons.2 ⟨fun d hd => ?_, ih.1⟩
          rcases mem_put hd with rfl | hd
          · show k < a; omega
          · exact hk d hd
    · rcases mem_put hd with rfl | hd
      · exact hb
      · exact h.2 d hd

/-- A byte write keeps the canonical form. -/
theorem wf_write (h : m.wf) (a : Nat) (b : Byte) : (m.write a b).wf := by
  unfold write
  split
  · exact wf_drop h a
  · exact wf_put h a (by assumption)

/-- A byte write lists at most its own address besides those listed before. -/
theorem mem_write {c : Host.Cell} (h : c ∈ m.write a b) : c.1 = a ∨ c ∈ m := by
  unfold write at h
  split at h
  · exact .inr (mem_drop h)
  · exact (mem_put h).imp_left fun h => by rw [h]

theorem sound_write {c : Config} (h : m.Sound c) (ha : a < c.space) (b : Byte) : (m.write a b).Sound c :=
  ⟨wf_write h.wf a b, fun x hx => (mem_write hx).elim (fun e => e ▸ ha) (h.inSpace x)⟩

/-- A run of byte writes is seen at its addresses and nowhere else. -/
theorem read_writeList (m : Memory) (a : Nat) (bs : List Byte) (x : Nat) :
    (m.writeList a bs).read x =
      if h : a ≤ x ∧ x < a + bs.length then bs[x - a]'(by omega) else m.read x := by
  induction bs generalizing m a with
  | nil => simp only [writeList, List.length_nil]; split <;> [omega; rfl]
  | cons b bs ih =>
    simp only [writeList, ih, List.length_cons, read_write]
    by_cases hx : x = a
    · subst x; simp
    · by_cases h1 : a + 1 ≤ x ∧ x < a + 1 + bs.length
      · rw [dif_pos h1, dif_pos (by omega), List.getElem_cons, dif_neg (by omega)]
        congr 1
      · rw [dif_neg h1, dif_neg (by omega), if_neg hx]

theorem sound_writeList {c : Config} (bs : List Byte) :
    ∀ {m : Memory} {a : Nat}, m.Sound c → a + bs.length ≤ c.space → (m.writeList a bs).Sound c := by
  induction bs with
  | nil => intro m a h _; exact h
  | cons b bs ih =>
    intro m a h ha
    simp only [List.length_cons] at ha
    exact ih (sound_write h (by omega) b) (by omega)

/-- A fill is seen at the addresses of its region and nowhere else. -/
theorem read_fill (f : Nat → Byte) (base n : Nat) (m : Memory) (x : Nat) :
    (m.fill f base n).read x = if base ≤ x ∧ x < base + n then f x else m.read x := by
  induction n with
  | zero => simp only [fill]; split <;> [omega; rfl]
  | succ n ih =>
    simp only [fill, read_write, ih]
    by_cases hx : x = base + n
    · subst hx; simp
    · rw [if_neg hx]; congr 1; simp only [eq_iff_iff]; omega

theorem sound_fill {c : Config} (f : Nat → Byte) (base : Nat) {n : Nat} (hn : base + n ≤ c.space) (h : m.Sound c) :
    (m.fill f base n).Sound c := by
  induction n with
  | zero => exact h
  | succ n ih => exact sound_write (ih (by omega)) (by omega) _

@[simp] theorem length_readList (m : Memory) (a n : Nat) : (m.readList a n).length = n := by
  induction n generalizing a with
  | zero => rfl
  | succ n ih => simp [readList, ih]

theorem read_of_lt_head (h : m.wf) (hx : ∀ c ∈ m, x < c.1) : m.read x = unlistedByte := by
  induction m with
  | nil => rfl
  | cons c m ih =>
    obtain ⟨k, v⟩ := c
    have : k ≠ x := by have := hx _ List.mem_cons_self; simp at this; omega
    simp only [read, this, if_false]
    exact ih (wf_tail h) fun d hd => hx d (List.mem_cons_of_mem _ hd)

/-- Canonical memories that read alike at every address are the same list. -/
theorem ext_read (h : m.wf) (h' : m'.wf) (e : ∀ x, m.read x = m'.read x) : m = m' := by
  induction m generalizing m' with
  | nil =>
    cases m' with
    | nil => rfl
    | cons c m' => exact absurd (by simpa [read] using (e c.1).symm) (h'.2 c List.mem_cons_self)
  | cons c m ih =>
    cases m' with
    | nil => exact absurd (by simpa [read] using e c.1) (h.2 c List.mem_cons_self)
    | cons d m' =>
      obtain ⟨k, v⟩ := c
      obtain ⟨l, w⟩ := d
      have hk := (List.pairwise_cons.1 h.1).1
      have hl := (List.pairwise_cons.1 h'.1).1
      have hv := h.2 _ List.mem_cons_self
      have hw := h'.2 _ List.mem_cons_self
      have kl : k = l := by
        rcases Nat.lt_trichotomy k l with lt | rfl | lt
        · refine absurd ?_ hv
          have : Memory.read ((l, w) :: m') k = unlistedByte := read_of_lt_head h' fun c hc => by
            rcases List.mem_cons.1 hc with rfl | hc
            · exact lt
            · exact Nat.lt_trans lt (hl c hc)
          rw [← this, ← e k]; simp [read]
        · rfl
        · refine absurd ?_ hw
          have : Memory.read ((k, v) :: m) l = unlistedByte := read_of_lt_head h fun c hc => by
            rcases List.mem_cons.1 hc with rfl | hc
            · exact lt
            · exact Nat.lt_trans lt (hk c hc)
          rw [← this, e l]; simp [read]
      subst kl
      have vw : v = w := by simpa [read] using e k
      subst vw
      congr 1
      refine ih (wf_tail h) (wf_tail h') fun x => ?_
      by_cases hx : x = k
      · subst hx; rw [read_of_lt_head (wf_tail h) hk, read_of_lt_head (wf_tail h') hl]
      · have := e x; simpa [read, Ne.symm hx] using this

end Sys2Proof.Machine.Memory
end

