-- ==== Sys2Proof/Laws/PerInstr.lean ====
section
/-! SUPPORT. What holds of every command as syntax, one lemma a constructor: the fields of its word. -/

namespace Sys2Proof

/-- `c[lo+len-1 : lo]` of a word put together from OPC, F and N. -/
theorem fields_of_word {opc f n : Nat} (ho : opc < 2 ^ 8) (hf : f < 2) (hn : n < 2 ^ 7) :
    reservedClear (BitVec.ofNat 64 (opc + f * 2 ^ 8 + n * 2 ^ 16)) = true ∧
      cmdOpc (BitVec.ofNat 64 (opc + f * 2 ^ 8 + n * 2 ^ 16)) = opc ∧
      cmdF (BitVec.ofNat 64 (opc + f * 2 ^ 8 + n * 2 ^ 16)) = f ∧
      cmdN (BitVec.ofNat 64 (opc + f * 2 ^ 8 + n * 2 ^ 16)) = n := by
  simp only [reservedClear, cmdOpc, cmdF, cmdN, field, BitVec.toNat_ofNat, Bool.and_eq_true, decide_eq_true_eq]
  omega

theorem count_lt_of_wf {w : KeyWidth} {n : Nat} (h : n ≤ w.bits) : n < 2 ^ 7 := by
  cases w <;> simp only [KeyWidth.bits] at h <;> omega

end Sys2Proof

namespace Sys2Proof.Laws.CommandWord

/-- The word of a legal command (30_encoding.md R91, R94, R96, R99): reserved bits clear, OPC one of the table's, F
and N the command's own. -/
def Statement (i : Instr) : Prop :=
  ∀ w : KeyWidth, i.wf w = true →
    reservedClear (encode i) = true ∧ cmdOpc (encode i) = opcodeOf i ∧ opcodeOf i ∈ opcodes ∧
      cmdF (encode i) = (flagOf i).toNat ∧ cmdN (encode i) = countOf i

theorem nop : Statement .nop := by intro w _; decide

theorem wrInit : Statement .wrInit := by intro w _; decide

theorem wrBit (b : Bool) : Statement (.wrBit b) := by intro w _; cases b <;> decide

theorem wrBits (n : Nat) : Statement (.wrBits n) := by
  intro w h
  have := fields_of_word (opc := 0x03) (f := 0) (by decide) (by decide) (count_lt_of_wf (of_decide_eq_true h))
  exact ⟨this.1, this.2.1, by simp [opcodeOf, opcodes], this.2.2.1, this.2.2.2⟩

theorem rdInit : Statement .rdInit := by intro w _; decide

theorem rdBit : Statement .rdBit := by intro w _; decide

theorem rdBits (n : Nat) : Statement (.rdBits n) := by
  intro w h
  have := fields_of_word (opc := 0x06) (f := 0) (by decide) (by decide) (count_lt_of_wf (of_decide_eq_true h))
  exact ⟨this.1, this.2.1, by simp [opcodeOf, opcodes], this.2.2.1, this.2.2.2⟩

theorem encVal : Statement .encVal := by intro w _; decide

theorem decVal : Statement .decVal := by intro w _; decide

theorem estimate : Statement .estimate := by intro w _; decide

theorem encode (auto : Bool) : Statement (.encode auto) := by intro w _; cases auto <;> decide

theorem decode : Statement .decode := by intro w _; decide

end Sys2Proof.Laws.CommandWord
end

