-- ==== Sys2Proof/Laws/State.lean ====
section
/-! SUPPORT. Each field of State after each named update, one lemma a field and an update, true by unfolding. -/

namespace Sys2Proof.Machine

@[simp] theorem finish_cfg (code : Option Err) (s : State) : (finish code s).cfg = s.cfg := rfl
@[simp] theorem finish_ie (code : Option Err) (s : State) : (finish code s).ie = s.ie := rfl
@[simp] theorem finish_status (code : Option Err) (s : State) : (finish code s).status = { s.status with err := code, busy := false, done := true } := rfl
@[simp] theorem finish_regs (code : Option Err) (s : State) : (finish code s).regs = s.regs := rfl
@[simp] theorem finish_wr (code : Option Err) (s : State) : (finish code s).wr = s.wr := rfl
@[simp] theorem finish_rd (code : Option Err) (s : State) : (finish code s).rd = s.rd := rfl
@[simp] theorem finish_curCmd (code : Option Err) (s : State) : (finish code s).curCmd = s.curCmd := rfl
@[simp] theorem finish_loop (code : Option Err) (s : State) : (finish code s).loop = s.loop := rfl
@[simp] theorem finish_mem (code : Option Err) (s : State) : (finish code s).mem = s.mem := rfl
@[simp] theorem finish_pending (code : Option Err) (s : State) : (finish code s).pending = s.pending := rfl
@[simp] theorem finish_seenReg (code : Option Err) (s : State) : (finish code s).seenReg = s.seenReg := rfl
@[simp] theorem finish_seenMem (code : Option Err) (s : State) : (finish code s).seenMem = s.seenMem := rfl
@[simp] theorem finish_draws (code : Option Err) (s : State) : (finish code s).draws = s.draws := rfl

@[simp] theorem accept_cfg (c : Word) (s : State) : (accept c s).cfg = s.cfg := rfl
@[simp] theorem accept_ie (c : Word) (s : State) : (accept c s).ie = s.ie := rfl
@[simp] theorem accept_status (c : Word) (s : State) : (accept c s).status = { s.status with done := false, err := none, busy := true } := rfl
@[simp] theorem accept_regs (c : Word) (s : State) : (accept c s).regs = s.regs := rfl
@[simp] theorem accept_wr (c : Word) (s : State) : (accept c s).wr = s.wr := rfl
@[simp] theorem accept_rd (c : Word) (s : State) : (accept c s).rd = s.rd := rfl
@[simp] theorem accept_curCmd (c : Word) (s : State) : (accept c s).curCmd = c := rfl
@[simp] theorem accept_loop (c : Word) (s : State) : (accept c s).loop = s.loop := rfl
@[simp] theorem accept_mem (c : Word) (s : State) : (accept c s).mem = s.mem := rfl
@[simp] theorem accept_pending (c : Word) (s : State) : (accept c s).pending = s.pending := rfl
@[simp] theorem accept_seenReg (c : Word) (s : State) : (accept c s).seenReg = s.seenReg := rfl
@[simp] theorem accept_seenMem (c : Word) (s : State) : (accept c s).seenMem = s.seenMem := rfl
@[simp] theorem accept_draws (c : Word) (s : State) : (accept c s).draws = s.draws := rfl

@[simp] theorem clearEngine_cfg (s : State) : (clearEngine s).cfg = s.cfg := rfl
@[simp] theorem clearEngine_ie (s : State) : (clearEngine s).ie = false := rfl
@[simp] theorem clearEngine_status (s : State) : (clearEngine s).status = Status.cleared := rfl
@[simp] theorem clearEngine_regs (s : State) : (clearEngine s).regs = Regs.cleared := rfl
@[simp] theorem clearEngine_wr (s : State) : (clearEngine s).wr = WrCursor.fresh 0 0 := rfl
@[simp] theorem clearEngine_rd (s : State) : (clearEngine s).rd = RdCursor.fresh 0 0 := rfl
@[simp] theorem clearEngine_curCmd (s : State) : (clearEngine s).curCmd = 0 := rfl
@[simp] theorem clearEngine_loop (s : State) : (clearEngine s).loop = LoopState.none := rfl
@[simp] theorem clearEngine_mem (s : State) : (clearEngine s).mem = s.mem := rfl
@[simp] theorem clearEngine_pending (s : State) : (clearEngine s).pending = s.pending := rfl
@[simp] theorem clearEngine_seenReg (s : State) : (clearEngine s).seenReg = s.seenReg := rfl
@[simp] theorem clearEngine_seenMem (s : State) : (clearEngine s).seenMem = s.seenMem := rfl
@[simp] theorem clearEngine_draws (s : State) : (clearEngine s).draws = s.draws := rfl

@[simp] theorem State.withWriter_cfg (w : Writer) (s : State) : (s.withWriter w).cfg = s.cfg := rfl
@[simp] theorem State.withWriter_ie (w : Writer) (s : State) : (s.withWriter w).ie = s.ie := rfl
@[simp] theorem State.withWriter_status (w : Writer) (s : State) : (s.withWriter w).status = s.status := rfl
@[simp] theorem State.withWriter_regs (w : Writer) (s : State) : (s.withWriter w).regs = s.regs := rfl
@[simp] theorem State.withWriter_wr (w : Writer) (s : State) : (s.withWriter w).wr = w.cur := rfl
@[simp] theorem State.withWriter_rd (w : Writer) (s : State) : (s.withWriter w).rd = s.rd := rfl
@[simp] theorem State.withWriter_curCmd (w : Writer) (s : State) : (s.withWriter w).curCmd = s.curCmd := rfl
@[simp] theorem State.withWriter_loop (w : Writer) (s : State) : (s.withWriter w).loop = s.loop := rfl
@[simp] theorem State.withWriter_mem (w : Writer) (s : State) : (s.withWriter w).mem = w.mem := rfl
@[simp] theorem State.withWriter_pending (w : Writer) (s : State) : (s.withWriter w).pending = s.pending := rfl
@[simp] theorem State.withWriter_seenReg (w : Writer) (s : State) : (s.withWriter w).seenReg = s.seenReg := rfl
@[simp] theorem State.withWriter_seenMem (w : Writer) (s : State) : (s.withWriter w).seenMem = s.seenMem := rfl
@[simp] theorem State.withWriter_draws (w : Writer) (s : State) : (s.withWriter w).draws = s.draws := rfl

@[simp] theorem State.withMem_cfg (m : Memory) (s : State) : (s.withMem m).cfg = s.cfg := rfl
@[simp] theorem State.withMem_ie (m : Memory) (s : State) : (s.withMem m).ie = s.ie := rfl
@[simp] theorem State.withMem_status (m : Memory) (s : State) : (s.withMem m).status = s.status := rfl
@[simp] theorem State.withMem_regs (m : Memory) (s : State) : (s.withMem m).regs = s.regs := rfl
@[simp] theorem State.withMem_wr (m : Memory) (s : State) : (s.withMem m).wr = s.wr := rfl
@[simp] theorem State.withMem_rd (m : Memory) (s : State) : (s.withMem m).rd = s.rd := rfl
@[simp] theorem State.withMem_curCmd (m : Memory) (s : State) : (s.withMem m).curCmd = s.curCmd := rfl
@[simp] theorem State.withMem_loop (m : Memory) (s : State) : (s.withMem m).loop = s.loop := rfl
@[simp] theorem State.withMem_mem (m : Memory) (s : State) : (s.withMem m).mem = m := rfl
@[simp] theorem State.withMem_pending (m : Memory) (s : State) : (s.withMem m).pending = s.pending := rfl
@[simp] theorem State.withMem_seenReg (m : Memory) (s : State) : (s.withMem m).seenReg = s.seenReg := rfl
@[simp] theorem State.withMem_seenMem (m : Memory) (s : State) : (s.withMem m).seenMem = s.seenMem := rfl
@[simp] theorem State.withMem_draws (m : Memory) (s : State) : (s.withMem m).draws = s.draws := rfl

@[simp] theorem State.withReader_cfg (r : RdCursor) (s : State) : (s.withReader r).cfg = s.cfg := rfl
@[simp] theorem State.withReader_ie (r : RdCursor) (s : State) : (s.withReader r).ie = s.ie := rfl
@[simp] theorem State.withReader_status (r : RdCursor) (s : State) : (s.withReader r).status = s.status := rfl
@[simp] theorem State.withReader_regs (r : RdCursor) (s : State) : (s.withReader r).regs = s.regs := rfl
@[simp] theorem State.withReader_wr (r : RdCursor) (s : State) : (s.withReader r).wr = s.wr := rfl
@[simp] theorem State.withReader_rd (r : RdCursor) (s : State) : (s.withReader r).rd = r := rfl
@[simp] theorem State.withReader_curCmd (r : RdCursor) (s : State) : (s.withReader r).curCmd = s.curCmd := rfl
@[simp] theorem State.withReader_loop (r : RdCursor) (s : State) : (s.withReader r).loop = s.loop := rfl
@[simp] theorem State.withReader_mem (r : RdCursor) (s : State) : (s.withReader r).mem = s.mem := rfl
@[simp] theorem State.withReader_pending (r : RdCursor) (s : State) : (s.withReader r).pending = s.pending := rfl
@[simp] theorem State.withReader_seenReg (r : RdCursor) (s : State) : (s.withReader r).seenReg = s.seenReg := rfl
@[simp] theorem State.withReader_seenMem (r : RdCursor) (s : State) : (s.withReader r).seenMem = s.seenMem := rfl
@[simp] theorem State.withReader_draws (r : RdCursor) (s : State) : (s.withReader r).draws = s.draws := rfl

@[simp] theorem State.withResult_cfg (v : Nat) (s : State) : (s.withResult v).cfg = s.cfg := rfl
@[simp] theorem State.withResult_ie (v : Nat) (s : State) : (s.withResult v).ie = s.ie := rfl
@[simp] theorem State.withResult_status (v : Nat) (s : State) : (s.withResult v).status = s.status := rfl
@[simp] theorem State.withResult_regs (v : Nat) (s : State) : (s.withResult v).regs = { s.regs with result := BitVec.ofNat 64 v } := rfl
@[simp] theorem State.withResult_wr (v : Nat) (s : State) : (s.withResult v).wr = s.wr := rfl
@[simp] theorem State.withResult_rd (v : Nat) (s : State) : (s.withResult v).rd = s.rd := rfl
@[simp] theorem State.withResult_curCmd (v : Nat) (s : State) : (s.withResult v).curCmd = s.curCmd := rfl
@[simp] theorem State.withResult_loop (v : Nat) (s : State) : (s.withResult v).loop = s.loop := rfl
@[simp] theorem State.withResult_mem (v : Nat) (s : State) : (s.withResult v).mem = s.mem := rfl
@[simp] theorem State.withResult_pending (v : Nat) (s : State) : (s.withResult v).pending = s.pending := rfl
@[simp] theorem State.withResult_seenReg (v : Nat) (s : State) : (s.withResult v).seenReg = s.seenReg := rfl
@[simp] theorem State.withResult_seenMem (v : Nat) (s : State) : (s.withResult v).seenMem = s.seenMem := rfl
@[simp] theorem State.withResult_draws (v : Nat) (s : State) : (s.withResult v).draws = s.draws := rfl

@[simp] theorem State.withParam_cfg (v : Nat) (s : State) : (s.withParam v).cfg = s.cfg := rfl
@[simp] theorem State.withParam_ie (v : Nat) (s : State) : (s.withParam v).ie = s.ie := rfl
@[simp] theorem State.withParam_status (v : Nat) (s : State) : (s.withParam v).status = s.status := rfl
@[simp] theorem State.withParam_regs (v : Nat) (s : State) : (s.withParam v).regs = { s.regs with param := BitVec.ofNat 64 v } := rfl
@[simp] theorem State.withParam_wr (v : Nat) (s : State) : (s.withParam v).wr = s.wr := rfl
@[simp] theorem State.withParam_rd (v : Nat) (s : State) : (s.withParam v).rd = s.rd := rfl
@[simp] theorem State.withParam_curCmd (v : Nat) (s : State) : (s.withParam v).curCmd = s.curCmd := rfl
@[simp] theorem State.withParam_loop (v : Nat) (s : State) : (s.withParam v).loop = s.loop := rfl
@[simp] theorem State.withParam_mem (v : Nat) (s : State) : (s.withParam v).mem = s.mem := rfl
@[simp] theorem State.withParam_pending (v : Nat) (s : State) : (s.withParam v).pending = s.pending := rfl
@[simp] theorem State.withParam_seenReg (v : Nat) (s : State) : (s.withParam v).seenReg = s.seenReg := rfl
@[simp] theorem State.withParam_seenMem (v : Nat) (s : State) : (s.withParam v).seenMem = s.seenMem := rfl
@[simp] theorem State.withParam_draws (v : Nat) (s : State) : (s.withParam v).draws = s.draws := rfl

@[simp] theorem State.discardLoop_cfg (s : State) : (s.discardLoop).cfg = s.cfg := rfl
@[simp] theorem State.discardLoop_ie (s : State) : (s.discardLoop).ie = s.ie := rfl
@[simp] theorem State.discardLoop_status (s : State) : (s.discardLoop).status = s.status := rfl
@[simp] theorem State.discardLoop_regs (s : State) : (s.discardLoop).regs = s.regs := rfl
@[simp] theorem State.discardLoop_wr (s : State) : (s.discardLoop).wr = s.wr := rfl
@[simp] theorem State.discardLoop_rd (s : State) : (s.discardLoop).rd = s.rd := rfl
@[simp] theorem State.discardLoop_curCmd (s : State) : (s.discardLoop).curCmd = s.curCmd := rfl
@[simp] theorem State.discardLoop_loop (s : State) : (s.discardLoop).loop = LoopState.none := rfl
@[simp] theorem State.discardLoop_mem (s : State) : (s.discardLoop).mem = s.mem := rfl
@[simp] theorem State.discardLoop_pending (s : State) : (s.discardLoop).pending = s.pending := rfl
@[simp] theorem State.discardLoop_seenReg (s : State) : (s.discardLoop).seenReg = s.seenReg := rfl
@[simp] theorem State.discardLoop_seenMem (s : State) : (s.discardLoop).seenMem = s.seenMem := rfl
@[simp] theorem State.discardLoop_draws (s : State) : (s.discardLoop).draws = s.draws := rfl

@[simp] theorem State.drawRegion_cfg (r : Region) (s : State) : (s.drawRegion r).cfg = s.cfg := rfl
@[simp] theorem State.drawRegion_ie (r : Region) (s : State) : (s.drawRegion r).ie = s.ie := rfl
@[simp] theorem State.drawRegion_status (r : Region) (s : State) : (s.drawRegion r).status = s.status := rfl
@[simp] theorem State.drawRegion_regs (r : Region) (s : State) : (s.drawRegion r).regs = s.regs := rfl
@[simp] theorem State.drawRegion_wr (r : Region) (s : State) : (s.drawRegion r).wr = s.wr := rfl
@[simp] theorem State.drawRegion_rd (r : Region) (s : State) : (s.drawRegion r).rd = s.rd := rfl
@[simp] theorem State.drawRegion_curCmd (r : Region) (s : State) : (s.drawRegion r).curCmd = s.curCmd := rfl
@[simp] theorem State.drawRegion_loop (r : Region) (s : State) : (s.drawRegion r).loop = s.loop := rfl
@[simp] theorem State.drawRegion_mem (r : Region) (s : State) : (s.drawRegion r).mem = drawMem s.cfg s.draws r s.mem := rfl
@[simp] theorem State.drawRegion_pending (r : Region) (s : State) : (s.drawRegion r).pending = s.pending := rfl
@[simp] theorem State.drawRegion_seenReg (r : Region) (s : State) : (s.drawRegion r).seenReg = s.seenReg := rfl
@[simp] theorem State.drawRegion_seenMem (r : Region) (s : State) : (s.drawRegion r).seenMem = s.seenMem := rfl
@[simp] theorem State.drawRegion_draws (r : Region) (s : State) : (s.drawRegion r).draws = s.draws + 1 := rfl

@[simp] theorem overrun_cfg (s : State) : (overrun s).cfg = s.cfg := rfl
@[simp] theorem overrun_ie (s : State) : (overrun s).ie = s.ie := rfl
@[simp] theorem overrun_status (s : State) : (overrun s).status = { s.status with ovr := true } := rfl
@[simp] theorem overrun_regs (s : State) : (overrun s).regs = s.regs := rfl
@[simp] theorem overrun_wr (s : State) : (overrun s).wr = s.wr := rfl
@[simp] theorem overrun_rd (s : State) : (overrun s).rd = s.rd := rfl
@[simp] theorem overrun_curCmd (s : State) : (overrun s).curCmd = s.curCmd := rfl
@[simp] theorem overrun_loop (s : State) : (overrun s).loop = s.loop := rfl
@[simp] theorem overrun_mem (s : State) : (overrun s).mem = s.mem := rfl
@[simp] theorem overrun_pending (s : State) : (overrun s).pending = s.pending := rfl
@[simp] theorem overrun_seenReg (s : State) : (overrun s).seenReg = s.seenReg := rfl
@[simp] theorem overrun_seenMem (s : State) : (overrun s).seenMem = s.seenMem := rfl
@[simp] theorem overrun_draws (s : State) : (overrun s).draws = s.draws := rfl

@[simp] theorem State.taken_cfg (s : State) : (s.taken).cfg = s.cfg := rfl
@[simp] theorem State.taken_ie (s : State) : (s.taken).ie = s.ie := rfl
@[simp] theorem State.taken_status (s : State) : (s.taken).status = s.status := rfl
@[simp] theorem State.taken_regs (s : State) : (s.taken).regs = s.regs := rfl
@[simp] theorem State.taken_wr (s : State) : (s.taken).wr = s.wr := rfl
@[simp] theorem State.taken_rd (s : State) : (s.taken).rd = s.rd := rfl
@[simp] theorem State.taken_curCmd (s : State) : (s.taken).curCmd = s.curCmd := rfl
@[simp] theorem State.taken_loop (s : State) : (s.taken).loop = s.loop := rfl
@[simp] theorem State.taken_mem (s : State) : (s.taken).mem = s.mem := rfl
@[simp] theorem State.taken_pending (s : State) : (s.taken).pending = s.pending.tail := rfl
@[simp] theorem State.taken_seenReg (s : State) : (s.taken).seenReg = s.seenReg := rfl
@[simp] theorem State.taken_seenMem (s : State) : (s.taken).seenMem = s.seenMem := rfl
@[simp] theorem State.taken_draws (s : State) : (s.taken).draws = s.draws := rfl

@[simp] theorem State.writer_cur (s : State) : s.writer.cur = s.wr := rfl
@[simp] theorem State.writer_mem (s : State) : s.writer.mem = s.mem := rfl
@[simp] theorem State.withWriter_writer (s : State) : s.withWriter s.writer = s := rfl
@[simp] theorem State.writer_withWriter (s : State) (w : Writer) : (s.withWriter w).writer = w := rfl

end Sys2Proof.Machine
end

