-- ==== Sys2Proof/Laws/Reader.lean ====
section
/-! SUPPORT. The bit reader: everything one ReadBit can do, what a run of them keeps, takes, and where it stops, and that
the bound on the unary scan is never met. -/

namespace Sys2Proof.Machine

variable {c : Config} {m : Memory} {r r' : RdCursor} {b : Bool}

/-- Everything a successful ReadBit does (40_bitio.md R131): it opens a byte, or takes the next bit of the current
one. -/
theorem readBit_ok (h : readBit c m r = .ok b r') :
    (r.shift = 0 ∧ r.nbytes < r.len ∧ c.accessible (r.base + r.nbytes) = true ∧
      b = (m.read (r.base + r.nbytes)).getLsbD 7 ∧
      r' = { r with nbytes := r.nbytes + 1, shift := 7, byte := m.read (r.base + r.nbytes) }) ∨
    (r.shift ≠ 0 ∧ b = r.byte.getLsbD (r.shift - 1).val ∧ r' = { r with shift := r.shift - 1 }) := by
  unfold readBit at h
  split at h
  · split at h
    · cases h
    · split at h
      · cases h; exact .inl ⟨‹_›, by omega, ‹_›, rfl, rfl⟩
      · cases h
  · cases h; exact .inr ⟨‹_›, rfl, rfl⟩

/-- A ReadBit that raises changes nothing (40_bitio.md R131). -/
theorem readBit_raise {e : Err} (h : readBit c m r = .raise e r') :
    r' = r ∧ r.shift = 0 ∧
      ((e = .endOfStream ∧ r.len ≤ r.nbytes) ∨
        (e = .busError ∧ r.nbytes < r.len ∧ c.accessible (r.base + r.nbytes) = false)) := by
  unfold readBit at h
  split at h
  · split at h
    · cases h; exact ⟨rfl, ‹_›, .inl ⟨rfl, ‹_›⟩⟩
    · split at h
      · cases h
      · rename_i ha
        cases h; exact ⟨rfl, ‹_›, .inr ⟨rfl, by omega, Bool.eq_false_of_not_eq_true ha⟩⟩
  · cases h

theorem shift_sub_one {s : Fin 8} (h : s ≠ 0) : (s - 1).val = s.val - 1 ∧ 0 < s.val := by
  revert s; decide

/-- A ReadBit that returns a bit takes one of the bits left. -/
theorem readBit_avail (h : readBit c m r = .ok b r') : avail r = avail r' + 1 := by
  rcases readBit_ok h with ⟨hz, hlt, -, -, rfl⟩ | ⟨hz, -, rfl⟩
  · simp only [avail, hz]
    show 8 * (r.len - r.nbytes) + 0 = 8 * (r.len - (r.nbytes + 1)) + 7 + 1
    omega
  · have := shift_sub_one hz
    simp only [avail]; omega

/-- The reader keeps its region. -/
structure RdCursor.Within (r r' : RdCursor) : Prop where
  base : r'.base = r.base
  len : r'.len = r.len

theorem RdCursor.Within.refl (r : RdCursor) : r.Within r := ⟨rfl, rfl⟩

theorem RdCursor.Within.trans {r1 r2 r3 : RdCursor} (h : r1.Within r2) (h' : r2.Within r3) : r1.Within r3 :=
  ⟨h'.base.trans h.base, h'.len.trans h.len⟩

theorem RdCursor.Sound.fresh {base len : Nat} (hb : base < c.space) (hc : len < c.space) (h : base + len ≤ c.space) :
    (RdCursor.fresh base len).Sound c :=
  ⟨hb, hc, h, Nat.zero_le _, fun _ => rfl⟩

theorem readBit_sound (hs : r.Sound c) (h : readBit c m r = .ok b r') : r'.Sound c ∧ r.Within r' := by
  rcases readBit_ok h with ⟨hz, hlt, -, -, rfl⟩ | ⟨hz, -, rfl⟩
  · exact ⟨⟨hs.base_lt, hs.len_lt, hs.region, hlt, fun h => absurd h (Nat.succ_ne_zero _)⟩, rfl, rfl⟩
  · exact ⟨⟨hs.base_lt, hs.len_lt, hs.region, hs.opened, fun h => absurd (hs.start h) hz⟩, rfl, rfl⟩

/-- A sub-procedure of the reader keeps its invariant and its region, raise or not. -/
def KeepsReader {α : Type} (c : Config) (r : RdCursor) (x : Res RdCursor α) : Prop :=
  x.state.Sound c ∧ r.Within x.state

theorem keepsReader_readBit (hs : r.Sound c) : KeepsReader c r (readBit c m r) := by
  cases h : readBit c m r with
  | ok b r' => exact readBit_sound hs h
  | raise e r' => obtain ⟨rfl, -⟩ := readBit_raise h; exact ⟨hs, .refl _⟩

theorem keepsReader_readBitsFrom (n : Nat) :
    ∀ {v : Nat} {r : RdCursor}, r.Sound c → KeepsReader c r (readBitsFrom c m n v r) := by
  induction n with
  | zero => intro v r hs; exact ⟨hs, .refl _⟩
  | succ n ih =>
    intro v r hs
    simp only [readBitsFrom]
    have hb := keepsReader_readBit (m := m) hs
    cases h : readBit c m r with
    | raise e r' => rw [h] at hb; exact hb
    | ok b r' => rw [h] at hb; exact ⟨(ih hb.1).1, hb.2.trans (ih hb.1).2⟩

theorem keepsReader_scanOnes (fuel : Nat) :
    ∀ {q : Nat} {r : RdCursor}, r.Sound c → KeepsReader c r (scanOnes c m fuel q r) := by
  induction fuel with
  | zero => intro q r hs; exact ⟨hs, .refl _⟩
  | succ n ih =>
    intro q r hs
    simp only [scanOnes]
    have hb := keepsReader_readBit (m := m) hs
    cases h : readBit c m r with
    | raise e r' => rw [h] at hb; exact hb
    | ok b r' =>
      rw [h] at hb
      cases b
      · exact hb
      · exact ⟨(ih hb.1).1, hb.2.trans (ih hb.1).2⟩

theorem keepsReader_decodeValue (p : Nat) (hs : r.Sound c) : KeepsReader c r (decodeValue c m p r) := by
  unfold decodeValue
  have h1 := keepsReader_scanOnes (m := m) (avail r + 1) (q := 0) hs
  cases h : scanOnes c m (avail r + 1) 0 r with
  | raise e r1 => rw [h] at h1; exact h1
  | ok q r1 =>
    rw [h] at h1
    have h2 := keepsReader_readBitsFrom (m := m) p (v := 0) (r := r1) h1.1
    simp only [readBits]
    cases h' : readBitsFrom c m p 0 r1 with
    | raise e r2 => rw [h'] at h2; exact ⟨h2.1, h1.2.trans h2.2⟩
    | ok v r2 => rw [h'] at h2; exact ⟨h2.1, h1.2.trans h2.2⟩

theorem readBitsFrom_avail (n : Nat) : ∀ {v w : Nat} {r r' : RdCursor}, readBitsFrom c m n v r = .ok w r' →
    avail r = avail r' + n := by
  induction n with
  | zero => intro v w r r' h; cases h; rfl
  | succ n ih =>
    intro v w r r' h
    simp only [readBitsFrom] at h
    cases hb : readBit c m r with
    | raise e r1 => rw [hb] at h; cases h
    | ok b r1 =>
      rw [hb] at h
      have := ih h
      have := readBit_avail hb
      omega

theorem scanOnes_avail (fuel : Nat) : ∀ {q q' : Nat} {r r' : RdCursor}, scanOnes c m fuel q r = .ok q' r' →
    avail r' < avail r := by
  induction fuel with
  | zero => intro q q' r r' h; cases h
  | succ n ih =>
    intro q q' r r' h
    simp only [scanOnes] at h
    cases hb : readBit c m r with
    | raise e r1 => rw [hb] at h; cases h
    | ok b r1 =>
      rw [hb] at h
      have := readBit_avail hb
      cases b
      · cases h; omega
      · have := ih h; omega

/-- A decoded codeword takes at least one of the bits left (43_set_codec.md R206). -/
theorem decodeValue_avail {p v : Nat} (h : decodeValue c m p r = .ok v r') : avail r' < avail r := by
  unfold decodeValue at h
  cases h1 : scanOnes c m (avail r + 1) 0 r with
  | raise e r1 => rw [h1] at h; cases h
  | ok q r1 =>
    rw [h1] at h
    have := scanOnes_avail _ h1
    simp only [readBits] at h
    cases h2 : readBitsFrom c m p 0 r1 with
    | raise e r2 => rw [h2] at h; cases h
    | ok w r2 => rw [h2] at h; cases h; have := readBitsFrom_avail _ h2; omega

/-- The bound of the unary scan is never met: any two bounds above the bits left give the same scan
(notes/assumptions/8.md). -/
theorem scanOnes_bound (fuel : Nat) : ∀ {fuel' q : Nat} {r : RdCursor}, avail r < fuel → avail r < fuel' →
    scanOnes c m fuel q r = scanOnes c m fuel' q r := by
  induction fuel with
  | zero => intro fuel' q r h; omega
  | succ n ih =>
    intro fuel' q r h h'
    obtain ⟨k, rfl⟩ : ∃ k, fuel' = k + 1 := ⟨fuel' - 1, by omega⟩
    simp only [scanOnes]
    cases hb : readBit c m r with
    | raise e r1 => rfl
    | ok b r1 =>
      have := readBit_avail hb
      cases b
      · rfl
      · exact ih (by omega) (by omega)

@[simp] theorem length_byteBits (b : Byte) (k : Nat) : (byteBits b k).length = k := by
  induction k with
  | zero => rfl
  | succ k ih => simp [byteBits, ih]

@[simp] theorem length_memBits (m : Memory) (a n : Nat) : (memBits m a n).length = 8 * n := by
  induction n generalizing a with
  | zero => rfl
  | succ n ih => simp [memBits, ih]; omega

/-- The unread bits number `Avail` (40_bitio.md R133). -/
theorem length_unread (m : Memory) (r : RdCursor) : (unread m r).length = avail r := by
  simp [unread, avail]; omega

/-- A ReadBit that returns a bit takes the first of the unread bits. -/
theorem unread_of_readBit_ok (h : readBit c m r = .ok b r') : unread m r = b :: unread m r' := by
  rcases readBit_ok h with ⟨hz, hlt, -, rfl, rfl⟩ | ⟨hz, rfl, rfl⟩
  · obtain ⟨k, hk⟩ : ∃ k, r.len - r.nbytes = k + 1 := ⟨r.len - r.nbytes - 1, by omega⟩
    have hk' : r.len - (r.nbytes + 1) = k := by omega
    simp only [unread, hz, hk, hk', memBits, Nat.add_assoc]
    rfl
  · obtain ⟨h1, h2⟩ := shift_sub_one hz
    obtain ⟨k, hk⟩ : ∃ k, r.shift.val = k + 1 := ⟨r.shift.val - 1, by omega⟩
    simp only [unread, h1, hk, Nat.add_sub_cancel, byteBits, List.cons_append]

/-- The bits read and the bits left of the current byte fill the opened bytes (10_state.md R41). -/
theorem rdPos_add_shift (hs : r.Sound c) : r.pos + r.shift.val = 8 * r.nbytes := by
  have := r.shift.isLt
  unfold RdCursor.pos
  by_cases h : r.nbytes = 0
  · rw [hs.start h, h]; rfl
  · omega

theorem memBits_add (m : Memory) (a n k : Nat) : memBits m a (n + k) = memBits m a n ++ memBits m (a + n) k := by
  induction n generalizing a with
  | zero => simp [memBits]
  | succ n ih =>
    rw [Nat.succ_add_eq_add_succ, Nat.add_succ, memBits, ih, memBits, List.append_assoc, Nat.add_right_comm a 1 n,
      Nat.add_assoc a n 1]

/-- The unread bits before byte `j` are the first of the unread bits. -/
theorem unread_upto {j : Nat} (hs : r.Sound c) (h1 : r.nbytes ≤ j) (h2 : j ≤ r.len) :
    unread m (r.upto j) = (unread m r).take (8 * j - r.pos) := by
  have hp := rdPos_add_shift hs
  have : r.len - r.nbytes = (j - r.nbytes) + (r.len - j) := by omega
  unfold unread RdCursor.upto
  simp only
  rw [this, memBits_add, ← List.append_assoc, List.take_left']
  simp; omega

/-- The bits `l` have been read: they were the first unread ones, and the current byte is the one opened last. -/
structure RdCursor.Reads (m : Memory) (l : List Bool) (r r' : RdCursor) : Prop where
  within : r.Within r'
  pos : r'.pos = r.pos + l.length
  bits : unread m r = l ++ unread m r'
  byte : r'.byte = if r'.nbytes = r.nbytes then r.byte else m.read (r.base + r'.nbytes - 1)
  grows : r.nbytes ≤ r'.nbytes

theorem RdCursor.Reads.refl (r : RdCursor) : RdCursor.Reads m [] r r := ⟨.refl _, rfl, rfl, by simp, le_rfl⟩

theorem RdCursor.Reads.trans {l l' : List Bool} {r1 r2 r3 : RdCursor} (h : RdCursor.Reads m l r1 r2)
    (h' : RdCursor.Reads m l' r2 r3) : RdCursor.Reads m (l ++ l') r1 r3 := by
  have g := h.grows
  have g' := h'.grows
  refine ⟨h.within.trans h'.within, ?_, ?_, ?_, g.trans g'⟩
  · rw [h'.pos, h.pos, List.length_append, Nat.add_assoc]
  · rw [h.bits, h'.bits, List.append_assoc]
  · rw [h'.byte, h.within.base]
    by_cases e : r3.nbytes = r2.nbytes
    · rw [if_pos e, h.byte, e]
    · rw [if_neg e, if_neg (by omega)]

/-- A cursor that shows the bits read is the moved cursor (40_bitio.md R133 (b)). -/
theorem RdCursor.Reads.eq_moved {l : List Bool} (h : RdCursor.Reads m l r r') (hs : r'.Sound c) :
    r' = r.moved m l.length := by
  have hp := rdPos_add_shift hs
  have hlt := r'.shift.isLt
  have hpos := h.pos
  have hn : r'.nbytes = bytesFor (r.pos + l.length) := by unfold bytesFor; omega
  have hsh : r'.shift.val = 8 * bytesFor (r.pos + l.length) - (r.pos + l.length) := by omega
  have hb := h.byte
  rw [hn] at hb
  obtain ⟨b, le, n, sh, by'⟩ := r'
  obtain ⟨rfl, rfl⟩ := h.within
  subst hn hb
  simp only [RdCursor.moved, RdCursor.mk.injEq, true_and, and_true]
  exact Fin.ext hsh

theorem readBit_reads (hs : r.Sound c) (h : readBit c m r = .ok b r') : RdCursor.Reads m [b] r r' := by
  obtain ⟨hs', hw⟩ := readBit_sound hs h
  have hu := unread_of_readBit_ok h
  have hp := rdPos_add_shift hs
  have hp' := rdPos_add_shift hs'
  rcases readBit_ok h with ⟨hz, hlt, -, rfl, rfl⟩ | ⟨hz, rfl, rfl⟩
  · rw [hz] at hp
    refine ⟨hw, ?_, hu, by simp, by simp⟩
    simp at hp hp' ⊢; omega
  · obtain ⟨h1, h2⟩ := shift_sub_one hz
    refine ⟨hw, ?_, hu, by simp, le_rfl⟩
    simp only [List.length_singleton] at hp' ⊢; omega

/-- The reader can read up to byte `j`: the bytes before it answer. -/
structure RdCursor.Ready (c : Config) (j : Nat) (r : RdCursor) : Prop where
  sound : r.Sound c
  opened : r.nbytes ≤ j
  le_len : j ≤ r.len
  answers : c.Answers { base := r.base + r.nbytes, len := j - r.nbytes }

/-- What a reader that needs byte `j` raises: END_OF_STREAM past the last byte, BUS_ERROR at one that does not answer
(40_bitio.md R131). -/
def RdCursor.Ends (c : Config) (j : Nat) (e : Err) (r : RdCursor) : Prop :=
  (j = r.len ∧ e = .endOfStream) ∨ (j < r.len ∧ c.accessible (r.base + j) = false ∧ e = .busError)

theorem RdCursor.Ends.within {j : Nat} {e : Err} (h : r.Ends c j e) (hw : r.Within r') : r'.Ends c j e := by
  unfold RdCursor.Ends; rw [hw.base, hw.len]; exact h

/-- ReadBit with a bit before byte `j` reads it. -/
theorem readBit_upto {j : Nat} {l : List Bool} (hr : r.Ready c j) (hu : unread m (r.upto j) = b :: l) :
    ∃ r', readBit c m r = .ok b r' ∧ r'.Ready c j ∧ RdCursor.Reads m [b] r r' ∧ unread m (r'.upto j) = l := by
  have hlen := congrArg List.length hu
  have hs := hr.sound
  have hop := hr.opened
  have hp := rdPos_add_shift hs
  rw [unread_upto hs hop hr.le_len] at hu hlen
  cases hb : readBit c m r with
  | raise e r1 =>
    obtain ⟨rfl, hz, h⟩ := readBit_raise hb
    have hz' : r1.shift.val = 0 := by rw [hz]; rfl
    have := hr.le_len
    simp only [List.length_take, List.length_cons] at hlen
    rcases h with ⟨rfl, h⟩ | ⟨rfl, h, hacc⟩
    · omega
    · rw [hr.answers (r1.base + r1.nbytes) le_rfl (by simp only; omega)] at hacc; cases hacc
  | ok b1 r1 =>
    have h1 := readBit_reads hs hb
    obtain ⟨hs1, hw1⟩ := readBit_sound hs hb
    have hp1 := rdPos_add_shift hs1
    have hpos := h1.pos
    have hg := h1.grows
    have hlt := r1.shift.isLt
    simp only [List.length_singleton] at hpos
    have hne : 0 < 8 * j - r.pos := by
      by_contra h0
      rw [show 8 * j - r.pos = 0 by omega] at hu; cases hu
    have hready : r1.Ready c j := by
      refine ⟨hs1, by omega, by rw [hw1.len]; exact hr.le_len, fun a x y => hr.answers a ?_ ?_⟩
      · simp only [hw1.base] at x ⊢; omega
      · simp only [hw1.base] at x y ⊢; omega
    obtain ⟨k, hk⟩ : ∃ k, 8 * j - r.pos = k + 1 := ⟨8 * j - r.pos - 1, by omega⟩
    rw [h1.bits, hk] at hu
    obtain ⟨rfl, hu'⟩ := List.cons.inj hu
    refine ⟨r1, rfl, hready, h1, ?_⟩
    rw [unread_upto hs1 hready.opened hready.le_len, show 8 * j - r1.pos = k by omega]
    exact hu'

/-- ReadBit with no bit before byte `j` raises. -/
theorem readBit_ends {j : Nat} {e : Err} (hr : r.Ready c j) (he : r.Ends c j e) (hu : unread m (r.upto j) = []) :
    readBit c m r = .raise e r := by
  have hlen := congrArg List.length hu
  rw [length_unread] at hlen
  unfold avail RdCursor.upto at hlen
  simp only [List.length_nil] at hlen
  have hop := hr.opened
  have hz : r.shift = 0 := Fin.ext (show r.shift.val = 0 by omega)
  have hn : r.nbytes = j := by omega
  rw [readBit, if_pos hz]
  rcases he with ⟨h, rfl⟩ | ⟨h, ha, rfl⟩
  · rw [if_pos (by omega)]
  · rw [if_neg (by omega), if_neg (by rw [hn, ha]; decide)]

/-- ReadBits with its bits before byte `j` (40_bitio.md R133 (b)). -/
theorem readBits_upto {j : Nat} {rest : List Bool} (l : List Bool) : ∀ {v : Nat} {r : RdCursor}, r.Ready c j →
    unread m (r.upto j) = l ++ rest →
    ∃ r', readBitsFrom c m l.length v r = .ok (l.foldl (fun v b => 2 * v + b.toNat) v) r' ∧ r'.Ready c j ∧
      RdCursor.Reads m l r r' ∧ unread m (r'.upto j) = rest := by
  induction l with
  | nil => intro v r hr hu; exact ⟨r, rfl, hr, .refl _, hu⟩
  | cons b l ih =>
    intro v r hr hu
    obtain ⟨r1, e1, hr1, h1, hu1⟩ := readBit_upto hr hu
    obtain ⟨r2, e2, hr2, h2, hu2⟩ := ih (v := 2 * v + b.toNat) hr1 hu1
    exact ⟨r2, by simp only [List.length_cons, readBitsFrom, e1, e2, List.foldl_cons], hr2, h1.trans h2, hu2⟩

/-- ReadBits that needs byte `j` takes the bits before it and raises (40_bitio.md R133 (c)). -/
theorem readBits_ends {j : Nat} {e : Err} (n : Nat) : ∀ {v : Nat} {r : RdCursor} {l : List Bool}, r.Ready c j →
    r.Ends c j e → unread m (r.upto j) = l → l.length < n →
    ∃ r', readBitsFrom c m n v r = .raise e r' ∧ r'.Sound c ∧ RdCursor.Reads m l r r' := by
  induction n with
  | zero => intro v r l _ _ _ h; omega
  | succ n ih =>
    intro v r l hr he hu hl
    cases l with
    | nil => exact ⟨r, by simp only [readBitsFrom, readBit_ends hr he hu], hr.sound, .refl _⟩
    | cons b l =>
      obtain ⟨r1, e1, hr1, h1, hu1⟩ := readBit_upto hr hu
      obtain ⟨r2, e2, hs2, h2⟩ := ih (v := 2 * v + b.toNat) hr1 (he.within h1.within) hu1 (by simp at hl; omega)
      exact ⟨r2, by simp only [readBitsFrom, e1, e2], hs2, h1.trans h2⟩

/-- The unary scan with its terminator before byte `j`. -/
theorem scanOnes_upto {j : Nat} {rest : List Bool} (q : Nat) : ∀ {fuel q' : Nat} {r : RdCursor}, r.Ready c j →
    q < fuel → unread m (r.upto j) = List.replicate q true ++ false :: rest →
    ∃ r', scanOnes c m fuel q' r = .ok (q' + q) r' ∧ r'.Ready c j ∧
      RdCursor.Reads m (List.replicate q true ++ [false]) r r' ∧ unread m (r'.upto j) = rest := by
  induction q with
  | zero =>
    intro fuel q' r hr hf hu
    obtain ⟨fuel, rfl⟩ : ∃ k, fuel = k + 1 := ⟨fuel - 1, by omega⟩
    obtain ⟨r1, e1, hr1, h1, hu1⟩ := readBit_upto hr hu
    exact ⟨r1, by simp only [scanOnes, e1]; rfl, hr1, h1, hu1⟩
  | succ q ih =>
    intro fuel q' r hr hf hu
    obtain ⟨fuel, rfl⟩ : ∃ k, fuel = k + 1 := ⟨fuel - 1, by omega⟩
    obtain ⟨r1, e1, hr1, h1, hu1⟩ := readBit_upto hr hu
    obtain ⟨r2, e2, hr2, h2, hu2⟩ := ih (fuel := fuel) (q' := q' + 1) hr1 (by omega) hu1
    exact ⟨r2, by simp only [scanOnes, e1, e2]; congr 1; omega, hr2, h1.trans h2, hu2⟩

/-- The unary scan with only ones before byte `j`. -/
theorem scanOnes_ends {j : Nat} {e : Err} (q : Nat) : ∀ {fuel q' : Nat} {r : RdCursor}, r.Ready c j → r.Ends c j e →
    q < fuel → unread m (r.upto j) = List.replicate q true →
    ∃ r', scanOnes c m fuel q' r = .raise e r' ∧ r'.Sound c ∧ RdCursor.Reads m (List.replicate q true) r r' := by
  induction q with
  | zero =>
    intro fuel q' r hr he hf hu
    obtain ⟨fuel, rfl⟩ : ∃ k, fuel = k + 1 := ⟨fuel - 1, by omega⟩
    exact ⟨r, by simp only [scanOnes, readBit_ends hr he hu], hr.sound, .refl _⟩
  | succ q ih =>
    intro fuel q' r hr he hf hu
    obtain ⟨fuel, rfl⟩ : ∃ k, fuel = k + 1 := ⟨fuel - 1, by omega⟩
    obtain ⟨r1, e1, hr1, h1, hu1⟩ := readBit_upto hr hu
    obtain ⟨r2, e2, hs2, h2⟩ := ih (fuel := fuel) (q' := q' + 1) hr1 (he.within h1.within) (by omega) hu1
    exact ⟨r2, by simp only [scanOnes, e1, e2], hs2, h1.trans h2⟩

theorem length_unread_upto_le {j : Nat} (hr : r.Ready c j) : (unread m (r.upto j)).length ≤ avail r := by
  have := hr.le_len
  rw [length_unread]; unfold avail RdCursor.upto; simp only; omega

/-- DecodeValue with a whole codeword before byte `j` (41_value_codec.md R164 (c)). -/
theorem decodeValue_upto {j q : Nat} {rem rest : List Bool} (hr : r.Ready c j)
    (hu : unread m (r.upto j) = List.replicate q true ++ false :: rem ++ rest) :
    ∃ r', decodeValue c m rem.length r = .ok (q * 2 ^ rem.length + valueOf rem) r' ∧ r'.Ready c j ∧
      RdCursor.Reads m (List.replicate q true ++ false :: rem) r r' ∧ unread m (r'.upto j) = rest := by
  have hl := length_unread_upto_le (m := m) hr
  rw [hu] at hl
  simp only [List.length_append, List.length_replicate, List.length_cons] at hl
  rw [List.append_assoc, List.cons_append] at hu
  obtain ⟨r1, e1, hr1, h1, hu1⟩ := scanOnes_upto q (fuel := avail r + 1) (q' := 0) hr (by omega) hu
  obtain ⟨r2, e2, hr2, h2, hu2⟩ := readBits_upto rem (v := 0) hr1 hu1
  refine ⟨r2, ?_, hr2, ?_, hu2⟩
  · simp only [decodeValue, e1, readBits, e2, Nat.zero_add]; rfl
  · have := h1.trans h2
    rwa [List.append_assoc, List.singleton_append] at this

/-- DecodeValue with no whole codeword before byte `j` takes the bits there and raises (41_value_codec.md R164 (a),
(b)). -/
theorem decodeValue_ends {j p : Nat} {e : Err} {l : List Bool} (hr : r.Ready c j) (he : r.Ends c j e)
    (hu : unread m (r.upto j) = l) (hn : NoCodeword p l) :
    ∃ r', decodeValue c m p r = .raise e r' ∧ r'.Sound c ∧ RdCursor.Reads m l r r' := by
  have hl := length_unread_upto_le (m := m) hr
  rw [hu] at hl
  rcases hn with ⟨q, rfl⟩ | ⟨q, rem, rfl, hlt⟩
  · simp only [List.length_replicate] at hl
    obtain ⟨r1, e1, hs1, h1⟩ := scanOnes_ends q (fuel := avail r + 1) (q' := 0) hr he (by omega) hu
    exact ⟨r1, by simp only [decodeValue, e1], hs1, h1⟩
  · simp only [List.length_append, List.length_replicate, List.length_cons] at hl
    obtain ⟨r1, e1, hr1, h1, hu1⟩ := scanOnes_upto q (fuel := avail r + 1) (q' := 0) hr (by omega) hu
    obtain ⟨r2, e2, hs2, h2⟩ := readBits_ends p (v := 0) hr1 (he.within h1.within) hu1 hlt
    refine ⟨r2, by simp only [decodeValue, e1, readBits, e2], hs2, ?_⟩
    have := h1.trans h2
    rwa [List.append_assoc, List.singleton_append] at this

/-- A reader whose next `n` bits lie in bytes that answer can read up to the byte of the last of them. -/
theorem ready_of_opens {n : Nat} (hs : r.Sound c) (hn : n ≤ avail r) (ha : c.Answers (r.opens n)) :
    r.Ready c (bytesFor (r.pos + n)) ∧ ∃ k, 8 * bytesFor (r.pos + n) - r.pos = n + k := by
  have hp := rdPos_add_shift hs
  have hop := hs.opened
  have := r.shift.isLt
  unfold avail at hn
  exact ⟨⟨hs, by unfold bytesFor; omega, by unfold bytesFor; omega, ha⟩, 8 * bytesFor (r.pos + n) - r.pos - n, by
    unfold bytesFor; omega⟩

end Sys2Proof.Machine
end

