-- ==== Sys2Proof/Laws/Writer.lean ====
section
/-! SUPPORT. The bit writer: everything one WriteBit can do, what a run of them keeps, leaves, and where it stops. -/

namespace Sys2Proof.Machine

variable {c : Config} {w w' : Writer} {b : Bool} {u : Unit}

/-- A byte written whole, when WriteBit succeeds (40_bitio.md R122): into a new byte, or into the current one. -/
theorem writeBit_ok (h : writeBit c b w = .ok u w') :
    (w.cur.shift = 0 ∧ w.cur.nbytes < w.cur.cap ∧ c.accessible (w.cur.base + w.cur.nbytes) = true ∧
      w' = putByte w (w.cur.nbytes + 1) 7 (mergeBit 0xFF 7 b)) ∨
    (w.cur.shift ≠ 0 ∧ w' = putByte w w.cur.nbytes (w.cur.shift - 1) (mergeBit w.cur.byte (w.cur.shift - 1) b)) := by
  unfold writeBit at h
  split at h
  · split at h
    · cases h
    · split at h
      · cases h; exact .inl ⟨‹_›, by omega, ‹_›, rfl⟩
      · cases h
  · cases h; exact .inr ⟨‹_›, rfl⟩

/-- A WriteBit that raises changes nothing (40_bitio.md R122). -/
theorem writeBit_raise {e : Err} (h : writeBit c b w = .raise e w') :
    w' = w ∧ w.cur.shift = 0 ∧
      ((e = .bufferExhausted ∧ w.cur.cap ≤ w.cur.nbytes) ∨
        (e = .busError ∧ w.cur.nbytes < w.cur.cap ∧ c.accessible (w.cur.base + w.cur.nbytes) = false)) := by
  unfold writeBit at h
  split at h
  · split at h
    · cases h; exact ⟨rfl, ‹_›, .inl ⟨rfl, ‹_›⟩⟩
    · split at h
      · cases h
      · rename_i ha
        cases h; exact ⟨rfl, ‹_›, .inr ⟨rfl, by omega, Bool.eq_false_of_not_eq_true ha⟩⟩
  · cases h

@[simp] theorem mergeBit_true (byte : Byte) (s : Fin 8) : mergeBit byte s true = byte := rfl

/-- Merging a bit changes only that bit, and makes it the written one when it was 1 before. -/
theorem getLsbD_mergeBit (byte : Byte) (s : Fin 8) (b : Bool) (k : Nat) :
    (mergeBit byte s b).getLsbD k = if k = s.val then byte.getLsbD k && b else byte.getLsbD k := by
  have hs := s.isLt
  cases b
  · by_cases hk : k = s.val
    · subst hk; simp [mergeBit, hs]
    · rw [if_neg hk]
      by_cases h8 : k < 8
      · simp [mergeBit, h8]; exact fun _ => hk
      · rw [BitVec.getLsbD_of_ge _ k (by omega), BitVec.getLsbD_of_ge _ k (by omega)]
  · simp

theorem getLsbD_allOnes8 (k : Nat) (h : k < 8) : (0xFF : Byte).getLsbD k = true := by
  have : (0xFF : Byte) = BitVec.allOnes 8 := rfl
  rw [this, BitVec.getLsbD_allOnes]; simpa using h

theorem val_sub_one {s : Fin 8} (h : s ≠ 0) : (s - 1).val = s.val - 1 := by
  revert s; decide

theorem val_pos {s : Fin 8} (h : s ≠ 0) : 0 < s.val := by
  revert s; decide

/-- A writer that keeps its region, and every byte outside it. -/
structure Writer.Within (w w' : Writer) : Prop where
  base : w'.cur.base = w.cur.base
  cap : w'.cur.cap = w.cur.cap
  outside : ∀ a, a < w.cur.base ∨ w.cur.base + w.cur.cap ≤ a → w'.mem.read a = w.mem.read a

theorem Writer.Within.refl (w : Writer) : w.Within w := ⟨rfl, rfl, fun _ _ => rfl⟩

theorem Writer.Within.trans {w1 w2 w3 : Writer} (h : w1.Within w2) (h' : w2.Within w3) : w1.Within w3 :=
  ⟨h'.base.trans h.base, h'.cap.trans h.cap,
    fun a ha => (h'.outside a (by rw [h.base, h.cap]; exact ha)).trans (h.outside a ha)⟩

theorem WrCursor.Sound.fresh {base cap : Nat} (hb : base < c.space) (hc : cap < c.space) (h : base + cap ≤ c.space) :
    (WrCursor.fresh base cap).Sound c :=
  ⟨hb, hc, h, Nat.zero_le _, fun _ => rfl, fun k hk => absurd hk (by simp [WrCursor.fresh])⟩

theorem writeBit_sound (hs : w.cur.Sound c) (h : writeBit c b w = .ok u w') : w'.cur.Sound c ∧ w.Within w' := by
  rcases writeBit_ok h with ⟨hz, hlt, -, rfl⟩ | ⟨hz, rfl⟩
  · refine ⟨⟨hs.base_lt, hs.cap_lt, hs.region, hlt, fun h => absurd h (Nat.succ_ne_zero _), ?_⟩, rfl, rfl, ?_⟩
    · intro k hk
      simp only [putByte] at hk ⊢
      have : k < 7 := hk
      rw [getLsbD_mergeBit, if_neg (by simp; omega)]
      exact getLsbD_allOnes8 k (by omega)
    · intro a ha
      exact Memory.read_write_of_ne _ _ (by omega)
  · have hn : w.cur.nbytes ≠ 0 := fun h0 => hz (hs.start h0)
    have hop := hs.opened
    refine ⟨⟨hs.base_lt, hs.cap_lt, hs.region, hop, fun h => absurd h hn, ?_⟩, rfl, rfl, ?_⟩
    · intro k hk
      simp only [putByte, val_sub_one hz] at hk ⊢
      rw [getLsbD_mergeBit, val_sub_one hz, if_neg (by omega)]
      exact hs.guard k (by omega)
    · intro a ha
      exact Memory.read_write_of_ne _ _ (by omega)

/-- A WriteBit stores inside the region, so the memory stays sound. -/
theorem writeBit_mem_sound (hs : w.cur.Sound c) (hm : w.mem.Sound c) (h : writeBit c b w = .ok u w') :
    w'.mem.Sound c := by
  have hr := hs.region
  have hop := hs.opened
  rcases writeBit_ok h with ⟨hz, hlt, -, rfl⟩ | ⟨hz, rfl⟩
  · exact Memory.sound_write hm (by omega) _
  · have hn : w.cur.nbytes ≠ 0 := fun h0 => hz (hs.start h0)
    exact Memory.sound_write hm (by omega) _

/-- What a sub-procedure of the writer keeps, raise or not: the cursor's invariant, its region and every byte outside
it, and the memory's invariant. -/
structure KeepsWriter (c : Config) (w : Writer) (r : Res Writer Unit) : Prop where
  cur : r.state.cur.Sound c
  within : w.Within r.state
  mem : w.mem.Sound c → r.state.mem.Sound c

theorem KeepsWriter.refl {r : Res Writer Unit} (hs : w.cur.Sound c) (h : r.state = w) : KeepsWriter c w r := by
  refine ⟨?_, ?_, ?_⟩ <;> rw [h]
  · exact hs
  · exact .refl _
  · exact id

theorem KeepsWriter.trans {w1 w2 : Writer} {r : Res Writer Unit} (h : KeepsWriter c w1 (.ok () w2))
    (h' : KeepsWriter c w2 r) : KeepsWriter c w1 r :=
  ⟨h'.cur, h.within.trans h'.within, fun hm => h'.mem (h.mem hm)⟩

theorem keepsWriter_writeBit (hs : w.cur.Sound c) : KeepsWriter c w (writeBit c b w) := by
  cases h : writeBit c b w with
  | ok u w' => exact ⟨(writeBit_sound hs h).1, (writeBit_sound hs h).2, fun hm => writeBit_mem_sound hs hm h⟩
  | raise e w' => obtain ⟨rfl, -⟩ := writeBit_raise h; exact .refl hs rfl

/-- A run of WriteBit calls over a list is built from its head and its tail. -/
theorem writeString_append (l l' : List Bool) (w : Writer) :
    writeString c (l ++ l') w =
      match writeString c l w with
      | .ok _ w' => writeString c l' w'
      | .raise e w' => .raise e w' := by
  induction l generalizing w with
  | nil => rfl
  | cons b l ih =>
    simp only [List.cons_append, writeString]
    cases writeBit c b w with
    | ok u w' => exact ih w'
    | raise e w' => rfl

theorem writeBits_eq (v n : Nat) (w : Writer) : writeBits c v n w = writeString c (binBits n v) w := by
  induction n generalizing w with
  | zero => rfl
  | succ n ih =>
    simp only [writeBits, binBits, writeString]
    cases writeBit c (v.testBit n) w with
    | ok u w' => exact ih w'
    | raise e w' => rfl

theorem writeOnes_eq (q : Nat) (w : Writer) : writeOnes c q w = writeString c (List.replicate q true) w := by
  induction q generalizing w with
  | zero => rfl
  | succ q ih =>
    simp only [writeOnes, List.replicate_succ, writeString]
    cases writeBit c true w with
    | ok u w' => exact ih w'
    | raise e w' => rfl

theorem binBits_mod (n v : Nat) : binBits n (v % 2 ^ n) = binBits n v := by
  have key : ∀ k, k ≤ n → binBits k (v % 2 ^ n) = binBits k v := by
    intro k
    induction k with
    | zero => intro _; rfl
    | succ k ih =>
      intro hk
      simp only [binBits, ih (by omega), Nat.testBit_mod_two_pow]
      simp [show k < n by omega]
  exact key n le_rfl

/-- EncodeValue is the write of the codeword (41_value_codec.md R163). -/
theorem encodeValue_eq (v p : Nat) (w : Writer) : encodeValue c v p w = writeString c (codeword p v) w := by
  unfold encodeValue codeword
  rw [writeString_append, writeOnes_eq]
  cases writeString c (List.replicate (v / 2 ^ p) true) w with
  | raise e w1 => rfl
  | ok u w1 =>
    simp only [writeString]
    cases writeBit c false w1 with
    | raise e w2 => rfl
    | ok u w2 => simp only [writeBits_eq, binBits_mod]

theorem keepsWriter_writeString (l : List Bool) :
    ∀ {w : Writer}, w.cur.Sound c → KeepsWriter c w (writeString c l w) := by
  induction l with
  | nil => intro w hs; exact .refl hs rfl
  | cons b l ih =>
    intro w hs
    simp only [writeString]
    have hb := keepsWriter_writeBit (b := b) hs
    cases h : writeBit c b w with
    | raise e w' => rw [h] at hb; exact ⟨hb.cur, hb.within, hb.mem⟩
    | ok u w' => rw [h] at hb; exact hb.trans (ih hb.cur)

theorem keepsWriter_encodeValue (v p : Nat) (hs : w.cur.Sound c) : KeepsWriter c w (encodeValue c v p w) := by
  rw [encodeValue_eq]; exact keepsWriter_writeString _ hs

theorem keepsWriter_writeBits (v n : Nat) (hs : w.cur.Sound c) : KeepsWriter c w (writeBits c v n w) := by
  rw [writeBits_eq]; exact keepsWriter_writeString _ hs

@[simp] theorem length_binBits (n v : Nat) : (binBits n v).length = n := by
  induction n with
  | zero => rfl
  | succ n ih => simp [binBits, ih]

@[simp] theorem length_codeword (p v : Nat) : (codeword p v).length = v / 2 ^ p + 1 + p := by
  simp [codeword]; omega

/-- The bits written and the current byte's free bits fill the opened bytes (10_state.md R40). -/
theorem pos_add_shift (hs : w.cur.Sound c) : w.cur.pos + w.cur.shift.val = 8 * w.cur.nbytes := by
  have := w.cur.shift.isLt
  unfold WrCursor.pos
  by_cases h : w.cur.nbytes = 0
  · rw [hs.start h, h]; rfl
  · omega

/-- A WriteBit that succeeds takes one of the free bits. -/
theorem writeBit_free (h : writeBit c b w = .ok u w') : w.cur.free = w'.cur.free + 1 := by
  rcases writeBit_ok h with ⟨hz, hlt, -, rfl⟩ | ⟨hz, rfl⟩
  · simp only [putByte, WrCursor.free, hz]
    show 8 * (w.cur.cap - w.cur.nbytes) + 0 = 8 * (w.cur.cap - (w.cur.nbytes + 1)) + 7 + 1
    omega
  · have hv := val_sub_one hz
    have hv' := val_pos hz
    simp only [putByte, WrCursor.free, hv]; omega

/-- The stream's bits after one byte of it is written. -/
theorem bitAt_write {m : Memory} {base n i : Nat} {byte : Byte} (hn : 0 < n) :
    bitAt (m.write (base + n - 1) byte) base i =
      if i / 8 = n - 1 then byte.getLsbD (7 - i % 8) else bitAt m base i := by
  unfold bitAt
  rw [Memory.read_write]
  by_cases h : i / 8 = n - 1
  · rw [if_pos h, if_pos (by omega)]
  · rw [if_neg h, if_neg (by omega)]

/-- The bits `l` stand after those written before, the current byte's earlier bits are kept, no other byte has changed,
and memory holds the current byte: what a run of at least one successful WriteBit leaves. -/
structure Extends (l : List Bool) (w w' : Writer) : Prop where
  base : w'.cur.base = w.cur.base
  cap : w'.cur.cap = w.cur.cap
  pos : w'.cur.pos = w.cur.pos + l.length
  bits : ∀ i (h : i < l.length), bitAt w'.mem w.cur.base (w.cur.pos + i) = l[i]
  kept : ∀ i, i < w.cur.pos → 8 * (w.cur.pos / 8) ≤ i → bitAt w'.mem w.cur.base i = w.cur.byte.getLsbD (7 - i % 8)
  outside : ∀ a, a < w.cur.base + w.cur.pos / 8 ∨ w.cur.base + w'.cur.nbytes ≤ a → w'.mem.read a = w.mem.read a
  current : w'.mem.read (w.cur.base + w'.cur.nbytes - 1) = w'.cur.byte
  grows : w.cur.nbytes ≤ w'.cur.nbytes

theorem extends_writeBit (hs : w.cur.Sound c) (h : writeBit c b w = .ok u w') : Extends [b] w w' := by
  have hp := pos_add_shift hs
  rcases writeBit_ok h with ⟨hz, hlt, -, rfl⟩ | ⟨hz, rfl⟩
  · rw [hz] at hp
    have hp : w.cur.pos = 8 * w.cur.nbytes := by simpa using hp
    refine ⟨rfl, rfl, ?_, ?_, ?_, ?_, by simp [putByte], by simp [putByte]⟩
    · show 8 * (w.cur.nbytes + 1) - 7 = w.cur.pos + 1; omega
    · intro i hi
      obtain rfl : i = 0 := by simpa using hi
      simp only [putByte]
      rw [bitAt_write (by omega), if_pos (by omega), hp]
      simp only [Nat.add_zero, Nat.mul_mod_right, Nat.sub_zero]
      rw [getLsbD_mergeBit]; cases b <;> rfl
    · intro i h1 h2; omega
    · intro a ha
      exact Memory.read_write_of_ne _ _ (by simp only [putByte] at ha; omega)
  · have hn : w.cur.nbytes ≠ 0 := fun h0 => hz (hs.start h0)
    have hv := val_sub_one hz
    have hv' := val_pos hz
    have hlt := w.cur.shift.isLt
    refine ⟨rfl, rfl, ?_, ?_, ?_, ?_, by simp [putByte], by simp [putByte]⟩
    · simp only [putByte, WrCursor.pos, hv, List.length_singleton]; omega
    · intro i hi
      obtain rfl : i = 0 := by simpa using hi
      simp only [putByte]
      rw [bitAt_write (by omega), if_pos (by omega), getLsbD_mergeBit, hv, if_pos (by omega),
        hs.guard _ (by omega)]
      rfl
    · intro i h1 h2
      simp only [putByte]
      rw [bitAt_write (by omega), if_pos (by omega), getLsbD_mergeBit, hv, if_neg (by omega)]
    · intro a ha
      exact Memory.read_write_of_ne _ _ (by simp only [putByte] at ha; omega)

theorem Extends.append {l l' : List Bool} {w1 w2 w3 : Writer} (h1 : w1.cur.Sound c) (h2 : w2.cur.Sound c)
    (hl : l ≠ []) (a : Extends l w1 w2) (b : Extends l' w2 w3) : Extends (l ++ l') w1 w3 := by
  have hp1 := pos_add_shift h1
  have hp2 := pos_add_shift h2
  have hlt := w2.cur.shift.isLt
  have hlp : 0 < l.length := List.length_pos_iff.2 hl
  have hpa := a.pos
  have keep : ∀ i, i < w2.cur.pos → 8 * (w1.cur.pos / 8) ≤ i →
      bitAt w3.mem w1.cur.base i = bitAt w2.mem w1.cur.base i := by
    intro i hi hlo
    by_cases hc : 8 * (w2.cur.pos / 8) ≤ i
    · rw [← a.base, b.kept i hi hc]
      unfold bitAt
      have : w2.cur.base + i / 8 = w1.cur.base + w2.cur.nbytes - 1 := by rw [a.base]; omega
      rw [this, a.current]
    · unfold bitAt
      rw [b.outside _ (.inl (by rw [a.base]; omega))]
  refine ⟨b.base.trans a.base, b.cap.trans a.cap, ?_, ?_, ?_, ?_, ?_, a.grows.trans b.grows⟩
  · rw [b.pos, a.pos, List.length_append]; omega
  · intro i hi
    rw [List.length_append] at hi
    by_cases hil : i < l.length
    · rw [keep _ (by omega) (by omega), a.bits i hil, List.getElem_append_left hil]
    · have := b.bits (i - l.length) (by omega)
      rw [List.getElem_append_right (by omega), ← this, a.base, a.pos]
      congr 1; omega
  · intro i hi hlo
    rw [keep _ (by omega) hlo, a.kept i hi hlo]
  · intro x hx
    have := a.grows
    have := b.grows
    rw [b.outside x (by rw [a.base]; omega), a.outside x (by omega)]
  · rw [← a.base]; exact b.current

/-- A run of successful WriteBit calls over a bit string leaves it in memory (40_bitio.md R126). -/
theorem writeString_extends (l : List Bool) : ∀ {w w' : Writer}, w.cur.Sound c → l ≠ [] →
    writeString c l w = .ok u w' → Extends l w w' := by
  induction l with
  | nil => intro w w' _ h; cases h rfl
  | cons b l ih =>
    intro w w' hs _ h
    simp only [writeString] at h
    cases hb : writeBit c b w with
    | raise e w1 => rw [hb] at h; cases h
    | ok u1 w1 =>
      rw [hb] at h
      have h1 := extends_writeBit hs hb
      have hs1 := (writeBit_sound hs hb).1
      by_cases hl : l = []
      · subst hl; cases h; exact h1
      · exact Extends.append hs hs1 (by simp) h1 (ih hs1 hl h)

theorem writeString_sound {l : List Bool} (hs : w.cur.Sound c) (h : writeString c l w = .ok u w') :
    w'.cur.Sound c := by
  have := (keepsWriter_writeString l hs).cur; rw [h] at this; exact this

/-- What a run of successful WriteBit calls leaves, in the words of the closed form (40_bitio.md R126 (a), (b)). -/
theorem writeString_appended {l : List Bool} (hs : w.cur.Sound c) (h : writeString c l w = .ok u w') :
    Appended l w w' := by
  have hp := pos_add_shift hs
  have hlt := w.cur.shift.isLt
  by_cases hl : l = []
  · subst hl; cases h
    refine ⟨rfl, rfl, ?_, ?_, fun i h => by simp at h, fun h => absurd rfl h, fun h => absurd rfl h,
      fun h => absurd rfl h, fun _ _ => rfl, fun _ => rfl⟩
    · simp only [bytesFor, List.length_nil]; omega
    · simp only [List.length_nil]; omega
  · have a := writeString_extends l hs hl h
    have hs' := writeString_sound hs h
    have hp' := pos_add_shift hs'
    have hlt' := w'.cur.shift.isLt
    have hpa := a.pos
    refine ⟨a.base, a.cap, by unfold bytesFor; omega, by omega, a.bits, fun _ i h1 h2 => a.kept i h2 h1, ?_,
      fun _ => a.current, a.outside, fun h => absurd h hl⟩
    intro _ i h1 h2
    unfold bitAt
    have : w.cur.base + i / 8 = w.cur.base + w'.cur.nbytes - 1 := by omega
    rw [this, a.current]
    exact hs'.guard _ (by omega)

/-- A bit string that fits is written whole when the bytes it opens answer (40_bitio.md R126 (b)). -/
theorem writeString_ok (l : List Bool) : ∀ {w : Writer}, w.cur.Sound c → l.length ≤ w.cur.free →
    c.Answers (w.cur.opens l.length) → ∃ w', writeString c l w = .ok () w' := by
  induction l with
  | nil => intro w _ _ _; exact ⟨w, rfl⟩
  | cons b l ih =>
    intro w hs hf ha
    have hp := pos_add_shift hs
    have hlt := w.cur.shift.isLt
    simp only [List.length_cons] at hf
    cases hb : writeBit c b w with
    | raise e w1 =>
      obtain ⟨rfl, hz, h⟩ := writeBit_raise hb
      have hz' : w1.cur.shift.val = 0 := by rw [hz]; rfl
      unfold WrCursor.free at hf
      rcases h with ⟨rfl, h⟩ | ⟨rfl, h, hacc⟩
      · omega
      · rw [ha (w1.cur.base + w1.cur.nbytes) le_rfl
          (by simp only [WrCursor.opens, bytesFor, List.length_cons]; omega)] at hacc
        cases hacc
    | ok u1 w1 =>
      obtain ⟨hs1, hw1⟩ := writeBit_sound hs hb
      have hx := extends_writeBit hs hb
      have hpos := hx.pos
      have hg := hx.grows
      have hfr := writeBit_free hb
      simp only [List.length_singleton] at hpos
      simp only [writeString, hb]
      refine ih hs1 (by omega) (fun a h1 h2 => ha a ?_ ?_)
      · simp only [WrCursor.opens, hw1.base] at h1 ⊢; omega
      · simp only [WrCursor.opens, hw1.base, hpos, bytesFor, List.length_cons] at h1 h2 ⊢; omega

/-- A bit string stops where WriteBit raises: its first `k` bits are written, and no more. -/
theorem writeString_stop {l : List Bool} {k : Nat} {e : Err} (hk : k < l.length)
    (h : writeString c (l.take k) w = .ok () w') (hr : ∀ b, writeBit c b w' = .raise e w') :
    writeString c l w = .raise e w' := by
  obtain ⟨b, l', hd⟩ : ∃ b l', l.drop k = b :: l' := by
    cases hd : l.drop k with
    | nil => have := congrArg List.length hd; simp at this; omega
    | cons b l' => exact ⟨b, l', rfl⟩
  rw [← List.take_append_drop k l, hd, writeString_append, h]
  simp only [writeString, hr]

/-- A bit string longer than the bits free fills the writer and stops with BUFFER_EXHAUSTED (40_bitio.md R126 (c)). -/
theorem writeString_exhausted {l : List Bool} (hs : w.cur.Sound c) (hl : w.cur.free < l.length)
    (ha : c.Answers (w.cur.opens w.cur.free)) :
    ∃ w', writeString c l w = .raise .bufferExhausted w' ∧ writeString c (l.take w.cur.free) w = .ok () w' ∧
      w'.cur.nbytes = w.cur.cap ∧ w'.cur.shift = 0 := by
  have hlen : (l.take w.cur.free).length = w.cur.free := by simp; omega
  obtain ⟨w', h⟩ := writeString_ok (l.take w.cur.free) hs (by omega) (by rw [hlen]; exact ha)
  have hA := writeString_appended hs h
  have hs' := writeString_sound hs h
  have hp := pos_add_shift hs
  have hop := hs.opened
  have hn : w'.cur.nbytes = w.cur.cap := by
    rw [hA.nbytes, hlen]; unfold bytesFor WrCursor.free; have := w.cur.shift.isLt; omega
  have hz : w'.cur.shift = 0 := by
    refine Fin.ext ?_
    show w'.cur.shift.val = 0
    rw [hA.shift, hn, hlen]; unfold WrCursor.free; omega
  refine ⟨w', writeString_stop hl h fun b => ?_, h, hn, hz⟩
  rw [writeBit, if_pos hz, if_pos (by rw [hA.cap, hn])]

/-- A bit string that needs a byte that does not answer stops before it with BUS_ERROR (60_exceptions.md R241). -/
theorem writeString_busError {l : List Bool} {j : Nat} (hs : w.cur.Sound c)
    (hh : c.FirstHole w.cur.base w.cur.nbytes j) (hj : j < w.cur.cap) (hl : 8 * j - w.cur.pos < l.length) :
    ∃ w', writeString c l w = .raise .busError w' ∧ writeString c (l.take (8 * j - w.cur.pos)) w = .ok () w' ∧
      w'.cur.nbytes = j ∧ w'.cur.shift = 0 := by
  have hle := hh.le
  have hp := pos_add_shift hs
  have hlt := w.cur.shift.isLt
  have hlen : (l.take (8 * j - w.cur.pos)).length = 8 * j - w.cur.pos := by simp; omega
  have hend : bytesFor (w.cur.pos + (8 * j - w.cur.pos)) = j := by unfold bytesFor; omega
  obtain ⟨w', h⟩ := writeString_ok (l.take (8 * j - w.cur.pos)) hs (by rw [hlen]; unfold WrCursor.free; omega)
    (by rw [hlen, WrCursor.opens, hend]; exact hh.before)
  have hA := writeString_appended hs h
  have hn : w'.cur.nbytes = j := by rw [hA.nbytes, hlen, hend]
  have hz : w'.cur.shift = 0 := by
    refine Fin.ext ?_
    show w'.cur.shift.val = 0
    rw [hA.shift, hn, hlen]; omega
  refine ⟨w', writeString_stop hl h fun b => ?_, h, hn, hz⟩
  rw [writeBit, if_pos hz, if_neg (by rw [hA.cap, hn]; omega), if_neg]
  rw [hA.base, hn, hh.hole]; decide

/-- The cursor of a fresh writer after a run of successful WriteBit calls. -/
theorem wrote_of_appended {l : List Bool} {base cap : Nat} (hf : w.cur = WrCursor.fresh base cap)
    (h : Appended l w w') : w'.cur.Wrote base cap l := by
  have hpos : w.cur.pos = 0 := by rw [hf]; rfl
  have hb : w.cur.base = base := by rw [hf]; rfl
  have hn := h.nbytes
  rw [hpos, Nat.zero_add] at hn
  refine ⟨h.base.trans hb, h.cap.trans (by rw [hf]; rfl), hn, ?_, fun i h1 h2 => ?_, fun hl => ?_⟩
  · rw [h.shift, hpos, Nat.zero_add, hn]; unfold bytesFor; omega
  · by_cases hl : l = []
    · subst hl; rw [hn] at h2; simp [bytesFor] at h2
    · have hcur := h.current hl
      have : bitAt w'.mem w.cur.base i = w'.cur.byte.getLsbD (7 - i % 8) := by
        unfold bitAt; rw [← hcur]; congr 2; omega
      rw [← this]
      by_cases hil : i < l.length
      · have := h.bits i hil
        rw [hpos, Nat.zero_add] at this
        rw [this, List.getD_eq_getElem _ _ hil]
      · rw [h.ones hl i (by omega) h2, List.getD_eq_default _ _ (by omega)]
  · rw [h.same hl, hf]; rfl

end Sys2Proof.Machine
end

