-- ==== Sys2Proof/Laws/SetCodec.lean ====
section
/-! SUPPORT. The loops of ENCODE and DECODE: what they keep, and that the bound on DECODE's loop is never met. -/

namespace Sys2Proof.Machine

variable {c : Config}

theorem regionOK_iff (r : Region) : regionOK c r = true ↔ r.base + r.len ≤ c.space := by simp [regionOK]

theorem overlap_iff (r q : Region) :
    overlap r q = true ↔ 0 < r.len ∧ 0 < q.len ∧ r.base < q.base + q.len ∧ q.base < r.base + r.len := by
  simp [overlap, and_assoc]

/-- ENCODE's check phase passes exactly when its four checks hold (43_set_codec.md R191). -/
theorem encodeConfigOK_iff (s : State) : encodeConfigOK s = true ↔ s.EncodeChecks := by
  simp only [encodeConfigOK, Bool.and_eq_true, Bool.not_eq_true', ← Bool.not_eq_true, regionOK_iff, overlap_iff,
    decide_eq_true_eq]
  exact ⟨fun ⟨⟨⟨h1, h2⟩, h3⟩, h4⟩ => ⟨h1, h2, h3, h4⟩, fun ⟨h1, h2, h3, h4⟩ => ⟨⟨⟨h1, h2⟩, h3⟩, h4⟩⟩

/-- DECODE's check phase passes exactly when its four checks hold (43_set_codec.md R201). -/
theorem decodeConfigOK_iff (s : State) : decodeConfigOK s = true ↔ s.DecodeChecks := by
  simp only [decodeConfigOK, Bool.and_eq_true, Bool.not_eq_true', ← Bool.not_eq_true, regionOK_iff, overlap_iff,
    decide_eq_true_eq]
  exact ⟨fun ⟨⟨⟨h1, h2⟩, h3⟩, h4⟩ => ⟨h1, h2, h3, h4⟩, fun ⟨h1, h2, h3, h4⟩ => ⟨⟨⟨h1, h2⟩, h3⟩, h4⟩⟩

/-- ENCODE's element phase keeps the writer's invariant, its region and every byte outside it. -/
theorem encodeKeys_keeps (keyBase n : Nat) : ∀ {r : EncodeRun}, r.wr.cur.Sound c →
    (encodeKeys c keyBase n r).state.wr.cur.Sound c ∧ r.wr.Within (encodeKeys c keyBase n r).state.wr ∧
      (r.wr.mem.Sound c → (encodeKeys c keyBase n r).state.wr.mem.Sound c) := by
  induction n with
  | zero => intro r hs; exact ⟨hs, .refl _, id⟩
  | succ n ih =>
    intro r hs
    simp only [encodeKeys]
    cases loadKey c r.wr.mem keyBase r.loop.keyIndex with
    | error e => exact ⟨hs, .refl _, id⟩
    | ok key =>
      dsimp only
      split
      · exact ⟨hs, .refl _, id⟩
      · have hk := keepsWriter_encodeValue (key - r.loop.nextMin) r.loop.p hs
        cases he : encodeValue c (key - r.loop.nextMin) r.loop.p r.wr with
        | raise e w => rw [he] at hk; exact ⟨hk.cur, hk.within, hk.mem⟩
        | ok u w =>
          rw [he] at hk
          have hi := ih (r := { wr := w, loop := r.loop.afterKey key }) hk.cur
          exact ⟨hi.1, hk.within.trans hi.2.1, fun hm => hi.2.2 (hk.mem hm)⟩

/-- ENCODE from its writer phase on keeps the same. -/
theorem encodeStream_keeps {s : State} {p : Nat} {w0 : Writer}
    (hw : w0 = { cur := WrCursor.fresh s.regs.dstBase.toNat s.regs.dstLen.toNat, mem := s.mem })
    (hs : w0.cur.Sound s.cfg) :
    (encodeStream s p).state.wr.cur.Sound s.cfg ∧ w0.Within (encodeStream s p).state.wr ∧
      (s.mem.Sound s.cfg → (encodeStream s p).state.wr.mem.Sound s.cfg) := by
  unfold encodeStream
  rw [← hw]
  have hk := keepsWriter_writeBits p s.hdr hs
  have hm : w0.mem = s.mem := by rw [hw]
  cases he : writeBits s.cfg p s.hdr w0 with
  | raise e w => rw [he] at hk; exact ⟨hk.cur, hk.within, fun h => hk.mem (hm ▸ h)⟩
  | ok u w =>
    rw [he] at hk
    have hi := encodeKeys_keeps (c := s.cfg) s.regs.keyBase.toNat s.regs.keyCount.toNat
      (r := { wr := w, loop := LoopState.start p }) hk.cur
    exact ⟨hi.1, hk.within.trans hi.2.1, fun h => hi.2.2 (hk.mem (hm ▸ h))⟩

/-- StoreKey's byte stores are seen at the key's bytes and nowhere else, raise or not. -/
theorem storeBytes_outside (k : Nat) : ∀ {a v : Nat} {m : Memory} {x : Nat}, x < a ∨ a + k ≤ x →
    (storeBytes c a k v m).state.read x = m.read x := by
  induction k with
  | zero => intro a v m x _; rfl
  | succ k ih =>
    intro a v m x hx
    simp only [storeBytes]
    split
    · rw [ih (by omega), Memory.read_write_of_ne _ _ (by omega)]
    · rfl

theorem storeBytes_sound (k : Nat) : ∀ {a v : Nat} {m : Memory}, m.Sound c → a + k ≤ c.space →
    (storeBytes c a k v m).state.Sound c := by
  induction k with
  | zero => intro a v m hm _; exact hm
  | succ k ih =>
    intro a v m hm ha
    simp only [storeBytes]
    split
    · exact ih (Memory.sound_write hm (by omega) _) (by omega)
    · exact hm

/-- DECODE's element phase keeps the reader's invariant, every byte outside the output region, and the memory's
invariant, while no more keys than `cap` are stored. -/
theorem decodeKeys_keeps (outBase cap fuel : Nat) (hreg : outBase + cap * c.width.bytes ≤ c.space) :
    ∀ {r : DecodeRun}, r.rd.Sound c → r.mem.Sound c → r.loop.decoded ≤ cap →
      (decodeKeys c outBase cap fuel r).state.rd.Sound c ∧ (decodeKeys c outBase cap fuel r).state.mem.Sound c ∧
      r.rd.Within (decodeKeys c outBase cap fuel r).state.rd ∧
      ∀ x, x < outBase ∨ outBase + cap * c.width.bytes ≤ x →
        (decodeKeys c outBase cap fuel r).state.mem.read x = r.mem.read x := by
  induction fuel with
  | zero => intro r hr hm _; exact ⟨hr, hm, .refl _, fun _ _ => rfl⟩
  | succ n ih =>
    intro r hr hm hd
    simp only [decodeKeys]
    have hk := keepsReader_decodeValue (m := r.mem) r.loop.p hr
    cases he : decodeValue c r.mem r.loop.p r.rd with
    | raise e rd =>
      rw [he] at hk
      cases e <;> exact ⟨hk.1, hm, hk.2, fun _ _ => rfl⟩
    | ok d rd =>
      rw [he] at hk
      dsimp only
      split
      · exact ⟨hk.1, hm, hk.2, fun _ _ => rfl⟩
      · split
        · exact ⟨hk.1, hm, hk.2, fun _ _ => rfl⟩
        · have hlt : r.loop.decoded + 1 ≤ cap := by omega
          have hb : r.loop.decoded * c.width.bytes + c.width.bytes ≤ cap * c.width.bytes := by
            rw [← Nat.succ_mul]; exact Nat.mul_le_mul_right _ hlt
          have hout : ∀ x, x < outBase ∨ outBase + cap * c.width.bytes ≤ x →
              (storeKey c outBase r.loop.decoded (d + r.loop.nextMin) r.mem).state.read x = r.mem.read x :=
            fun x hx => storeBytes_outside _ (by omega)
          have hsnd := storeBytes_sound (c := c) c.width.bytes
            (a := outBase + r.loop.decoded * c.width.bytes) (v := d + r.loop.nextMin) hm (by omega)
          cases hs : storeKey c outBase r.loop.decoded (d + r.loop.nextMin) r.mem with
          | raise e m =>
            rw [hs] at hout
            rw [storeKey] at hs
            rw [hs] at hsnd
            exact ⟨hk.1, hsnd, hk.2, hout⟩
          | ok u m =>
            rw [hs] at hout
            rw [storeKey] at hs
            rw [hs] at hsnd
            have hi := ih (r := { rd := rd, mem := m, loop := r.loop.afterValue (d + r.loop.nextMin) })
              hk.1 hsnd hlt
            exact ⟨hi.1, hi.2.1, hk.2.trans hi.2.2.1, fun x hx => (hi.2.2.2 x hx).trans (hout x hx)⟩

/-- The bound of DECODE's loop is never met: any two bounds above the bits left give the same run
(notes/assumptions/8.md). -/
theorem decodeKeys_bound (outBase cap fuel : Nat) : ∀ {fuel' : Nat} {r : DecodeRun},
    avail r.rd < fuel → avail r.rd < fuel' → decodeKeys c outBase cap fuel r = decodeKeys c outBase cap fuel' r := by
  induction fuel with
  | zero => intro fuel' r h; omega
  | succ n ih =>
    intro fuel' r h h'
    obtain ⟨k, rfl⟩ : ∃ k, fuel' = k + 1 := ⟨fuel' - 1, by omega⟩
    simp only [decodeKeys]
    cases he : decodeValue c r.mem r.loop.p r.rd with
    | raise e rd => cases e <;> rfl
    | ok d rd =>
      have := decodeValue_avail he
      dsimp only
      split
      · rfl
      · split
        · rfl
        · cases storeKey c outBase r.loop.decoded (d + r.loop.nextMin) r.mem with
          | raise e m => rfl
          | ok u m => exact ih (by simp only; omega) (by simp only; omega)

/-- Everything ENCODE can do: refuse with only STATUS changed, or run its writer phase to success or to an error
(43_set_codec.md R191 to R197). -/
theorem execEncode_cases {auto : Bool} {s t : State} (h : execEncode auto s = .next t) :
    (∃ e, t = finish (some e) s) ∨
    ∃ p, s.EncodeChecks ∧ encodeParam auto s = .ok p ∧
      ((∃ r, encodeStream s p = .ok () r ∧
          t = finish none (((if auto then s.withParam p else s).withWriter r.wr).withResult
            r.wr.cur.nbytes).discardLoop) ∨
        ∃ e r, encodeStream s p = .raise e r ∧
          t = finish (some e) (((if auto then s.withParam p else s).withWriter r.wr).drawRegion
            s.dstRegion).discardLoop) := by
  unfold execEncode at h
  split at h
  · rename_i hc
    have hc := (encodeConfigOK_iff s).1 hc
    cases hp : encodeParam auto s with
    | error e => rw [hp] at h; cases h; exact .inl ⟨e, rfl⟩
    | ok p =>
      rw [hp] at h
      dsimp only at h
      refine .inr ⟨p, hc, rfl, ?_⟩
      cases he : encodeStream s p with
      | ok u r => rw [he] at h; cases h; exact .inl ⟨r, rfl, rfl⟩
      | raise e r => rw [he] at h; cases h; cases auto <;> exact .inr ⟨e, r, rfl, rfl⟩
  · cases h; exact .inl ⟨_, rfl⟩

/-- Everything DECODE can do: refuse with only STATUS changed; stop in the header, or on its value with PARAM written;
or run its element phase to success or to an error (43_set_codec.md R201 to R207). -/
theorem execDecode_cases {s t : State} (h : execDecode s = .next t) :
    (∃ e, t = finish (some e) s) ∨
    s.DecodeChecks ∧
      ((∃ e rd, 0 < s.hdr ∧ t = finish (some e) ((s.withReader rd).drawRegion s.outRegion).discardLoop ∧
          readBits s.cfg s.mem s.hdr (RdCursor.fresh s.regs.srcBase.toNat s.regs.srcLen.toNat) = .raise e rd) ∨
        ∃ p rd, (if s.hdr = 0 then p = s.paramVal ∧ rd = RdCursor.fresh s.regs.srcBase.toNat s.regs.srcLen.toNat
            else readBits s.cfg s.mem s.hdr (RdCursor.fresh s.regs.srcBase.toNat s.regs.srcLen.toNat) = .ok p rd) ∧
          ((0 < s.hdr ∧ s.keyBits ≤ p ∧
              t = finish (some .paramRange) (((s.withParam p).withReader rd).drawRegion s.outRegion).discardLoop) ∨
            (p < s.keyBits ∧ ∃ r, decodeElements s p rd = .ok () r ∧
              t = finish none (((((if s.hdr = 0 then s else s.withParam p).withMem r.mem).withReader r.rd).withResult
                r.loop.decoded).discardLoop)) ∨
            (p < s.keyBits ∧ ∃ e r, decodeElements s p rd = .raise e r ∧
              t = finish (some e) (((((if s.hdr = 0 then s else s.withParam p).withMem r.mem).withReader r.rd).drawRegion
                s.outRegion).discardLoop)))) := by
  unfold execDecode at h
  split at h
  · rename_i hc
    have hc := (decodeConfigOK_iff s).1 hc
    split at h
    · cases h; exact .inl ⟨_, rfl⟩
    · rename_i hp
      refine .inr ⟨hc, ?_⟩
      by_cases h0 : s.hdr = 0
      · have hp : s.paramVal < s.keyBits := by
          by_contra hn
          exact hp (by simp [decodeParamBad, h0, Nat.le_of_not_lt hn])
        rw [if_pos h0, decodeNoHeader] at h
        refine .inr ⟨s.paramVal, _, by rw [if_pos h0]; exact ⟨rfl, rfl⟩, ?_⟩
        rw [if_pos h0]
        unfold completeDecode at h
        split at h
        · rename_i r hd; cases h; exact .inr (.inl ⟨hp, r, hd, rfl⟩)
        · rename_i e r hd; cases h; exact .inr (.inr ⟨hp, e, r, hd, rfl⟩)
      · have hpos := Nat.pos_of_ne_zero h0
        rw [if_neg h0] at h
        simp only [if_neg h0]
        unfold decodeHeader at h
        split at h
        · rename_i e rd hr; cases h; exact .inl ⟨e, rd, hpos, rfl, hr⟩
        · rename_i p rd hr
          refine .inr ⟨p, rd, hr, ?_⟩
          split at h
          · rename_i hw; cases h; exact .inl ⟨hpos, hw, rfl⟩
          · rename_i hw
            have hw := Nat.lt_of_not_le hw
            unfold completeDecode at h
            split at h
            · rename_i r hd; cases h; exact .inr (.inl ⟨hw, r, hd, rfl⟩)
            · rename_i e r hd; cases h; exact .inr (.inr ⟨hw, e, r, hd, rfl⟩)
  · cases h; exact .inl ⟨_, rfl⟩

end Sys2Proof.Machine
end

