-- ==== Sys2Proof/Laws/Step.lean ====
section
/-! SUPPORT. The step: which operation each agent's turn is, and the one way a command ends. -/

namespace Sys2Proof.Machine

/-- A command ends in `t` exactly when `t` is the finished state. -/
theorem complete_next {code : Option Err} {s t : State} : complete code s = .next t ↔ t = finish code s := by
  unfold complete
  exact ⟨fun h => by cases h; rfl, fun h => by rw [h]⟩

/-- The engine's turn is *complete* (44_control.md R232), whichever way it came about. -/
theorem step_of_engineAt {s s' : State} (h : s.EngineAt s') : step s = runCommand s' := by
  obtain ⟨hb, h⟩ := h
  rcases h with ⟨h, rfl⟩ | ⟨l, h, rfl⟩ | ⟨l, h, rfl⟩
  · simp only [step, advance, h, engineTurn, hb, if_true]
  · simp only [step, advance, h, engineTurn, hb, if_true]
  · simp only [step, advance, h, engineTurn, State.taken, hb, if_true, List.tail_cons]

theorem step_of_regWrite {s : State} {offset bytes : Nat} {v : Word} {l : List Action}
    (h : s.pending = .regWrite offset bytes v :: l) : step s = hostRegWrite offset bytes v { s with pending := l } := by
  simp only [step, advance, h, State.taken, List.tail_cons]

theorem step_of_regRead {s : State} {offset bytes : Nat} {l : List Action}
    (h : s.pending = .regRead offset bytes :: l) : step s = hostRegRead offset bytes { s with pending := l } := by
  simp only [step, advance, h, State.taken, List.tail_cons]

theorem step_of_memWrite {s : State} {a : Nat} {bs : List Byte} {l : List Action}
    (h : s.pending = .memWrite a bs :: l) : step s = hostMemWrite a bs { s with pending := l } := by
  simp only [step, advance, h, State.taken, List.tail_cons]

theorem step_of_memRead {s : State} {a n : Nat} {l : List Action}
    (h : s.pending = .memRead a n :: l) : step s = hostMemRead a n { s with pending := l } := by
  simp only [step, advance, h, State.taken, List.tail_cons]

theorem step_of_reset {s : State} {l : List Action} (h : s.pending = .reset :: l) :
    step s = .next (resetEngine { s with pending := l }) := by
  simp only [step, advance, h, State.taken, List.tail_cons]

theorem mem_addresses {x : Nat} (n : Nat) : ∀ {a : Nat}, x ∈ addresses a n ↔ a ≤ x ∧ x < a + n := by
  induction n with
  | zero => intro a; simp [addresses]
  | succ n ih => intro a; simp only [addresses, List.mem_cons, ih]; omega

/-- The first address with a property, if there is one, is one of the addresses and has it. -/
theorem firstWith_some {p : Nat → Bool} {l : List Nat} {x : Nat} (h : firstWith p l = some x) : x ∈ l ∧ p x = true :=
  ⟨List.mem_of_find?_eq_some h, List.find?_some h⟩

theorem firstWith_none {p : Nat → Bool} {l : List Nat} : firstWith p l = none ↔ ∀ x ∈ l, p x = false := by
  simp [firstWith]

theorem addresses_lt {a n k : Nat} (h : firstWith (fun x => decide (k ≤ x)) (addresses a n) = none) (hn : 0 < n) :
    a + n ≤ k := by
  have := firstWith_none.1 h (a + n - 1) (mem_addresses n |>.2 ⟨by omega, by omega⟩)
  have := of_decide_eq_false this
  omega

/-- Everything the engine's turn can do: end an illegal command, or run a legal one (44_control.md R232). -/
theorem runCommand_cases {s t : State} (h : runCommand s = .next t) :
    ((∃ e, decode s.cfg.width s.curCmd = .error e) ∧ t = finish (some .illegalCommand) s) ∨
      ∃ i, decode s.cfg.width s.curCmd = .ok i ∧ deviceInBuffer i s = none ∧ exec i s = .next t := by
  unfold runCommand at h
  split at h
  · rename_i e he; exact .inl ⟨⟨e, he⟩, complete_next.1 h⟩
  · rename_i i hi
    split at h
    · cases h
    · rename_i hd; exact .inr ⟨i, hi, hd, h⟩

/-- Everything a step that reaches a next state can be: an idle machine's, the engine's turn, or one host action
(44_control.md R238). -/
theorem step_cases {s t : State} (h : step s = .next t) :
    (s.status.busy = false ∧ (t = s ∨ ∃ l, s.pending = .engine :: l ∧ t = { s with pending := l })) ∨
    (∃ s', s.EngineAt s' ∧ runCommand s' = .next t) ∨
    (∃ l offset v, s.pending = .regWrite offset 8 v :: l ∧ accessOK offset 8 = true ∧
      t = writeSlot (slotAt offset) v { s with pending := l }) ∨
    (∃ l slot, t = readSlot slot { s with pending := l }) ∨
    (∃ l a bs, s.pending = .memWrite a bs :: l ∧ (0 < bs.length → a + bs.length ≤ s.cfg.space) ∧
      t = { s with pending := l, mem := s.mem.writeList a bs }) ∨
    (∃ l bs, t = { s with pending := l, seenMem := bs }) ∨
    ∃ l, s.pending = .reset :: l ∧ t = resetEngine { s with pending := l } := by
  cases hp : s.pending with
  | nil =>
    simp only [step, advance, hp, engineTurn] at h
    split at h
    · exact .inr (.inl ⟨s, ⟨by assumption, .inl ⟨hp, rfl⟩⟩, h⟩)
    · cases h; exact .inl ⟨by simp_all, .inl rfl⟩
  | cons x l =>
    cases x with
    | engine =>
      simp only [step, advance, hp, engineTurn, State.taken, List.tail_cons] at h
      split at h
      · exact .inr (.inl ⟨_, ⟨by assumption, .inr (.inr ⟨l, hp, rfl⟩)⟩, h⟩)
      · cases h; exact .inl ⟨by simp_all, .inr ⟨l, rfl, rfl⟩⟩
    | wait =>
      simp only [step, advance, hp, engineTurn, State.taken, List.tail_cons] at h
      split at h
      · rename_i hb
        exact .inr (.inl ⟨_, ⟨hb, .inr (.inl ⟨l, hp, rfl⟩)⟩, h⟩)
      · cases h; exact .inr (.inr (.inr (.inl ⟨l, _, rfl⟩)))
    | reset => rw [step_of_reset hp] at h; cases h; exact .inr (.inr (.inr (.inr (.inr (.inr ⟨l, rfl, rfl⟩)))))
    | regWrite offset bytes v =>
      rw [step_of_regWrite hp, hostRegWrite] at h
      split at h
      · rename_i ha
        obtain rfl : bytes = 8 := by simp [accessOK] at ha; exact ha.1.1
        cases h; exact .inr (.inr (.inl ⟨l, offset, v, rfl, ha, rfl⟩))
      · cases h
    | regRead offset bytes =>
      rw [step_of_regRead hp, hostRegRead] at h
      split at h
      · cases h; exact .inr (.inr (.inr (.inl ⟨l, _, rfl⟩)))
      · cases h
    | memWrite a bs =>
      rw [step_of_memWrite hp, hostMemWrite] at h
      split at h
      · cases h
      · rename_i hs
        split at h
        · cases h
        · split at h
          · cases h
          · cases h
            exact .inr (.inr (.inr (.inr (.inl ⟨l, a, bs, rfl, addresses_lt hs, rfl⟩))))
    | memRead a n =>
      rw [step_of_memRead hp, hostMemRead] at h
      split at h
      · cases h
      · split at h
        · cases h
        · split at h
          · cases h
          · cases h; exact .inr (.inr (.inr (.inr (.inr (.inl ⟨l, _, rfl⟩)))))

end Sys2Proof.Machine
end

