-- ==== Sys2Proof/Tests/Slice0.lean ====
section
/-! SUPPORT. Tests on small states, their expected results from 95_test_vectors.md, and for every statement with
hypotheses a state and operands that meet them. -/

namespace Sys2Proof.Tests

open Sys2Proof.Machine

/-- The next state of an outcome has the property. -/
def nextIs (o : Host.Outcome State Fault Refusal) (p : State → Bool) : Bool :=
  match o with
  | .next s => p s
  | .fault _ => false
  | .refused _ => false

/-- The bytes put into memory from address `a` upward. -/
def put (a : Nat) (bs : List Nat) (s : State) : State :=
  s.withMem (s.mem.writeList a (bs.map (BitVec.ofNat 8)))

/-- The bytes in memory from address `a` upward. -/
def bytes (a n : Nat) (s : State) : List Nat := (s.mem.readList a n).map BitVec.toNat

/-- After reset, with other registers. -/
def withRegs (r : Regs) : State := { State.reset with regs := r }

/-- A writer that has written nothing, over `cap` bytes from 0x100 (the start of L2.2). -/
def writer (cap data param : Nat) : State :=
  { withRegs { Regs.cleared with data := BitVec.ofNat 64 data, param := BitVec.ofNat 64 param } with
    wr := WrCursor.fresh 0x100 cap }

/-- A reader that has read nothing, over bytes at 0x200 (the start of L2.3). -/
def reader (bs : List Nat) (param : Nat) : State :=
  put 0x200 bs
    { withRegs { Regs.cleared with param := BitVec.ofNat 64 param } with rd := RdCursor.fresh 0x200 bs.length }

/-- Ready to ENCODE keys given as the bytes of the key array at 0x1000 (the start of L2.6). -/
def encoder (keyBytes : List Nat) (count hdr param dstLen : Nat) : State :=
  put 0x1000 keyBytes (withRegs { Regs.cleared with
    keyBase := 0x1000, keyCount := BitVec.ofNat 64 count, dstBase := 0x2000, dstLen := BitVec.ofNat 64 dstLen,
    hdrBits := BitVec.ofNat 7 hdr, param := BitVec.ofNat 64 param })

/-- Ready to DECODE bytes at 0x2000 to an output array at 0x3000 (the start of L2.6). -/
def decoder (bs : List Nat) (hdr param outCap : Nat) : State :=
  put 0x2000 bs (withRegs { Regs.cleared with
    srcBase := 0x2000, srcLen := BitVec.ofNat 64 bs.length, outBase := 0x3000, outCap := BitVec.ofNat 64 outCap,
    hdrBits := BitVec.ofNat 7 hdr, param := BitVec.ofNat 64 param })

/-- A command accepted and not complete. -/
def busy (c : Nat) (s : State) : State := accept (BitVec.ofNat 64 c) s

/-- One host action to come. -/
def act (x : Action) (s : State) : State := { s with pending := [x] }

/-- The keys 3, 4, 10 as bytes. -/
def keys3 : List Nat := [3, 0, 0, 0, 4, 0, 0, 0, 10, 0, 0, 0]

/-! ### Decoding and well-formedness -/

/-- 30_encoding.md R96 (e): N above W is the only ill-formed operand. -/
theorem test_wf_refuses :
    (Instr.wrBits 33).wf .w32 = false ∧ (Instr.rdBits 33).wf .w32 = false ∧ (Instr.wrBits 65).wf .w64 = false ∧
      (Instr.rdBits 127).wf .w64 = false ∧ (Instr.wrBits 32).wf .w32 = true ∧ (Instr.rdBits 64).wf .w64 = true := by
  decide

/-- 30_encoding.md R91, R94: OPC in bits 7:0, F bit 8, N bits 22:16, written out bit by bit, every command. -/
theorem test_decode_words :
    [0b00000000#64, 0b00000001#64, 0b0_00000010#64, 0b1_00000010#64, 0b0000101_00000000_00000011#64, 0b00000100#64,
      0b00000101#64, 0b0100000_00000000_00000110#64, 0b00001000#64, 0b00001001#64, 0b00001100#64, 0b0_00010000#64,
      0b1_00010000#64, 0b00010001#64].map (fun c => (decode .w32 c).toOption) =
    [some .nop, some .wrInit, some (.wrBit false), some (.wrBit true), some (.wrBits 5), some .rdInit, some .rdBit,
      some (.rdBits 32), some .encVal, some .decVal, some .estimate, some (.encode false), some (.encode true),
      some .decode] := by
  decide

/-- L2.1: the illegal values. -/
theorem test_decode_illegal :
    [0x100, 0x07, 0xFF, 0x203, 0x80000003, 0x100000000, 0x10005, 0x108, 0x210003, 0x111].all
      (fun c => (decode .w32 (BitVec.ofNat 64 c)).toOption.isNone) = true := by
  decide

/-- L2.1: the two widths differ in the largest N. -/
theorem test_decode_width :
    decode .w32 0x00210003 = .error .countTooLarge ∧ decode .w64 0x00210003 = .ok (.wrBits 33) ∧
      decode .w64 0x00400006 = .ok (.rdBits 64) ∧ decode .w64 0x007F0006 = .error .countTooLarge := by
  decide

/-- The words of the opcode table, as the table numbers their bits. -/
theorem test_decode_table : decodeTableWord 32 0x11 = some .decode ∧ decodeTableWord 32 0x7 = none := by decide

/-- The step runs a table word as the first command after reset. -/
theorem test_step_runs_word :
    nextIs (step (State.reset.withFetchWord 32 0x4)) (fun t => t.rd = RdCursor.fresh 0 0 && t.status.done) = true := by
  decide

/-! ### One step of each command -/

/-- L2.7: with CTRL = 1 NOP ends with STATUS = 0x0002 and IRQ = 1. -/
theorem test_nop :
    nextIs (step (busy 0 { State.reset with ie := true })) (fun t => slotValue t .status = 2 && irq t) = true := by
  decide

/-- L2.2: the region [0xFFFFFFFF, 2^32) is valid, one byte more is CONFIG_ERROR. -/
theorem test_wrInit :
    (nextIs (exec .wrInit (withRegs { Regs.cleared with dstBase := 0xFFFFFFFF, dstLen := 1 }))
        fun t => t.wr = WrCursor.fresh 0xFFFFFFFF 1 && slotValue t .status = 0x0002) = true ∧
      (nextIs (exec .wrInit (withRegs { Regs.cleared with dstBase := 0xFFFFFFFF, dstLen := 2 }))
        fun t => t.wr = WrCursor.fresh 0 0 && slotValue t .status = 0x0602) = true := by
  decide

/-- L2.2: WR_BIT 0 into a fresh byte leaves 7F. -/
theorem test_wrBit :
    nextIs (exec (.wrBit false) (writer 1 0 0)) (fun t => bytes 0x100 1 t = [0x7F] && t.wr.nbytes = 1 &&
      t.wr.shift = 7) = true := by
  decide

/-- L2.2: WR_BIT to a full buffer changes nothing but STATUS = 0x0102. -/
theorem test_wrBit_full :
    nextIs (exec (.wrBit true) (writer 0 0 0)) (fun t => t.mem = [] && slotValue t .status = 0x0102) = true := by
  decide

/-- L2.2: WR_BITS 12 of 0xABC. -/
theorem test_wrBits :
    nextIs (exec (.wrBits 12) (writer 2 0xABC 0)) (fun t => bytes 0x100 2 t = [0xAB, 0xCF] && t.wr.shift = 4) = true := by
  decide

/-- L2.2: the bits that fit stay, and the command is not rewound. -/
theorem test_wrBits_exhausted :
    nextIs (exec (.wrBits 12) (writer 1 0xABC 0)) (fun t => bytes 0x100 2 t = [0xAB, 0] && t.wr.nbytes = 1 &&
      t.wr.shift = 0 && slotValue t .status = 0x0102) = true := by
  decide

/-- 40_bitio.md R130: a source that ends past the address space is CONFIG_ERROR. -/
theorem test_rdInit :
    (nextIs (exec .rdInit (withRegs { Regs.cleared with srcBase := 0xFFFFFFFF, srcLen := 1 }))
        fun t => t.rd = RdCursor.fresh 0xFFFFFFFF 1) = true ∧
      (nextIs (exec .rdInit (withRegs { Regs.cleared with srcBase := 0xFFFFFFFF, srcLen := 2 }))
        fun t => slotValue t .status = 0x0602) = true := by
  decide

/-- L2.3: the first bit of A5. -/
theorem test_rdBit :
    nextIs (exec .rdBit (reader [0xA5] 0)) (fun t => t.regs.result = 1 && t.rd.nbytes = 1 && t.rd.shift = 7) = true := by
  decide

/-- L2.3: RD_BITS 12 of AB CF. -/
theorem test_rdBits :
    nextIs (exec (.rdBits 12) (reader [0xAB, 0xCF] 0)) (fun t => t.regs.result = 0xABC && t.rd.nbytes = 2 &&
      t.rd.shift = 4) = true := by
  decide

/-- L2.3: RD_BITS past the end takes what is left and leaves RESULT. -/
theorem test_rdBits_end :
    nextIs (exec (.rdBits 16) (reader [0xA5] 0)) (fun t => t.regs.result = 0 && t.rd.nbytes = 1 && t.rd.shift = 0 &&
      slotValue t .status = 0x0202) = true := by
  decide

/-- L2.4: 9 with p = 2 is 11001, then guard ones. -/
theorem test_encVal :
    nextIs (exec .encVal (writer 1 9 2)) (fun t => bytes 0x100 1 t = [0xCF] && t.wr.shift = 3) = true := by
  decide

/-- L2.4: PARAM = 32 at W = 32 is PARAM_RANGE with nothing written. -/
theorem test_encVal_range :
    nextIs (exec .encVal (writer 5 1 32)) (fun t => t.mem = [] && slotValue t .status = 0x0702) = true := by
  decide

/-- L2.4: CF read back with p = 2. -/
theorem test_decVal :
    nextIs (exec .decVal (reader [0xCF] 2)) (fun t => t.regs.result = 9 && t.rd.shift = 3) = true := by
  decide

/-- L2.4: 2^32 at W = 32 is DECODE_OVERFLOW, the bits consumed. -/
theorem test_decVal_overflow :
    nextIs (exec .decVal (reader [0xC0, 0, 0, 0, 0] 31)) (fun t => slotValue t .status = 0x0802 && t.rd.nbytes = 5 &&
      t.rd.shift = 6) = true := by
  decide

/-- L2.5: rows of the table. -/
theorem test_estimate :
    [estimate 1630 26 5, estimate 100 0 6, estimate 5 10 5, estimate 11 2 5, estimate 1023 1 4, estimate 1023 1 3,
      estimate 1000 1 0, estimate 0xFFFFFFFFFFFFFFFF 1 6] = [5, 0, 0, 2, 9, 7, 0, 63] := by
  decide

/-- L2.6: keys 3, 4, 10 with HDR_BITS = 3 and AUTO: PARAM = 1, bytes 34 DF. -/
theorem test_encode :
    nextIs (exec (.encode true) (encoder keys3 3 3 9 16)) (fun t => bytes 0x2000 3 t = [0x34, 0xDF, 0] &&
      t.regs.param = 1 && t.regs.result = 2 && t.wr.shift = 4 && slotValue t .status = 2) = true := by
  decide

/-- L2.6: keys 5, 5 are INVALID_INPUT at the second key. -/
theorem test_encode_invalid :
    nextIs (exec (.encode false) (encoder [5, 0, 0, 0, 5, 0, 0, 0] 2 0 2 16)) (fun t => slotValue t .status = 0x0402 &&
      t.wr.nbytes = 1 && t.wr.shift = 4) = true := by
  decide

/-- L2.6: 34 DF with HDR_BITS = 3 decodes to 3, 4, 10. -/
theorem test_decode :
    nextIs (exec .decode (decoder [0x34, 0xDF] 3 0 8)) (fun t => bytes 0x3000 12 t = keys3 && t.regs.result = 3 &&
      t.regs.param = 1 && t.rd.nbytes = 2 && t.rd.shift = 0 && slotValue t .status = 2) = true := by
  decide

/-- L2.6: OUT_CAP = 2 is OUTPUT_EXHAUSTED. -/
theorem test_decode_exhausted :
    nextIs (exec .decode (decoder [0x34, 0xDF] 3 0 2)) (fun t => slotValue t .status = 0x0302 && t.regs.result = 0) =
      true := by
  decide

/-- L2.7: ID reads 0x2020 for W = A = 32 and 0x3040 for W = 64, A = 48. -/
theorem test_id :
    slotValue State.reset .id = 0x2020 ∧
      idWord { Config.standard with width := .w64, addrBits := 48 } = 0x3040 := by
  decide

/-- L2.7: a write to DATA while BUSY = 1 is dropped and sets OVR; CTRL = 3 then resets everything. -/
theorem test_host_writes :
    (nextIs (step (act (.regWrite 0x30 8 5) (busy 0 State.reset))) fun t => t.regs.data = 0 && t.status.ovr) = true ∧
      (nextIs (step (act (.regWrite 0x08 8 3) (withRegs { Regs.cleared with param := 9 })))
        fun t => t.regs = Regs.cleared && !t.ie) = true := by
  decide

/-! ### For every statement with hypotheses, what meets them -/

theorem next_of_nextIs {o : Host.Outcome State Fault Refusal} {p : State → Bool} (h : nextIs o p = true) :
    ∃ t, o = .next t ∧ p t = true := by
  cases o with
  | next s => exact ⟨s, rfl, h⟩
  | fault r => cases h
  | refused r => cases h

/-- A busy state with nothing pending is the engine's turn. -/
theorem engineAt_self {s : State} (h : s.status.busy = true) (hp : s.pending = []) : s.EngineAt s :=
  ⟨h, .inl ⟨hp, rfl⟩⟩

theorem answers {s : State} (h : s.cfg.holes = []) (r : Region) : s.cfg.Answers r :=
  Config.answers_of_no_holes h r

theorem answers_of_check {c : Config} {r : Region}
    (h : (List.range r.len).all (fun i => c.accessible (r.base + i)) = true) : c.Answers r := by
  intro a h1 h2
  have := List.all_eq_true.1 h (a - r.base) (List.mem_range.2 (by omega))
  rwa [Nat.add_sub_cancel' h1] at this

theorem holdsFirst_of (s : State) (ks : List Nat) (hl : ks.length ≤ s.regs.keyCount.toNat)
    (h : (List.range ks.length).all (fun i =>
      decide ((loadKey s.cfg s.mem s.regs.keyBase.toNat i).toOption = ks[i]?)) = true) : s.HoldsFirst ks := by
  refine ⟨hl, fun i hi => ?_⟩
  have := of_decide_eq_true (List.all_eq_true.1 h i (List.mem_range.2 hi))
  rw [List.getElem?_eq_getElem hi] at this
  cases hk : loadKey s.cfg s.mem s.regs.keyBase.toNat i with
  | error e => rw [hk] at this; cases this
  | ok v => rw [hk] at this; simpa [Except.toOption] using this

/-- A hole over the byte at `a`. -/
def holedAt (a : Nat) (s : State) : State :=
  { s with cfg := { Config.standard with holes := [{ base := a, len := 1 }] } }

theorem witness_DecodeOfEncode : (Instr.wrBits 32).wf .w32 = true ∧ (Instr.rdBits 64).wf .w64 = true := by decide

theorem witness_EncodeOfDecode :
    decode .w32 0x00200003 = .ok (.wrBits 32) ∧ decode .w64 0x00400006 = .ok (.rdBits 64) := by decide

theorem witness_IllegalCommand :
    (busy 7 State.reset).EngineAt (busy 7 State.reset) ∧ ∃ e, decode .w32 (busy 7 State.reset).curCmd = .error e :=
  ⟨engineAt_self rfl rfl, .reservedOpcode, by decide⟩

/-- Each of the three ways the engine's turn comes about. -/
theorem witness_StepRunsDecoded :
    (busy 0 State.reset).EngineAt (busy 0 State.reset) ∧
      (act .wait (busy 0 State.reset)).EngineAt (act .wait (busy 0 State.reset)) ∧
      (act .engine (busy 0 State.reset)).EngineAt (busy 0 State.reset) ∧
      decode .w32 (busy 0 State.reset).curCmd = .ok .nop ∧ deviceInBuffer .nop (busy 0 State.reset) = none :=
  ⟨engineAt_self rfl rfl, ⟨rfl, .inr (.inl ⟨[], rfl, rfl⟩)⟩, ⟨rfl, .inr (.inr ⟨[], rfl, rfl⟩)⟩, by decide, by decide⟩

/-- A device at the last byte of the writer's buffer. -/
def deviceState : State :=
  busy 2 { writer 2 0 0 with cfg := { Config.standard with devices := [{ base := 0x101, len := 1 }] } }

/-- The WR_BIT that is refused; and for each command whose taking of its buffers hangs on something, operands that meet
it. -/
theorem witness_DeviceBufferRefused :
    (deviceState.EngineAt deviceState ∧ decode .w32 deviceState.curCmd = .ok (.wrBit false) ∧
        deviceState.cfg.isDevice 0x101 = true ∧ (writeFootprint (.wrBit false) deviceState).contains 0x101 = true) ∧
      (writer 1 9 2).paramVal < (writer 1 9 2).keyBits ∧ (encoder keys3 3 3 7 16).EncodeChecks ∧
      ((encoder keys3 3 3 7 16).paramVal < (encoder keys3 3 3 7 16).keyBits ∧
        (encoder keys3 3 3 7 16).paramVal < 2 ^ (encoder keys3 3 3 7 16).hdr) ∧
      (decoder [0x34] 0 31 1).DecodeChecks ∧ (decoder [0x34] 0 31 1).paramVal < (decoder [0x34] 0 31 1).keyBits :=
  ⟨⟨engineAt_self rfl rfl, by decide, by decide, by decide⟩, by decide, (encodeConfigOK_iff _).1 (by decide), by decide,
    (decodeConfigOK_iff _).1 (by decide), by decide⟩

/-- An ENCODE with AUTO = 1, and a DECODE whose source is too short for its header. -/
theorem witness_CodesOfEachCommand :
    (∃ t, exec (.encode true) (encoder keys3 3 3 9 16) = .next t) ∧
      ∃ t, exec .decode (decoder [] 3 0 8) = .next t ∧ decide (t.status.err = some .endOfStream) = true :=
  ⟨(next_of_nextIs (p := fun _ => true) (by decide)).imp fun _ h => h.1,
    next_of_nextIs (p := fun t => decide (t.status.err = some .endOfStream)) (by decide)⟩

theorem witness_StepKeepsInvariant :
    (busy 0x110 (encoder keys3 3 3 9 16)).Inv ∧ ∃ t, step (busy 0x110 (encoder keys3 3 3 9 16)) = .next t :=
  ⟨State.inv_of_check (by decide), (next_of_nextIs (p := fun _ => true) (by decide)).imp fun _ h => h.1⟩

theorem witness_ParametersAreFixed : ∃ t, step (act .reset State.reset) = .next t := ⟨_, rfl⟩

/-- Idle and busy; the first and the last address of the write footprint, and the next one. -/
theorem witness_HardwareReset :
    (act .reset State.reset).pending = [.reset] ∧ (act .reset State.reset).status.busy = false ∧
      (act .reset (busy 0x110 (encoder keys3 3 3 9 16))).pending = [.reset] ∧
      (busy 0x110 (encoder keys3 3 3 9 16)).status.busy = true ∧
      decode .w32 (busy 0x110 (encoder keys3 3 3 9 16)).curCmd = .ok (.encode true) ∧
      [0x1FFF, 0x2000, 0x200F, 0x2010].map (writeFootprint (.encode true) (encoder keys3 3 3 9 16)).contains =
        [false, true, true, false] := by
  decide

/-- A busy engine, and each of the three ways its command stops running. -/
theorem witness_SoftReset :
    (2 : Word).getLsbD 1 = true ∧ (3 : Word).getLsbD 1 = true ∧ (busy 0 State.reset).status.busy = true ∧
      [Action.engine, .reset, .regWrite 0x08 8 3].all
        (fun x => nextIs (step (act x (busy 0 State.reset))) fun t => !t.status.busy) = true := by
  decide

theorem witness_CommandAcceptance :
    (act (.regWrite 0x18 8 1) State.reset).pending = [.regWrite 0x18 8 1] ∧ State.reset.status.busy = false ∧
      (act (.regWrite 0x18 8 1) (busy 0 State.reset)).pending = [.regWrite 0x18 8 1] ∧
      (busy 0 State.reset).status.busy = true := by
  decide

/-- Each clause: a guarded slot, CTRL with and without SRST, STATUS, a read-only and a reserved slot. -/
theorem witness_WritesWhileBusy :
    (busy 0 State.reset).status.busy = true ∧
      [0x20, 0x80, 0x08, 0x10, 0x40, 0xF8].all (fun o =>
        decide ((act (.regWrite o 8 1) (busy 0 State.reset)).pending = [.regWrite o 8 1])) = true ∧
      (1 : Word).getLsbD 1 = false ∧ (2 : Word).getLsbD 1 = true := by
  decide

theorem witness_WritesWhileIdle : State.reset.status.busy = false ∧ 0xF8 ∈ [0x00, 0x40, 0xF8] := by decide

theorem witness_CtrlRegister :
    (act (.regWrite 0x08 8 1) State.reset).pending = [.regWrite 0x08 8 1] ∧ (1 : Word).getLsbD 1 = false ∧
      (act (.regWrite 0x08 8 3) State.reset).pending = [.regWrite 0x08 8 3] ∧ (3 : Word).getLsbD 1 = true := by
  decide

theorem witness_StatusRegister :
    (63 : Nat) < 64 ∧ (act (.regWrite 0x10 8 6) State.reset).pending = [.regWrite 0x10 8 6] := by decide

theorem witness_RegisterReads :
    (act (.regRead 0xA0 8) (busy 0 State.reset)).pending = [.regRead 0xA0 8] ∧
      ((busy 0 State.reset).status.busy = true ∧ 0xA0 ∈ [0x20, 0x40, 0x88, 0x90, 0x98, 0xA0]) ∧
      (act (.regRead 0xF8 8) State.reset).pending = [.regRead 0xF8 8] ∧
      ¬(State.reset.status.busy = true ∧ 0xF8 ∈ [0x20, 0x40, 0x88, 0x90, 0x98, 0xA0]) := by
  decide

theorem witness_RegisterContents : (encoder keys3 3 3 9 16).Inv ∧ 0xA8 ≤ 0xF8 ∧ 0xF8 < 0x100 :=
  ⟨State.inv_of_check (by decide), by decide, by decide⟩

theorem witness_PartialRegisterAccess : (4 ≠ 8) ∧ (0x1C % 8 ≠ 0) ∧ (0x100 ≤ 0x100) := by decide

/-- A state whose interrupt is up, and the writes that take it down. -/
def irqState : State := { State.reset with ie := true, status := { Status.cleared with done := true } }

theorem witness_InterruptClearing :
    irq irqState = true ∧ irqState.status.busy = false ∧ (2 : Word).getLsbD 1 = true ∧ (0 : Word).getLsbD 0 = false ∧
      (0 : Word).getLsbD 1 = false ∧
      [Action.regWrite 0x10 8 2, .regWrite 0x18 8 0, .reset, .regWrite 0x08 8 2, .regWrite 0x08 8 0].all
        (fun x => decide ((act x irqState).pending = [x]) && nextIs (step (act x irqState)) fun _ => true) = true := by
  decide

/-- A write to WR_NBYTES while a command runs. -/
theorem witness_HostCannotSetCursors :
    (act (.regWrite 0x88 8 5) (busy 2 State.reset)).status.busy = true ∧
      (nextIs (step (act (.regWrite 0x88 8 5) (busy 2 State.reset))) fun _ => true) = true ∧
      (∀ s', ¬(act (.regWrite 0x88 8 5) (busy 2 State.reset)).EngineAt s') ∧
      (∀ l, (act (.regWrite 0x88 8 5) (busy 2 State.reset)).pending ≠ .reset :: l) ∧
      ∀ l v, (act (.regWrite 0x88 8 5) (busy 2 State.reset)).pending = .regWrite 0x08 8 v :: l → v.getLsbD 1 = false :=
  ⟨by decide, by decide, fun s' h => by simp [State.EngineAt, act] at h, fun l h => by simp [act] at h,
    fun l v h => by simp [act] at h⟩

/-- An ENCODE that changes both RESULT and PARAM. -/
theorem witness_ResultAndParamWriters :
    ∃ t, exec (.encode true) (encoder keys3 3 3 9 16) = .next t ∧
      (decide (t.regs.result ≠ (encoder keys3 3 3 9 16).regs.result) &&
        decide (t.regs.param ≠ (encoder keys3 3 3 9 16).regs.param)) = true :=
  next_of_nextIs (p := fun t => decide (t.regs.result ≠ (encoder keys3 3 3 9 16).regs.result) &&
    decide (t.regs.param ≠ (encoder keys3 3 3 9 16).regs.param)) (by decide)

/-- A writer command accepted over the two bytes 0x100, 0x101, and one host action. -/
def writing (x : Action) : State := act x (busy 2 (writer 2 0 0))

/-- The last byte of the footprint, and the first one past it. -/
theorem witness_HostMemoryWrites :
    (writing (.memWrite 0x101 [1])).pending = [.memWrite 0x101 [1]] ∧
      (runningWrites (writing (.memWrite 0x101 [1]))).contains 0x101 = true ∧
      (runningWrites (writing (.memWrite 0x102 [1]))).contains 0x102 = false ∧
      (runningReads (writing (.memWrite 0x102 [1]))).contains 0x102 = false ∧
      (writing (.memWrite 0x102 [1])).cfg.isDevice 0x102 = false ∧ 0x102 + 1 ≤ State.reset.cfg.space := by
  decide

theorem witness_HostMemoryReads :
    (writing (.memRead 0x100 1)).pending = [.memRead 0x100 1] ∧
      (runningWrites (writing (.memRead 0x100 1))).contains 0x100 = true ∧
      (runningWrites (writing (.memRead 0xFF 1))).contains 0xFF = false ∧
      (writing (.memRead 0xFF 1)).cfg.isDevice 0xFF = false ∧ 0x100 + 1 ≤ State.reset.cfg.space := by
  decide

/-- An idle engine, a busy one whose command is illegal, and a busy one whose command is not. -/
theorem witness_FootprintTable :
    State.reset.status.busy = false ∧
      ((busy 7 State.reset).status.busy = true ∧ decode .w32 (busy 7 State.reset).curCmd = .error .reservedOpcode) ∧
      (busy 0x11 State.reset).status.busy = true ∧ decode .w32 (busy 0x11 State.reset).curCmd = .ok .decode := by
  decide

theorem witness_KeyStoredIsLoaded :
    2 ^ 32 - 1 < 2 ^ Config.standard.width.bits ∧ Config.standard.Answers { base := 0x3000 + 2 * 4, len := 4 } :=
  ⟨by decide, Config.answers_of_no_holes rfl _⟩

/-- The largest region that fits, and the smallest that does not. -/
theorem witness_WrInitCompletes :
    [1, 2].map (fun n => decide ((withRegs { Regs.cleared with dstBase := 0xFFFFFFFF, dstLen := n }).regs.dstBase.toNat +
      (withRegs { Regs.cleared with dstBase := 0xFFFFFFFF, dstLen := n }).regs.dstLen.toNat ≤ 2 ^ 32)) =
      [true, false] := by
  decide

theorem witness_RdInitCompletes :
    [1, 2].map (fun n => decide ((withRegs { Regs.cleared with srcBase := 0xFFFFFFFF, srcLen := n }).regs.srcBase.toNat +
      (withRegs { Regs.cleared with srcBase := 0xFFFFFFFF, srcLen := n }).regs.srcLen.toNat ≤ 2 ^ 32)) =
      [true, false] := by
  decide

/-- A writer in the middle of its only byte. -/
def midByte (s : State) : State := { s with wr := { base := 0x100, cap := 2, nbytes := 1, shift := 3, byte := 0xCF } }

/-- The four cases: full, at a hole, at a byte that answers, within a byte. -/
theorem witness_WrBitCompletes :
    ((writer 0 0 0).wr.shift = 0 ∧ (writer 0 0 0).wr.nbytes = (writer 0 0 0).wr.cap) ∧
      (holedAt 0x101 { writer 2 0 0 with wr := { (WrCursor.fresh 0x100 2) with nbytes := 1 } }).cfg.accessible (0x100 + 1) =
        false ∧
      ((writer 1 0 0).wr.nbytes < (writer 1 0 0).wr.cap ∧ (writer 1 0 0).cfg.accessible 0x100 = true) ∧
      (midByte State.reset).wr.shift.val = 2 + 1 := by
  decide

/-- A string of exactly the free bits, and one bit more. -/
theorem witness_WriterClosedForm :
    (midByte State.reset).wr.Sound Config.standard ∧
      Config.standard.Answers ((midByte State.reset).wr.opens (midByte State.reset).wr.free) ∧
      (midByte State.reset).wr.free = 11 ∧ (List.replicate 11 false).length ≤ 11 ∧
      11 < (List.replicate 12 false).length :=
  ⟨WrCursor.sound_of_check (by decide), Config.answers_of_no_holes rfl _, by decide, by decide, by decide⟩

/-- The second byte of the buffer is the hole, three bits away: for a bit string, WR_BITS 4 and ENC_VAL of 4 with p = 0;
and for ENCODE of 3, 4, 10, whose stream has 12 bits. -/
theorem witness_WriterBusError :
    ((holedAt 0x101 (midByte (writer 2 4 0))).wr.Sound (holedAt 0x101 (midByte (writer 2 4 0))).cfg ∧
        (holedAt 0x101 (midByte (writer 2 4 0))).cfg.FirstHole 0x100 1 1 ∧
        1 < (midByte (writer 2 4 0)).wr.cap ∧ 4 ≤ (holedAt 0x101 (midByte (writer 2 4 0))).keyBits ∧
        8 * 1 - (midByte (writer 2 4 0)).wr.pos < 4 ∧
        (holedAt 0x101 (midByte (writer 2 4 0))).paramVal < (holedAt 0x101 (midByte (writer 2 4 0))).keyBits ∧
        8 * 1 - (midByte (writer 2 4 0)).wr.pos < (codeword 0 4).length) ∧
      (holedAt 0x2001 (encoder keys3 3 3 9 2)).Inv ∧ (holedAt 0x2001 (encoder keys3 3 3 9 2)).EncodeChecks ∧
      (holedAt 0x2001 (encoder keys3 3 3 9 2)).HoldsFirst [3, 4, 10] ∧ AscendsFrom 0 [3, 4, 10] ∧
      (holedAt 0x2001 (encoder keys3 3 3 9 2)).EncodeParamIs true 1 ∧
      (holedAt 0x2001 (encoder keys3 3 3 9 2)).cfg.FirstHole 0x2000 0 1 ∧ 8 * 1 < (stream 3 1 [3, 4, 10]).length :=
  ⟨⟨WrCursor.sound_of_check (by decide), ⟨by decide, answers_of_check (by decide), by decide⟩, by decide, by decide,
      by decide, by decide, by decide⟩,
    State.inv_of_check (by decide), (encodeConfigOK_iff _).1 (by decide), holdsFirst_of _ _ (by decide) (by decide),
    ⟨by decide, by decide, by decide, trivial⟩, ⟨10, by decide, by decide⟩,
    ⟨by decide, answers_of_check (by decide), by decide⟩, by decide⟩

theorem witness_WrBitsCompletes :
    11 ≤ (midByte State.reset).keyBits ∧ (midByte State.reset).wr.Sound State.reset.cfg ∧
      State.reset.cfg.Answers ((midByte State.reset).wr.opens 11) ∧ 11 ≤ (midByte State.reset).wr.free ∧
      (midByte State.reset).wr.free < 12 :=
  ⟨by decide, WrCursor.sound_of_check (by decide), answers rfl _, by decide, by decide⟩

theorem witness_RdBitCompletes :
    ((reader [] 0).rd.shift = 0 ∧ (reader [] 0).rd.nbytes = (reader [] 0).rd.len) ∧
      (holedAt 0x101 { reader [0xA5] 0 with rd := RdCursor.fresh 0x101 1 }).cfg.accessible (0x101 + 0) = false ∧
      ((reader [0xA5] 0).rd.nbytes < (reader [0xA5] 0).rd.len ∧ (reader [0xA5] 0).cfg.accessible 0x200 = true) ∧
      ({ base := 0x200, len := 1, nbytes := 1, shift := 7, byte := 0xA5 } : RdCursor).shift.val = 6 + 1 := by
  decide

theorem witness_RdBitsCompletes :
    16 ≤ (reader [0xA5, 0xCF] 0).keyBits ∧ (reader [0xA5, 0xCF] 0).rd.Sound State.reset.cfg ∧
      State.reset.cfg.Answers ((reader [0xA5, 0xCF] 0).rd.opens 16) ∧ 16 ≤ avail (reader [0xA5, 0xCF] 0).rd ∧
      avail (reader [0xA5, 0xCF] 0).rd < 17 :=
  ⟨by decide, RdCursor.sound_of_check (by decide), answers rfl _, by decide, by decide⟩

/-- PARAM = W, and a codeword of 5 bits into 8 and into 0 free bits. -/
theorem witness_EncValCompletes :
    (writer 1 9 32).keyBits ≤ (writer 1 9 32).paramVal ∧ (writer 1 9 2).paramVal < (writer 1 9 2).keyBits ∧
      (writer 1 9 2).wr.Sound State.reset.cfg ∧ State.reset.cfg.Answers ((writer 1 9 2).wr.opens 5) ∧
      (codeword 2 9).length ≤ (writer 1 9 2).wr.free ∧ (writer 0 9 2).wr.free < (codeword 2 9).length :=
  ⟨by decide, by decide, WrCursor.sound_of_check (by decide), answers rfl _, by decide, by decide⟩

/-- PARAM = W; the codeword 11001 with guard ones after it; and ones alone. -/
theorem witness_DecValCompletes :
    (reader [] 32).keyBits ≤ (reader [] 32).paramVal ∧ (reader [0xCF] 2).paramVal < (reader [0xCF] 2).keyBits ∧
      (reader [0xCF] 2).rd.Sound State.reset.cfg ∧ State.reset.cfg.Answers ((reader [0xCF] 2).rd.opens 5) ∧
      unread (reader [0xCF] 2).mem (reader [0xCF] 2).rd =
        List.replicate 2 true ++ false :: [false, true] ++ [true, true, true] ∧
      NoCodeword 0 (unread (reader [0xFF] 0).mem (reader [0xFF] 0).rd) :=
  ⟨by decide, by decide, RdCursor.sound_of_check (by decide), answers rfl _, by decide, .inl ⟨8, by decide⟩⟩

theorem witness_ValueRoundTrip :
    (reader [0xCF] 2).rd.Sound Config.standard ∧ Config.standard.Answers ((reader [0xCF] 2).rd.opens 5) ∧
      9 < 2 ^ Config.standard.width.bits ∧ 2 < Config.standard.width.bits ∧
      unread (reader [0xCF] 2).mem (reader [0xCF] 2).rd = codeword 2 9 ++ [true, true, true] :=
  ⟨RdCursor.sound_of_check (by decide), Config.answers_of_no_holes rfl _, by decide, by decide, by decide⟩

/-- A reader at a hole; one whose second byte, eight bits away, is a hole, with RD_BITS 9 and with DEC_VAL of ones; and
DECODE of one key, 3, with the hole after its four bits and four ones. -/
theorem witness_ReaderBusError :
    ((RdCursor.fresh 0x101 1).shift = 0 ∧ (RdCursor.fresh 0x101 1).nbytes < (RdCursor.fresh 0x101 1).len ∧
        (holedAt 0x101 State.reset).cfg.accessible ((RdCursor.fresh 0x101 1).base + (RdCursor.fresh 0x101 1).nbytes) =
          false ∧
        (0 : Nat) < 1 ∧ State.reset.paramVal < State.reset.keyBits) ∧
      ((holedAt 0x201 (reader [0xFF, 0] 0)).rd.Sound (holedAt 0x201 (reader [0xFF, 0] 0)).cfg ∧
        (holedAt 0x201 (reader [0xFF, 0] 0)).cfg.FirstHole 0x200 0 1 ∧ 1 < (reader [0xFF, 0] 0).rd.len ∧
        9 ≤ (reader [0xFF, 0] 0).keyBits ∧ 8 * 1 - (reader [0xFF, 0] 0).rd.pos < 9 ∧
        NoCodeword 0 (unread (reader [0xFF, 0] 0).mem ((reader [0xFF, 0] 0).rd.upto 1))) ∧
      (holedAt 0x2001 (decoder [0xEF, 0] 0 0 8)).Inv ∧ (holedAt 0x2001 (decoder [0xEF, 0] 0 0 8)).DecodeChecks ∧
      (holedAt 0x2001 (decoder [0xEF, 0] 0 0 8)).DecodeParamIs 0 ∧
      (holedAt 0x2001 (decoder [0xEF, 0] 0 0 8)).cfg.FirstHole 0x2000 0 1 ∧
      1 < (decoder [0xEF, 0] 0 0 8).regs.srcLen.toNat ∧
      (holedAt 0x2001 (decoder [0xEF, 0] 0 0 8)).cfg.Answers { base := 0x3000, len := [3].length * 4 } ∧
      AscendsFrom 0 [3] ∧ NoCodeword 0 [true, true, true, true] ∧
      memBits (decoder [0xEF, 0] 0 0 8).mem 0x2000 1 = stream 0 0 [3] ++ [true, true, true, true] :=
  ⟨by decide,
    ⟨RdCursor.sound_of_check (by decide), ⟨by decide, answers_of_check (by decide), by decide⟩, by decide, by decide,
      by decide, .inl ⟨8, by decide⟩⟩,
    State.inv_of_check (by decide), (decodeConfigOK_iff _).1 (by decide), ⟨by decide, by decide⟩,
    ⟨by decide, answers_of_check (by decide), by decide⟩, by decide, answers_of_check (by decide), ⟨by decide, trivial⟩,
    .inl ⟨4, rfl⟩, by decide⟩

/-- ESTIMATE's operands after reset otherwise. -/
def estimator (data count hdr : Nat) : State :=
  withRegs { Regs.cleared with
    data := BitVec.ofNat 64 data, count := BitVec.ofNat 64 count, hdrBits := BitVec.ofNat 7 hdr }

/-- HDR_BITS = W + 1; and delta 62, between 2^5 and 2^6, with HDR_BITS = 5 and, clamped, with HDR_BITS = 2. -/
theorem witness_EstimateCompletes :
    (estimator 1 1 33).keyBits < (estimator 1 1 33).hdr ∧
      (estimator 1630 26 5).hdr ≤ (estimator 1630 26 5).keyBits ∧ (estimator 1630 26 5).regs.count.toNat ≠ 0 ∧
      (estimator 1630 26 5).regs.data.toNat / (estimator 1630 26 5).regs.count.toNat = 62 ∧
      ∀ q, 2 ^ q ≤ 62 → 62 < 2 ^ (q + 1) → 5 = min q (2 ^ 5 - 1) ∧ 3 = min q (2 ^ 2 - 1) := by
  refine ⟨by decide, by decide, by decide, by decide, fun q h h' => ?_⟩
  have hq : q < 6 := by
    by_contra hn
    have : 2 ^ 6 ≤ 2 ^ q := Nat.pow_le_pow_right (by decide) (by omega)
    omega
  interval_cases q <;> omega

theorem witness_EstimateBounds : 2 ^ 32 - 1 < 2 ^ KeyWidth.w32.bits ∧ 0 < 1 ∧ 1 ≤ (2 ^ 32 - 1) / 1 := by decide

/-- HDR_BITS above W; PARAM = 8 with HDR_BITS = 3; a hole over the last byte of the last key; PARAM = W without a
header. -/
theorem witness_SetCodecRefusals :
    ¬(encoder keys3 3 33 0 16).EncodeChecks ∧ (encoder keys3 3 3 8 16).EncodeChecks ∧
      (0 < (encoder keys3 3 3 8 16).hdr ∧ 2 ^ (encoder keys3 3 3 8 16).hdr ≤ (encoder keys3 3 3 8 16).paramVal) ∧
      ((holedAt 0x100B (encoder keys3 3 3 8 16)).EncodeChecks ∧ 0 < (encoder keys3 3 3 8 16).regs.keyCount.toNat ∧
        (holedAt 0x100B (encoder keys3 3 3 8 16)).cfg.KeyHole 0x1000 (3 - 1)) ∧
      ¬(decoder [0x34] 33 0 1).DecodeChecks ∧ (decoder [0x34] 0 32 1).DecodeChecks ∧ (decoder [0x34] 0 32 1).hdr = 0 ∧
      (decoder [0x34] 0 32 1).keyBits ≤ (decoder [0x34] 0 32 1).paramVal :=
  ⟨fun h => absurd h.header (by decide), (encodeConfigOK_iff _).1 (by decide), by decide,
    ⟨(encodeConfigOK_iff _).1 (by decide), by decide, 3, by decide, by decide⟩,
    fun h => absurd h.header (by decide), (decodeConfigOK_iff _).1 (by decide), by decide, by decide⟩

/-- Keys 3, 4, 10 with AUTO: the 12 bits of the stream in 2 bytes, the destination as long as they need. -/
theorem witness_EncodeWritesStream :
    (encoder keys3 3 3 9 2).Inv ∧ (encoder keys3 3 3 9 2).EncodeChecks ∧ (encoder keys3 3 3 9 2).HoldsKeys [3, 4, 10] ∧
      AscendsFrom 0 [3, 4, 10] ∧ (encoder keys3 3 3 9 2).EncodeParamIs true 1 ∧
      State.reset.cfg.Answers { base := 0x2000, len := bytesFor (stream 3 1 [3, 4, 10]).length } ∧
      bytesFor (stream 3 1 [3, 4, 10]).length ≤ (encoder keys3 3 3 9 2).regs.dstLen.toNat :=
  ⟨State.inv_of_check (by decide), (encodeConfigOK_iff _).1 (by decide),
    ⟨by decide, holdsFirst_of _ _ (by decide) (by decide)⟩, ⟨by decide, by decide, by decide, trivial⟩,
    ⟨10, by decide, by decide⟩, answers rfl _, by decide⟩

/-- Keys 5, 5; and the same with a hole over the first byte of the second key. -/
theorem witness_EncodeInvalidInput :
    ((encoder [5, 0, 0, 0, 5, 0, 0, 0] 2 0 2 16).Inv ∧ (encoder [5, 0, 0, 0, 5, 0, 0, 0] 2 0 2 16).EncodeChecks ∧
        (encoder [5, 0, 0, 0, 5, 0, 0, 0] 2 0 2 16).HoldsFirst [5] ∧
        [5].length < (encoder [5, 0, 0, 0, 5, 0, 0, 0] 2 0 2 16).regs.keyCount.toNat ∧ AscendsFrom 0 [5] ∧
        (encoder [5, 0, 0, 0, 5, 0, 0, 0] 2 0 2 16).EncodeParamIs false 2 ∧
        State.reset.cfg.Answers { base := 0x2000, len := bytesFor (stream 0 2 [5]).length } ∧
        bytesFor (stream 0 2 [5]).length ≤ (encoder [5, 0, 0, 0, 5, 0, 0, 0] 2 0 2 16).regs.dstLen.toNat ∧
        loadKey State.reset.cfg (encoder [5, 0, 0, 0, 5, 0, 0, 0] 2 0 2 16).mem 0x1000 1 = .ok 5 ∧
        ¬AscendsFrom 0 ([5] ++ [5])) ∧
      (holedAt 0x1004 (encoder [5, 0, 0, 0, 5, 0, 0, 0] 2 0 2 16)).Inv ∧
      (holedAt 0x1004 (encoder [5, 0, 0, 0, 5, 0, 0, 0] 2 0 2 16)).EncodeChecks ∧
      (holedAt 0x1004 (encoder [5, 0, 0, 0, 5, 0, 0, 0] 2 0 2 16)).HoldsFirst [5] ∧
      (holedAt 0x1004 (encoder [5, 0, 0, 0, 5, 0, 0, 0] 2 0 2 16)).cfg.Answers
        { base := 0x2000, len := bytesFor (stream 0 2 [5]).length } ∧
      (holedAt 0x1004 (encoder [5, 0, 0, 0, 5, 0, 0, 0] 2 0 2 16)).cfg.KeyHole 0x1000 1 :=
  ⟨⟨State.inv_of_check (by decide), (encodeConfigOK_iff _).1 (by decide), holdsFirst_of _ _ (by decide) (by decide),
      by decide, ⟨by decide, trivial⟩, ⟨by decide, by decide, by decide⟩, answers rfl _, by decide, by decide,
      fun h => absurd h.2.1 (by decide)⟩,
    State.inv_of_check (by decide), (encodeConfigOK_iff _).1 (by decide), holdsFirst_of _ _ (by decide) (by decide),
    answers_of_check (by decide), 0, by decide, by decide⟩

/-- Keys 3, 4, 10 with a destination one byte too short. -/
theorem witness_EncodeBufferExhausted :
    (encoder keys3 3 3 9 1).Inv ∧ (encoder keys3 3 3 9 1).EncodeChecks ∧ (encoder keys3 3 3 9 1).HoldsFirst [3, 4, 10] ∧
      AscendsFrom 0 [3, 4, 10] ∧ (encoder keys3 3 3 9 1).EncodeParamIs true 1 ∧
      State.reset.cfg.Answers (encoder keys3 3 3 9 1).dstRegion ∧
      (encoder keys3 3 3 9 1).regs.dstLen.toNat < bytesFor (stream 3 1 [3, 4, 10]).length :=
  ⟨State.inv_of_check (by decide), (encodeConfigOK_iff _).1 (by decide), holdsFirst_of _ _ (by decide) (by decide),
    ⟨by decide, by decide, by decide, trivial⟩, ⟨10, by decide, by decide⟩, answers rfl _, by decide⟩

/-- 34 DF into an output array of exactly three keys. -/
theorem witness_DecodeStoresKeys :
    (decoder [0x34, 0xDF] 3 0 3).Inv ∧ (decoder [0x34, 0xDF] 3 0 3).DecodeChecks ∧
      (decoder [0x34, 0xDF] 3 0 3).DecodeParamIs 1 ∧ State.reset.cfg.Answers (decoder [0x34, 0xDF] 3 0 3).srcRegion ∧
      State.reset.cfg.Answers { base := 0x3000, len := [3, 4, 10].length * 4 } ∧ AscendsFrom 0 [3, 4, 10] ∧
      (∀ k ∈ [3, 4, 10], k < 2 ^ (decoder [0x34, 0xDF] 3 0 3).keyBits) ∧
      [3, 4, 10].length ≤ (decoder [0x34, 0xDF] 3 0 3).regs.outCap.toNat ∧ NoCodeword 1 [true, true, true, true] ∧
      memBits (decoder [0x34, 0xDF] 3 0 3).mem 0x2000 2 = stream 3 1 [3, 4, 10] ++ [true, true, true, true] :=
  ⟨State.inv_of_check (by decide), (decodeConfigOK_iff _).1 (by decide), ⟨by decide, by decide⟩, answers rfl _, answers rfl _,
    ⟨by decide, by decide, by decide, trivial⟩, by decide, by decide, .inl ⟨4, rfl⟩, by decide⟩

/-- A source too short for the header; a header of 9 bits with a hole after 8 of them; and the header 111111 with
HDR_BITS = 6. -/
theorem witness_DecodeBadHeader :
    ((decoder [] 3 0 1).Inv ∧ (decoder [] 3 0 1).DecodeChecks ∧ 0 < (decoder [] 3 0 1).hdr ∧
        State.reset.cfg.Answers (decoder [] 3 0 1).srcRegion ∧
        8 * (decoder [] 3 0 1).regs.srcLen.toNat < (decoder [] 3 0 1).hdr) ∧
      ((holedAt 0x2001 (decoder [0, 0] 9 0 1)).Inv ∧ (holedAt 0x2001 (decoder [0, 0] 9 0 1)).DecodeChecks ∧
        0 < (decoder [0, 0] 9 0 1).hdr ∧ (holedAt 0x2001 (decoder [0, 0] 9 0 1)).cfg.FirstHole 0x2000 0 1 ∧
        1 < (decoder [0, 0] 9 0 1).regs.srcLen.toNat ∧ 8 * 1 < (decoder [0, 0] 9 0 1).hdr) ∧
      (decoder [0xFF] 6 0 1).Inv ∧ (decoder [0xFF] 6 0 1).DecodeChecks ∧ 0 < (decoder [0xFF] 6 0 1).hdr ∧
      State.reset.cfg.Answers { base := 0x2000, len := bytesFor 6 } ∧
      memBits (decoder [0xFF] 6 0 1).mem 0x2000 1 = binBits 6 63 ++ [true, true] ∧ 63 < 2 ^ 6 ∧
      (decoder [0xFF] 6 0 1).keyBits ≤ 63 :=
  ⟨⟨State.inv_of_check (by decide), (decodeConfigOK_iff _).1 (by decide), by decide, answers rfl _, by decide⟩,
    ⟨State.inv_of_check (by decide), (decodeConfigOK_iff _).1 (by decide), by decide,
      ⟨by decide, answers_of_check (by decide), by decide⟩, by decide, by decide⟩,
    State.inv_of_check (by decide), (decodeConfigOK_iff _).1 (by decide), by decide, answers rfl _, by decide, by decide,
    by decide⟩

/-- 2^32 as the first value; a third key with room for two; and a third key whose second byte does not answer. -/
theorem witness_DecodeValueErrors :
    ((decoder [0xC0, 0, 0, 0, 0] 0 31 8).Inv ∧ (decoder [0xC0, 0, 0, 0, 0] 0 31 8).DecodeChecks ∧
        (decoder [0xC0, 0, 0, 0, 0] 0 31 8).DecodeParamIs 31 ∧
        State.reset.cfg.Answers { base := 0x2000, len := bytesFor (stream 0 31 ([] ++ [2 ^ 32])).length } ∧
        State.reset.cfg.Answers { base := 0x3000, len := ([] : List Nat).length * 4 } ∧ AscendsFrom 0 ([] ++ [2 ^ 32]) ∧
        memBits (decoder [0xC0, 0, 0, 0, 0] 0 31 8).mem 0x2000 5 =
          stream 0 31 ([] ++ [2 ^ 32]) ++ List.replicate 6 false ∧
        2 ^ (decoder [0xC0, 0, 0, 0, 0] 0 31 8).keyBits ≤ 2 ^ 32) ∧
      ((decoder [0x34, 0xDF] 3 0 2).Inv ∧ (decoder [0x34, 0xDF] 3 0 2).DecodeChecks ∧
        (decoder [0x34, 0xDF] 3 0 2).DecodeParamIs 1 ∧
        State.reset.cfg.Answers { base := 0x2000, len := bytesFor (stream 3 1 ([3, 4] ++ [10])).length } ∧
        State.reset.cfg.Answers { base := 0x3000, len := [3, 4].length * 4 } ∧ AscendsFrom 0 ([3, 4] ++ [10]) ∧
        (∀ x ∈ [3, 4], x < 2 ^ (decoder [0x34, 0xDF] 3 0 2).keyBits) ∧
        memBits (decoder [0x34, 0xDF] 3 0 2).mem 0x2000 2 = stream 3 1 ([3, 4] ++ [10]) ++ [true, true, true, true] ∧
        [3, 4].length = (decoder [0x34, 0xDF] 3 0 2).regs.outCap.toNat) ∧
      (holedAt 0x3009 (decoder [0x34, 0xDF] 3 0 3)).Inv ∧ (holedAt 0x3009 (decoder [0x34, 0xDF] 3 0 3)).DecodeChecks ∧
      (holedAt 0x3009 (decoder [0x34, 0xDF] 3 0 3)).DecodeParamIs 1 ∧
      (holedAt 0x3009 (decoder [0x34, 0xDF] 3 0 3)).cfg.Answers
        { base := 0x2000, len := bytesFor (stream 3 1 ([3, 4] ++ [10])).length } ∧
      (holedAt 0x3009 (decoder [0x34, 0xDF] 3 0 3)).cfg.Answers { base := 0x3000, len := [3, 4].length * 4 } ∧
      [3, 4].length ≤ (decoder [0x34, 0xDF] 3 0 3).regs.outCap.toNat ∧
      memBits (decoder [0x34, 0xDF] 3 0 3).mem 0x2000 2 = stream 3 1 ([3, 4] ++ [10]) ++ [true, true, true, true] ∧
      (holedAt 0x3009 (decoder [0x34, 0xDF] 3 0 3)).cfg.KeyHole 0x3000 [3, 4].length :=
  ⟨⟨State.inv_of_check (by decide), (decodeConfigOK_iff _).1 (by decide), ⟨by decide, by decide⟩, answers rfl _,
      answers rfl _, ⟨by decide, trivial⟩, by decide, by decide⟩,
    ⟨State.inv_of_check (by decide), (decodeConfigOK_iff _).1 (by decide), ⟨by decide, by decide⟩, answers rfl _,
      answers rfl _, ⟨by decide, by decide, by decide, trivial⟩, by decide, by decide, by decide⟩,
    State.inv_of_check (by decide), (decodeConfigOK_iff _).1 (by decide), ⟨by decide, by decide⟩,
    answers_of_check (by decide), answers_of_check (by decide), by decide, by decide, 1, by decide, by decide⟩

theorem witness_DecodedKeysAscend :
    (decoder [0x34, 0xDF] 3 0 3).Inv ∧
      ∃ t, exec .decode (decoder [0x34, 0xDF] 3 0 3) = .next t ∧ decide (t.status.err = none) = true :=
  ⟨State.inv_of_check (by decide), next_of_nextIs (p := fun t => decide (t.status.err = none)) (by decide)⟩

/-- The two commands of program P3. -/
theorem witness_SetRoundTrip :
    ∃ t, exec (.encode true) (encoder keys3 3 3 9 16) = .next t ∧ t.status.err = none ∧
      (encoder keys3 3 3 9 16).Inv ∧ (decoder [0x34, 0xDF] 3 0 3).Inv ∧
      (decoder [0x34, 0xDF] 3 0 3).cfg = (encoder keys3 3 3 9 16).cfg ∧
      (decoder [0x34, 0xDF] 3 0 3).hdr = (encoder keys3 3 3 9 16).hdr ∧ ¬(encoder keys3 3 3 9 16).hdr = 0 ∧
      (decoder [0x34, 0xDF] 3 0 3).regs.srcLen = t.regs.result ∧
      (∀ j, j < t.regs.result.toNat →
        (decoder [0x34, 0xDF] 3 0 3).mem.read ((decoder [0x34, 0xDF] 3 0 3).regs.srcBase.toNat + j) =
          t.mem.read ((encoder keys3 3 3 9 16).regs.dstBase.toNat + j)) ∧
      (decoder [0x34, 0xDF] 3 0 3).DecodeChecks ∧
      (encoder keys3 3 3 9 16).regs.keyCount.toNat ≤ (decoder [0x34, 0xDF] 3 0 3).regs.outCap.toNat ∧
      ∀ a, a < State.reset.cfg.space → State.reset.cfg.accessible a = true := by
  obtain ⟨t, h, hp⟩ := next_of_nextIs (o := exec (.encode true) (encoder keys3 3 3 9 16))
    (p := fun t => decide (t.status.err = none ∧ t.regs.result = 2 ∧ t.mem.read 0x2000 = 0x34 ∧ t.mem.read 0x2001 = 0xDF))
    (by decide)
  obtain ⟨h1, h2, h3, h4⟩ := of_decide_eq_true hp
  refine ⟨t, h, h1, State.inv_of_check (by decide), State.inv_of_check (by decide), by decide, by decide, by decide,
    by rw [h2]; decide, fun j hj => ?_, (decodeConfigOK_iff _).1 (by decide), by decide, fun _ _ => rfl⟩
  rw [h2] at hj
  have : j = 0 ∨ j = 1 := by have : j < 2 := hj; omega
  rcases this with rfl | rfl
  · exact (by decide : _ = (0x34 : Byte)).trans h3.symm
  · exact (by decide : _ = (0xDF : Byte)).trans h4.symm

theorem witness_WritesStayInFootprint :
    (encoder keys3 3 3 9 16).Inv ∧ (∃ t, exec (.encode true) (encoder keys3 3 3 9 16) = .next t) ∧
      (writeFootprint (.encode true) (encoder keys3 3 3 9 16)).contains 0x2010 = false :=
  ⟨State.inv_of_check (by decide), (next_of_nextIs (p := fun _ => true) (by decide)).imp fun _ h => h.1, by decide⟩

/-- Another memory that agrees on the key array: one more byte, past it. -/
theorem witness_ReadsStayInFootprint :
    (encoder keys3 3 3 9 16).Inv ∧
      ∀ a, (readFootprint (.encode true) (encoder keys3 3 3 9 16)).contains a = true →
        ((encoder keys3 3 3 9 16).mem ++ [(0x4000, 1)]).read a = (encoder keys3 3 3 9 16).mem.read a := by
  refine ⟨State.inv_of_check (by decide), fun a h => ?_⟩
  have hb : 0x1000 ≤ a ∧ a < 0x100C := by
    simp only [Region.contains, Bool.and_eq_true, decide_eq_true_eq] at h
    exact h
  obtain ⟨h1, h2⟩ := hb
  interval_cases a <;> decide

theorem witness_WriterCommandsFrame :
    (midByte State.reset).wr.Sound State.reset.cfg ∧
      (∃ t, exec (.wrBits 4) (midByte State.reset) = .next t) ∧ ∃ t, exec .encVal (midByte State.reset) = .next t :=
  ⟨WrCursor.sound_of_check (by decide), ⟨_, rfl⟩, (next_of_nextIs (p := fun _ => true) (by decide)).imp fun _ h => h.1⟩

theorem witness_ReaderCommandsFrame :
    (∃ t, exec .rdBit (reader [0xA5] 0) = .next t) ∧ (∃ t, exec (.rdBits 4) (reader [0xA5] 0) = .next t) ∧
      ∃ t, exec .decVal (reader [0xA5] 0) = .next t :=
  ⟨(next_of_nextIs (p := fun _ => true) (by decide)).imp fun _ h => h.1,
    (next_of_nextIs (p := fun _ => true) (by decide)).imp fun _ h => h.1,
    (next_of_nextIs (p := fun _ => true) (by decide)).imp fun _ h => h.1⟩

theorem witness_SetupCommandsFrame :
    [Instr.nop, .wrInit, .rdInit, .estimate].all (fun i => nextIs (exec i (encoder keys3 3 3 9 16)) fun _ => true) =
      true := by
  decide

/-- A successful run, where the statement says most. -/
theorem witness_EncodeFrame :
    (encoder keys3 3 3 9 16).Inv ∧
      (∃ t, exec (.encode true) (encoder keys3 3 3 9 16) = .next t ∧ decide (t.status.err = none) = true) ∧
      (encoder keys3 3 3 9 16).dstRegion.Outside 0x2010 :=
  ⟨State.inv_of_check (by decide), next_of_nextIs (p := fun t => decide (t.status.err = none)) (by decide),
    .inr (by decide)⟩

theorem witness_DecodeFrame :
    (decoder [0x34, 0xDF] 3 0 3).Inv ∧
      (∃ t, exec .decode (decoder [0x34, 0xDF] 3 0 3) = .next t ∧ decide (t.status.err = none) = true) ∧
      (decoder [0x34, 0xDF] 3 0 3).outRegion.Outside 0x300C :=
  ⟨State.inv_of_check (by decide), next_of_nextIs (p := fun t => decide (t.status.err = none)) (by decide),
    .inr (by decide)⟩

end Sys2Proof.Tests
end

section
/-! What no command writes (30_encoding.md R95; 44_control.md R233), and that no step of either agent changes W, A,
Accessible or the devices (00_scope.md R3, R8; 10_state.md R22). -/

namespace Sys2Proof.Machine

namespace State.CommandKeeps

theorem refl (s : State) : s.CommandKeeps s := ⟨rfl, rfl, rfl, rfl, rfl, rfl, rfl⟩

variable {s u t : State}

theorem finish (h : s.CommandKeeps u) (code : Option Err) : s.CommandKeeps (finish code u) := { h with }

theorem withWriter (h : s.CommandKeeps u) (w : Writer) : s.CommandKeeps (u.withWriter w) := { h with }

theorem withReader (h : s.CommandKeeps u) (r : RdCursor) : s.CommandKeeps (u.withReader r) := { h with }

theorem withMem (h : s.CommandKeeps u) (m : Memory) : s.CommandKeeps (u.withMem m) := { h with }

theorem withResult (h : s.CommandKeeps u) (v : Nat) : s.CommandKeeps (u.withResult v) := { h with }

theorem withParam (h : s.CommandKeeps u) (v : Nat) : s.CommandKeeps (u.withParam v) := { h with }

theorem drawRegion (h : s.CommandKeeps u) (r : Region) : s.CommandKeeps (u.drawRegion r) := { h with }

theorem discardLoop (h : s.CommandKeeps u) : s.CommandKeeps u.discardLoop := { h with }

/-- A phase that changes the state only on one side of a test keeps what both sides keep. -/
theorem ite {p : Prop} [Decidable p] {v : State} (hu : s.CommandKeeps u) (hv : s.CommandKeeps v) :
    s.CommandKeeps (if p then u else v) := by
  split
  · exact hu
  · exact hv

end State.CommandKeeps

open State (CommandKeeps)

theorem complete_keeps {code : Option Err} {s u t : State} (hu : s.CommandKeeps u) (h : complete code u = .next t) :
    s.CommandKeeps t := by
  rw [complete_next.1 h]
  exact hu.finish code

theorem completeWriter_keeps {r : Res Writer Unit} {s t : State} (h : completeWriter r s = .next t) :
    s.CommandKeeps t :=
  complete_keeps ((CommandKeeps.refl s).withWriter _) h

theorem completeReader_keeps {r : Res RdCursor Nat} {s t : State} (h : completeReader r s = .next t) :
    s.CommandKeeps t := by
  cases r with
  | ok v rd => exact complete_keeps (((CommandKeeps.refl s).withReader rd).withResult v) h
  | raise e rd => exact complete_keeps ((CommandKeeps.refl s).withReader rd) h

theorem execWrInit_keeps {s t : State} (h : execWrInit s = .next t) : s.CommandKeeps t := by
  unfold execWrInit at h
  split at h
  · exact complete_keeps ((CommandKeeps.refl s).withWriter { cur := _, mem := s.mem }) h
  · exact complete_keeps (.refl s) h

theorem execRdInit_keeps {s t : State} (h : execRdInit s = .next t) : s.CommandKeeps t := by
  unfold execRdInit at h
  split at h
  · exact complete_keeps ((CommandKeeps.refl s).withReader _) h
  · exact complete_keeps (.refl s) h

theorem execEncVal_keeps {s t : State} (h : execEncVal s = .next t) : s.CommandKeeps t := by
  unfold execEncVal at h
  split at h
  · exact complete_keeps (.refl s) h
  · exact completeWriter_keeps h

theorem execDecVal_keeps {s t : State} (h : execDecVal s = .next t) : s.CommandKeeps t := by
  unfold execDecVal at h
  split at h
  · exact complete_keeps (.refl s) h
  · exact completeReader_keeps h

theorem execEstimate_keeps {s t : State} (h : execEstimate s = .next t) : s.CommandKeeps t := by
  unfold execEstimate at h
  split at h
  · exact complete_keeps (.refl s) h
  · exact complete_keeps ((CommandKeeps.refl s).withResult _) h

theorem execEncode_keeps {auto : Bool} {s t : State} (h : execEncode auto s = .next t) : s.CommandKeeps t := by
  have hs := CommandKeeps.refl s
  rcases execEncode_cases h with ⟨e, rfl⟩ | ⟨p, -, -, ⟨r, -, rfl⟩ | ⟨e, r, -, rfl⟩⟩
  · exact hs.finish _
  · exact (((((hs.withParam p).ite hs).withWriter _).withResult _).discardLoop).finish _
  · exact (((((hs.withParam p).ite hs).withWriter _).drawRegion _).discardLoop).finish _

theorem execDecode_keeps {s t : State} (h : execDecode s = .next t) : s.CommandKeeps t := by
  have hs := CommandKeeps.refl s
  rcases execDecode_cases h with ⟨e, rfl⟩ | ⟨-, ⟨e, rd, -, rfl, -⟩ | ⟨p, rd, -, hend⟩⟩
  · exact hs.finish _
  · exact (((hs.withReader rd).drawRegion _).discardLoop).finish _
  · have hp := hs.withParam p
    rcases hend with ⟨-, -, rfl⟩ | ⟨-, r, -, rfl⟩ | ⟨-, e, r, -, rfl⟩
    · exact (((hp.withReader rd).drawRegion _).discardLoop).finish _
    · exact (((((hs.ite hp).withMem _).withReader _).withResult _).discardLoop).finish _
    · exact (((((hs.ite hp).withMem _).withReader _).drawRegion _).discardLoop).finish _

/-- 30_encoding.md R95, 44_control.md R233: what no command writes. -/
theorem exec_keeps {i : Instr} {s t : State} (h : exec i s = .next t) : s.CommandKeeps t := by
  cases i with
  | nop => exact complete_keeps (.refl s) h
  | wrInit => exact execWrInit_keeps h
  | wrBit b => exact completeWriter_keeps h
  | wrBits n => exact completeWriter_keeps h
  | rdInit => exact execRdInit_keeps h
  | rdBit => exact completeReader_keeps h
  | rdBits n => exact completeReader_keeps h
  | encVal => exact execEncVal_keeps h
  | decVal => exact execDecVal_keeps h
  | estimate => exact execEstimate_keeps h
  | encode auto => exact execEncode_keeps h
  | decode => exact execDecode_keeps h

/-- The engine's turn keeps the same, the command being legal or not. -/
theorem runCommand_keeps {s t : State} (h : runCommand s = .next t) : s.CommandKeeps t := by
  rcases runCommand_cases h with ⟨-, rfl⟩ | ⟨i, -, -, hi⟩
  · exact (CommandKeeps.refl s).finish _
  · exact exec_keeps hi

/-- Taking the turn off `pending` leaves the parameters as they are. -/
theorem State.EngineAt.cfg_eq {s s' : State} (h : s.EngineAt s') : s'.cfg = s.cfg := by
  obtain ⟨-, ⟨-, rfl⟩ | ⟨l, -, rfl⟩ | ⟨l, -, rfl⟩⟩ := h <;> rfl

@[simp] theorem resetEngine_cfg (s : State) : (resetEngine s).cfg = s.cfg := by
  unfold resetEngine
  split <;> rfl

@[simp] theorem writeCtrl_cfg (v : Word) (s : State) : (writeCtrl v s).cfg = s.cfg := by
  unfold writeCtrl
  split
  · exact resetEngine_cfg s
  · rfl

@[simp] theorem writeSlot_cfg (slot : Slot) (v : Word) (s : State) : (writeSlot slot v s).cfg = s.cfg := by
  unfold writeSlot
  split
  · exact overrun_cfg s
  · cases slot with
    | ctrl => exact writeCtrl_cfg v s
    | _ => rfl

@[simp] theorem readSlot_cfg (slot : Slot) (s : State) : (readSlot slot s).cfg = s.cfg := by
  unfold readSlot
  split <;> rfl

/-- Settles O12: the engine's turn keeps the parameters with the rest of what no command writes, and no host action
names them. -/
theorem parametersAreFixed : Obligations.ParametersAreFixed := by
  intro s t h
  rcases step_cases h with ⟨-, rfl | ⟨l, -, rfl⟩⟩ | ⟨s', hturn, hrun⟩ | ⟨l, offset, v, -, -, rfl⟩ | ⟨l, slot, rfl⟩ |
    ⟨l, a, bs, -, -, rfl⟩ | ⟨l, bs, rfl⟩ | ⟨l, -, rfl⟩
  · rfl
  · rfl
  · exact (runCommand_keeps hrun).cfg.trans hturn.cfg_eq
  · exact writeSlot_cfg _ v _
  · exact readSlot_cfg slot _
  · rfl
  · rfl
  · exact resetEngine_cfg _

end Sys2Proof.Machine
end

section
/-! The invariant of Safety.lean under each update of the state, then at the end of each command and of each host
action (10_state.md R40, R41; 20_memory.md R85; 40_bitio.md R124). -/

namespace Sys2Proof.Machine

theorem drawMem_sound {c : Config} {m : Memory} (hm : m.Sound c) (k : Nat) (r : Region) :
    (drawMem c k r m).Sound c := by
  by_cases hr : r.base ≤ c.space
  · exact Memory.sound_fill _ _ (by omega) hm
  · rw [drawMem, Nat.sub_eq_zero_of_le (by omega), Nat.min_zero]
    exact hm

theorem space_pos (c : Config) : 0 < c.space := Nat.two_pow_pos _

/-- Zero fits every register (10_state.md R50). -/
theorem Regs.Fit.cleared (c : Config) : Regs.cleared.Fit c := by
  constructor <;> exact Nat.two_pow_pos _

namespace State.Inv

variable {s : State}

theorem finish (h : s.Inv) (code : Option Err) : (finish code s).Inv := { h with busy := by simp }

theorem accept (h : s.Inv) (v : Word) : (accept v s).Inv := { h with busy := by simp }

theorem overrun (h : s.Inv) : (overrun s).Inv := { h with busy := h.busy }

theorem withRegs (h : s.Inv) {r : Regs} (hr : r.Fit s.cfg) : State.Inv { s with regs := r } := { h with regs := hr }

theorem withResult (h : s.Inv) (v : Nat) : (s.withResult v).Inv := h.withRegs { h.regs with }

/-- PARAM takes the whole value, which fits the key width. -/
theorem withParam (h : s.Inv) {v : Nat} (hv : v < 2 ^ s.cfg.width.bits) : (s.withParam v).Inv :=
  h.withRegs { h.regs with param := lt_of_le_of_lt (Nat.mod_le _ _) hv }

theorem withWriter (h : s.Inv) {w : Writer} (hw : w.cur.Sound s.cfg) (hm : w.mem.Sound s.cfg) :
    (s.withWriter w).Inv := { h with wr := hw, mem := hm }

theorem withReader (h : s.Inv) {r : RdCursor} (hr : r.Sound s.cfg) : (s.withReader r).Inv := { h with rd := hr }

theorem withMem (h : s.Inv) {m : Memory} (hm : m.Sound s.cfg) : (s.withMem m).Inv := { h with mem := hm }

theorem drawRegion (h : s.Inv) (r : Region) : (s.drawRegion r).Inv := { h with mem := drawMem_sound h.mem _ r }

theorem discardLoop (h : s.Inv) : s.discardLoop.Inv := { h with loop := rfl }

theorem withPending (h : s.Inv) (l : List Action) : State.Inv { s with pending := l } := { h with }

theorem clearEngine (h : s.Inv) : (clearEngine s).Inv :=
  have hpos := space_pos s.cfg
  { h with
    regs := .cleared _
    wr := .fresh hpos hpos (Nat.zero_le _)
    rd := .fresh hpos hpos (Nat.zero_le _)
    busy := by simp [Status.cleared]
    loop := rfl }

end State.Inv

/-! ### The commands -/

theorem complete_inv {code : Option Err} {s t : State} (hs : s.Inv) (h : complete code s = .next t) : t.Inv := by
  rw [complete_next.1 h]
  exact hs.finish code

theorem completeWriter_inv {r : Res Writer Unit} {s t : State} (hs : s.Inv) (hr : KeepsWriter s.cfg s.writer r)
    (h : completeWriter r s = .next t) : t.Inv :=
  complete_inv (hs.withWriter hr.cur (hr.mem hs.mem)) h

theorem completeReader_inv {r : Res RdCursor Nat} {s t : State} (hs : s.Inv) (hr : KeepsReader s.cfg s.rd r)
    (h : completeReader r s = .next t) : t.Inv := by
  cases r with
  | ok v rd => exact complete_inv ((hs.withReader hr.1).withResult v) h
  | raise e rd => exact complete_inv (hs.withReader hr.1) h

theorem keepsReader_readBitVal {c : Config} {m : Memory} {r : RdCursor} (hs : r.Sound c) :
    KeepsReader c r (readBitVal c m r) := by
  have hb := keepsReader_readBit (m := m) hs
  unfold readBitVal
  cases h : readBit c m r with
  | ok b r' => rw [h] at hb; exact hb
  | raise e r' => rw [h] at hb; exact hb

theorem keepsReader_decodeChecked {c : Config} {m : Memory} {r : RdCursor} (p : Nat) (hs : r.Sound c) :
    KeepsReader c r (decodeChecked c m p r) := by
  have hd := keepsReader_decodeValue (m := m) p hs
  unfold decodeChecked
  cases h : decodeValue c m p r with
  | raise e r' => rw [h] at hd; exact hd
  | ok v r' =>
    rw [h] at hd
    dsimp only
    split <;> exact hd

/-- `ReadBits(n)` appends `n` bits to the value read so far (40_bitio.md R132). -/
theorem readBitsFrom_lt {c : Config} {m : Memory} (n : Nat) : ∀ {v w : Nat} {r r' : RdCursor},
    readBitsFrom c m n v r = .ok w r' → w < 2 ^ n * (v + 1) := by
  induction n with
  | zero => intro v w r r' h; cases h; omega
  | succ n ih =>
    intro v w r r' h
    simp only [readBitsFrom] at h
    cases hb : readBit c m r with
    | raise e r1 => rw [hb] at h; cases h
    | ok b r1 =>
      rw [hb] at h
      have hbit := b.toNat_le
      calc w < 2 ^ n * (2 * v + b.toNat + 1) := ih h
        _ ≤ 2 ^ n * (2 * (v + 1)) := Nat.mul_le_mul_left _ (by omega)
        _ = 2 ^ (n + 1) * (v + 1) := by rw [Nat.pow_succ, Nat.mul_assoc]

/-- A value of `n` bits is below `2^n`. -/
theorem readBits_lt {c : Config} {m : Memory} {n v : Nat} {r r' : RdCursor} (h : readBits c m n r = .ok v r') :
    v < 2 ^ n := by
  simpa using readBitsFrom_lt n h

/-- The estimate fits the header it is clamped to (42_estimator.md R180). -/
theorem estimate_lt (maxKey count h : Nat) : estimate maxKey count h < 2 ^ h := by
  have hpos := Nat.two_pow_pos h
  unfold estimate
  split
  · exact hpos
  · split
    · exact hpos
    · omega

/-- The parameter ENCODE with AUTO = 1 writes to PARAM fits the header (43_set_codec.md R193). -/
theorem encodeParam_auto_lt {s : State} {p : Nat} (h : encodeParam true s = .ok p) : p < 2 ^ s.hdr := by
  unfold encodeParam at h
  simp only [if_true] at h
  split at h
  · cases h; exact Nat.two_pow_pos _
  · split at h
    · cases h
    · cases h; exact estimate_lt _ _ _

theorem execWrInit_inv {s t : State} (hs : s.Inv) (h : execWrInit s = .next t) : t.Inv := by
  unfold execWrInit at h
  split at h
  · rename_i hreg
    have hwr := WrCursor.Sound.fresh hs.regs.dstBase hs.regs.dstLen ((regionOK_iff _).1 hreg)
    exact complete_inv (hs.withWriter (w := { cur := _, mem := s.mem }) hwr hs.mem) h
  · exact complete_inv hs h

theorem execRdInit_inv {s t : State} (hs : s.Inv) (h : execRdInit s = .next t) : t.Inv := by
  unfold execRdInit at h
  split at h
  · rename_i hreg
    exact complete_inv (hs.withReader (.fresh hs.regs.srcBase hs.regs.srcLen ((regionOK_iff _).1 hreg))) h
  · exact complete_inv hs h

theorem execEncVal_inv {s t : State} (hs : s.Inv) (h : execEncVal s = .next t) : t.Inv := by
  unfold execEncVal at h
  split at h
  · exact complete_inv hs h
  · exact completeWriter_inv hs (keepsWriter_encodeValue _ _ hs.wr) h

theorem execDecVal_inv {s t : State} (hs : s.Inv) (h : execDecVal s = .next t) : t.Inv := by
  unfold execDecVal at h
  split at h
  · exact complete_inv hs h
  · exact completeReader_inv hs (keepsReader_decodeChecked _ hs.rd) h

theorem execEstimate_inv {s t : State} (hs : s.Inv) (h : execEstimate s = .next t) : t.Inv := by
  unfold execEstimate at h
  split at h
  · exact complete_inv hs h
  · exact complete_inv (hs.withResult _) h

/-- A value that fits the header fits the key width, once ENCODE's or DECODE's first check has passed
(43_set_codec.md R191, R201). -/
theorem lt_keyWidth_of_lt_hdr {s : State} {p : Nat} (hh : s.hdr ≤ s.keyBits) (hp : p < 2 ^ s.hdr) :
    p < 2 ^ s.cfg.width.bits :=
  lt_of_lt_of_le hp (Nat.pow_le_pow_right (by decide) hh)

theorem execEncode_inv {auto : Bool} {s t : State} (hs : s.Inv) (h : execEncode auto s = .next t) : t.Inv := by
  rcases execEncode_cases h with ⟨e, rfl⟩ | ⟨p, hc, hp, hend⟩
  · exact hs.finish _
  · have hfresh := WrCursor.Sound.fresh hs.regs.dstBase hs.regs.dstLen hc.destination
    obtain ⟨hcur, -, hmem⟩ := encodeStream_keeps (p := p) rfl hfresh
    have hparam : (if auto then s.withParam p else s).Inv := by
      cases auto with
      | true => exact hs.withParam (lt_keyWidth_of_lt_hdr hc.header (encodeParam_auto_lt hp))
      | false => exact hs
    have hcfg : (if auto then s.withParam p else s).cfg = s.cfg := by split <;> rfl
    have hwriter := hparam.withWriter (hcfg ▸ hcur) (hcfg ▸ hmem hs.mem)
    rcases hend with ⟨r, hr, rfl⟩ | ⟨e, r, hr, rfl⟩ <;> rw [hr] at hwriter
    · exact ((hwriter.withResult _).discardLoop).finish _
    · exact ((hwriter.drawRegion _).discardLoop).finish _

/-- The reader and the parameter with which DECODE starts its element phase (43_set_codec.md R202, R203). -/
theorem decode_start {s : State} {p : Nat} {rd : RdCursor} (hs : s.Inv) (hc : s.DecodeChecks)
    (h : if s.hdr = 0 then p = s.paramVal ∧ rd = RdCursor.fresh s.regs.srcBase.toNat s.regs.srcLen.toNat
      else readBits s.cfg s.mem s.hdr (RdCursor.fresh s.regs.srcBase.toNat s.regs.srcLen.toNat) = .ok p rd) :
    rd.Sound s.cfg ∧ p < 2 ^ s.cfg.width.bits := by
  have hfresh := RdCursor.Sound.fresh hs.regs.srcBase hs.regs.srcLen hc.source
  split at h
  · obtain ⟨rfl, rfl⟩ := h
    exact ⟨hfresh, hs.regs.param⟩
  · have hrd := keepsReader_readBitsFrom (m := s.mem) s.hdr (v := 0) hfresh
    rw [← readBits, h] at hrd
    exact ⟨hrd.1, lt_keyWidth_of_lt_hdr hc.header (readBits_lt h)⟩

/-- DECODE's element phase keeps the reader's and the memory's invariant. -/
theorem decodeElements_sound {s : State} {rd : RdCursor} (p : Nat) (hs : s.Inv) (hc : s.DecodeChecks)
    (hrd : rd.Sound s.cfg) :
    (decodeElements s p rd).state.rd.Sound s.cfg ∧ (decodeElements s p rd).state.mem.Sound s.cfg :=
  have hk := decodeKeys_keeps _ _ (8 * s.regs.srcLen.toNat + 1) hc.output
    (r := { rd := rd, mem := s.mem, loop := LoopState.start p }) hrd hs.mem (Nat.zero_le _)
  ⟨hk.1, hk.2.1⟩

theorem execDecode_inv {s t : State} (hs : s.Inv) (h : execDecode s = .next t) : t.Inv := by
  rcases execDecode_cases h with ⟨e, rfl⟩ | ⟨hc, ⟨e, rd, -, rfl, hr⟩ | ⟨p, rd, hstart, hend⟩⟩
  · exact hs.finish _
  · have hfresh := RdCursor.Sound.fresh hs.regs.srcBase hs.regs.srcLen hc.source
    have hrd := keepsReader_readBitsFrom (m := s.mem) s.hdr (v := 0) hfresh
    rw [← readBits, hr] at hrd
    exact (((hs.withReader hrd.1).drawRegion _).discardLoop).finish _
  · obtain ⟨hrd, hp⟩ := decode_start hs hc hstart
    obtain ⟨hrd', hmem⟩ := decodeElements_sound p hs hc hrd
    have hparam := hs.withParam hp
    have hbegin : (if s.hdr = 0 then s else s.withParam p).Inv := by split <;> assumption
    have hcfg : (if s.hdr = 0 then s else s.withParam p).cfg = s.cfg := by split <;> rfl
    have hloop := (hbegin.withMem (hcfg ▸ hmem)).withReader (hcfg ▸ hrd')
    rcases hend with ⟨-, -, rfl⟩ | ⟨-, r, hr, rfl⟩ | ⟨-, e, r, hr, rfl⟩
    · exact (((hparam.withReader hrd).drawRegion _).discardLoop).finish _
    · rw [hr] at hloop
      exact ((hloop.withResult _).discardLoop).finish _
    · rw [hr] at hloop
      exact ((hloop.drawRegion _).discardLoop).finish _

/-- Every command keeps the invariant, whatever code it ends with. -/
theorem exec_inv {i : Instr} {s t : State} (hs : s.Inv) (h : exec i s = .next t) : t.Inv := by
  cases i with
  | nop => exact complete_inv hs h
  | wrInit => exact execWrInit_inv hs h
  | wrBit b => exact completeWriter_inv hs (keepsWriter_writeBit hs.wr) h
  | wrBits n => exact completeWriter_inv hs (keepsWriter_writeBits _ _ hs.wr) h
  | rdInit => exact execRdInit_inv hs h
  | rdBit => exact completeReader_inv hs (keepsReader_readBitVal hs.rd) h
  | rdBits n => exact completeReader_inv hs (keepsReader_readBitsFrom n hs.rd) h
  | encVal => exact execEncVal_inv hs h
  | decVal => exact execDecVal_inv hs h
  | estimate => exact execEstimate_inv hs h
  | encode auto => exact execEncode_inv hs h
  | decode => exact execDecode_inv hs h

theorem runCommand_inv {s t : State} (hs : s.Inv) (h : runCommand s = .next t) : t.Inv := by
  rcases runCommand_cases h with ⟨-, rfl⟩ | ⟨i, -, -, hi⟩
  · exact hs.finish _
  · exact exec_inv hs hi

theorem State.EngineAt.inv {s s' : State} (h : s.EngineAt s') (hs : s.Inv) : s'.Inv := by
  obtain ⟨-, ⟨-, rfl⟩ | ⟨l, -, rfl⟩ | ⟨l, -, rfl⟩⟩ := h
  · exact hs
  · exact hs
  · exact hs.withPending l

/-! ### The host's actions -/

/-- A register keeps no more bits of a written value than it has (10_state.md R21 (c)). -/
theorem keepLow_lt (n : Nat) (v : Word) : (keepLow n v).toNat < 2 ^ n :=
  lt_of_le_of_lt (Nat.mod_le _ _) (Nat.mod_lt _ (Nat.two_pow_pos n))

theorem Regs.Fit.setReg {c : Config} {r : Regs} (h : r.Fit c) (slot : Slot) (v : Word) :
    (setReg c slot v r).Fit c := by
  have hkey := keepLow_lt c.width.bits v
  have haddr := keepLow_lt c.addrBits v
  cases slot with
  | param => exact { h with param := hkey }
  | data => exact { h with data := hkey }
  | count => exact { h with count := hkey }
  | dstBase => exact { h with dstBase := haddr }
  | dstLen => exact { h with dstLen := haddr }
  | srcBase => exact { h with srcBase := haddr }
  | srcLen => exact { h with srcLen := haddr }
  | keyBase => exact { h with keyBase := haddr }
  | keyCount => exact { h with keyCount := haddr }
  | outBase => exact { h with outBase := haddr }
  | outCap => exact { h with outCap := haddr }
  | hdrBits => exact { h with }
  | _ => exact h

namespace State.Inv

variable {s : State}

theorem resetEngine (h : s.Inv) : (resetEngine s).Inv := by
  unfold Machine.resetEngine
  split
  · exact (h.drawRegion _).clearEngine
  · exact h.clearEngine

theorem writeCtrl (h : s.Inv) (v : Word) : (writeCtrl v s).Inv := by
  unfold Machine.writeCtrl
  split
  · exact h.resetEngine
  · exact { h with }

/-- A write to STATUS only clears flags, so DONE stays 0 while BUSY = 1 (10_state.md R24). -/
theorem writeStatus (h : s.Inv) (v : Word) : (writeStatus v s).Inv where
  __ := h
  busy hb := by
    obtain ⟨hd, he⟩ := h.busy hb
    exact ⟨by simp [Machine.writeStatus, clearFlags, hd], he⟩

theorem writeSlot (h : s.Inv) (slot : Slot) (v : Word) : (writeSlot slot v s).Inv := by
  unfold Machine.writeSlot
  split
  · exact h.overrun
  · cases slot with
    | ctrl => exact h.writeCtrl v
    | status => exact h.writeStatus v
    | cmd => exact h.accept v
    | _ => exact h.withRegs (h.regs.setReg _ v)

theorem readSlot (h : s.Inv) (slot : Slot) : (readSlot slot s).Inv := by
  unfold Machine.readSlot
  split <;> exact { h with }

/-- A host write of bytes to addresses that exist keeps the memory canonical. -/
theorem memWrite (h : s.Inv) {a : Nat} {bs : List Byte} (ha : 0 < bs.length → a + bs.length ≤ s.cfg.space) :
    (s.withMem (s.mem.writeList a bs)).Inv := by
  cases bs with
  | nil => exact h
  | cons b bs => exact h.withMem (Memory.sound_writeList _ h.mem (ha (Nat.succ_pos _)))

end State.Inv

/-- Settles O11: the engine's turn keeps the invariant command by command, and each host action by the update it is. -/
theorem stepKeepsInvariant : Obligations.StepKeepsInvariant := by
  intro s t hs h
  rcases step_cases h with ⟨-, rfl | ⟨l, -, rfl⟩⟩ | ⟨s', hturn, hrun⟩ | ⟨l, offset, v, -, -, rfl⟩ | ⟨l, slot, rfl⟩ |
    ⟨l, a, bs, -, ha, rfl⟩ | ⟨l, bs, rfl⟩ | ⟨l, -, rfl⟩
  · exact hs
  · exact hs.withPending l
  · exact runCommand_inv (hturn.inv hs) hrun
  · exact (hs.withPending l).writeSlot _ v
  · exact (hs.withPending l).readSlot slot
  · exact (hs.withPending l).memWrite ha
  · exact { hs with }
  · exact (hs.withPending l).resetEngine

/-- Settles O10: every piece of the reset state is zero, and zero is within every bound. -/
theorem resetMeetsInvariant : Obligations.ResetMeetsInvariant := State.inv_of_check (by decide)

end Sys2Proof.Machine
end

section
/-! The register window (10_state.md R20 to R24, R39, R47 to R49): which slot an offset names, what a host access of it
does, and what CTRL, STATUS and the other slots hold. -/

namespace Sys2Proof.Machine

/-! ### One register access -/

theorem step_of_slotWrite {s : State} {offset : Nat} {v : Word} {l : List Action}
    (h : s.pending = .regWrite offset 8 v :: l) (ha : accessOK offset 8 = true) :
    step s = .next (writeSlot (slotAt offset) v { s with pending := l }) := by
  rw [step_of_regWrite h, hostRegWrite, if_pos ha]

theorem step_of_slotRead {s : State} {offset : Nat} {l : List Action}
    (h : s.pending = .regRead offset 8 :: l) (ha : accessOK offset 8 = true) :
    step s = .next (readSlot (slotAt offset) { s with pending := l }) := by
  rw [step_of_regRead h, hostRegRead, if_pos ha]

/-- The accesses the interface has (10_state.md R21 (a)). -/
theorem accessOK_iff {offset bytes : Nat} :
    accessOK offset bytes = true ↔ bytes = 8 ∧ offset % 8 = 0 ∧ offset < 0x100 := by
  simp [accessOK, and_assoc]

/-- Settles O22: the refused accesses are those `accessOK_iff` leaves out. -/
theorem partialRegisterAccess : Obligations.PartialRegisterAccess := by
  intro s l offset bytes v h
  have hbad : accessOK offset bytes ≠ true := by rw [ne_eq, accessOK_iff]; omega
  constructor
  · rw [step_of_regWrite rfl, hostRegWrite, if_neg hbad]
  · rw [step_of_regRead rfl, hostRegRead, if_neg hbad]

/-- A write to a guarded slot is dropped while BUSY = 1 (10_state.md R48). -/
theorem writeSlot_of_guarded {s : State} {slot : Slot} (v : Word) (hg : slot.guarded = true)
    (hb : s.status.busy = true) : writeSlot slot v s = overrun s := by
  unfold writeSlot
  rw [if_pos (by rw [hg, hb, Bool.true_and])]

/-- The slots that ignore every write: read-only and reserved ones (10_state.md R21 (d), R49). -/
def Slot.fixed : List Slot := [.id, .result, .wrNbytes, .wrShift, .rdNbytes, .rdShift, .reserved]

theorem writeSlot_of_fixed {s : State} {slot : Slot} (v : Word) (h : slot ∈ Slot.fixed) : writeSlot slot v s = s := by
  simp only [Slot.fixed, List.mem_cons, List.not_mem_nil, or_false] at h
  rcases h with rfl | rfl | rfl | rfl | rfl | rfl | rfl <;> rfl

/-! ### CTRL and STATUS -/

theorem writeCtrl_of_set {v : Word} (s : State) (h : v.getLsbD 1 = true) : writeCtrl v s = resetEngine s := by
  rw [writeCtrl, if_pos h]

theorem writeCtrl_of_clear {v : Word} (s : State) (h : v.getLsbD 1 = false) :
    writeCtrl v s = { s with ie := v.getLsbD 0 } := by
  rw [writeCtrl, h, if_neg Bool.false_ne_true]

@[simp] theorem resetEngine_ie (s : State) : (resetEngine s).ie = false := rfl

/-- A host write to CTRL with SRST = 0 sets IE and nothing else, busy or not (10_state.md R23). -/
theorem step_of_ctrlWrite_clear {s : State} {l : List Action} {v : Word} (h : s.pending = .regWrite 0x08 8 v :: l)
    (hv : v.getLsbD 1 = false) : step s = .next { s with pending := l, ie := v.getLsbD 0 } := by
  rw [step_of_slotWrite h (by decide)]
  exact congrArg _ (writeCtrl_of_clear _ hv)

/-- A host write to CTRL with SRST = 1 is a hardware reset, busy or not (10_state.md R23; 70_reset_and_hazards.md
R271). -/
theorem step_of_ctrlWrite_set {s : State} {l : List Action} {v : Word} (h : s.pending = .regWrite 0x08 8 v :: l)
    (hv : v.getLsbD 1 = true) :
    step s = step { s with pending := .reset :: l } ∧ ∃ t, step s = .next t ∧ t.ie = false := by
  have hstep : step s = .next (resetEngine { s with pending := l }) := by
    rw [step_of_slotWrite h (by decide)]
    exact congrArg _ (writeCtrl_of_set _ hv)
  exact ⟨hstep.trans (step_of_reset (s := { s with pending := .reset :: l }) rfl).symm, _, hstep, resetEngine_ie _⟩

/-- A host write to STATUS clears DONE and OVR where it has a 1, busy or not (10_state.md R24). -/
theorem step_of_statusWrite {s : State} {l : List Action} {v : Word} (h : s.pending = .regWrite 0x10 8 v :: l) :
    step s = .next { s with pending := l, status := { s.status with
      done := s.status.done && !v.getLsbD 1, ovr := s.status.ovr && !v.getLsbD 2 } } :=
  step_of_slotWrite h (by decide)

/-- Settles O18: CTRL is IE in bit 0, and a write to it is one of the two cases of its bit 1. -/
theorem ctrlRegister : Obligations.CtrlRegister := by
  refine ⟨fun s => ?_, fun _ => rfl, rfl, fun s l v h => ⟨step_of_ctrlWrite_clear h, step_of_ctrlWrite_set h⟩⟩
  simp only [slotValue]
  cases s.ie <;> rfl

/-- The three flags lie in bits 2:0 of STATUS (10_state.md R24). -/
theorem testBit_flags (busy done ovr : Bool) {k : Nat} (hk : k < 8) :
    (busy.toNat + 2 * done.toNat + 4 * ovr.toNat).testBit k =
      if k = 0 then busy else if k = 1 then done else if k = 2 then ovr else false := by
  revert k
  revert busy done ovr
  decide

theorem errField_lt (e : Option Err) : errField e < 2 ^ 8 := by
  cases e with
  | none => decide
  | some e => cases e <;> decide

/-- STATUS as bits: the flags in its low byte, the error code in the next, and zeros (10_state.md R24). -/
theorem getLsbD_statusWord (st : Status) {k : Nat} (hk : k < 64) :
    (statusWord st).getLsbD k =
      if k = 0 then st.busy else if k = 1 then st.done else if k = 2 then st.ovr
      else if 8 ≤ k ∧ k < 16 then (errField st.err).testBit (k - 8) else false := by
  have hflags : st.busy.toNat + 2 * st.done.toNat + 4 * st.ovr.toNat < 2 ^ 8 := by
    have := st.busy.toNat_le
    have := st.done.toNat_le
    have := st.ovr.toNat_le
    omega
  rw [statusWord, BitVec.getLsbD_ofNat, decide_eq_true hk, Bool.true_and, Nat.add_comm,
    Nat.testBit_two_pow_mul_add _ hflags]
  by_cases h8 : k < 8
  · rw [if_pos h8, testBit_flags _ _ _ h8, if_neg (show ¬(8 ≤ k ∧ k < 16) by omega)]
  · rw [if_neg h8, if_neg (show k ≠ 0 by omega), if_neg (show k ≠ 1 by omega), if_neg (show k ≠ 2 by omega)]
    by_cases h16 : k < 16
    · rw [if_pos ⟨by omega, h16⟩]
    · rw [if_neg (by omega)]
      refine Nat.testBit_lt_two_pow (lt_of_lt_of_le (errField_lt _) (Nat.pow_le_pow_right (by decide) ?_))
      omega

/-- Settles O19: the bits are those of `getLsbD_statusWord`, whose error field is the code, code by code. -/
theorem statusRegister : Obligations.StatusRegister := by
  refine ⟨fun s k hk => ?_, fun s l v => step_of_statusWrite⟩
  rw [slotValue, getLsbD_statusWord _ hk]
  rcases s.status.err with _ | e
  · rfl
  · cases e <;> rfl

/-- Settles O16: an offset of the first list names a guarded slot, one of the last a fixed slot, and the other two are
CTRL and STATUS. -/
theorem writesWhileBusy : Obligations.WritesWhileBusy := by
  intro s l offset v h hb
  refine ⟨fun ho => ?_, ?_, ?_, ?_, fun ho => ?_⟩
  · have hguard : ∀ o ∈ [0x18, 0x20, 0x28, 0x30, 0x38, 0x48, 0x50, 0x58, 0x60, 0x68, 0x70, 0x78, 0x80],
        accessOK o 8 = true ∧ (slotAt o).guarded = true := by decide
    obtain ⟨ha, hg⟩ := hguard offset ho
    rw [step_of_slotWrite h ha]
    exact congrArg _ (writeSlot_of_guarded v hg hb)
  · rintro rfl hv
    exact step_of_ctrlWrite_clear h hv
  · rintro rfl hv
    exact step_of_ctrlWrite_set h hv
  · rintro rfl
    exact step_of_statusWrite h
  · have hfixed : ∀ o ∈ [0x00, 0x40, 0x88, 0x90, 0x98, 0xA0, 0xA8, 0xB0, 0xB8, 0xC0, 0xC8, 0xD0, 0xD8, 0xE0, 0xE8,
        0xF0, 0xF8], accessOK o 8 = true ∧ slotAt o ∈ Slot.fixed := by decide
    obtain ⟨ha, hf⟩ := hfixed offset ho
    rw [step_of_slotWrite h ha, writeSlot_of_fixed v hf]

/-! ### Reads -/

/-- The offsets of the slots a running command may change (10_state.md R47). -/
theorem changing_slotAt {offset : Nat} (h8 : offset % 8 = 0) (hw : offset < 0x100) :
    (slotAt offset).changing = true ↔ offset ∈ [0x20, 0x40, 0x88, 0x90, 0x98, 0xA0] := by
  have hslots : ∀ k, k < 32 →
      ((slotAt (8 * k)).changing = true ↔ 8 * k ∈ [0x20, 0x40, 0x88, 0x90, 0x98, 0xA0]) := by decide
  obtain ⟨k, rfl⟩ := Nat.dvd_of_mod_eq_zero h8
  exact hslots k (by omega)

theorem readSlot_of_free {s : State} {slot : Slot} (hc : slot.changing = true) (hb : s.status.busy = true) :
    readSlot slot s = { s with seenReg := Config.freeWord s.draws, draws := s.draws + 1 } := by
  rw [readSlot, if_pos (by rw [hc, hb, Bool.true_and])]

theorem readSlot_of_exact {s : State} {slot : Slot} (h : ¬(s.status.busy = true ∧ slot.changing = true)) :
    readSlot slot s = { s with seenReg := slotValue s slot } := by
  rw [readSlot, if_neg (by rw [Bool.and_eq_true]; exact fun hc => h hc.symm)]

/-- What a slot holds does not depend on the actions still to come. -/
theorem slotValue_pending (s : State) (l : List Action) (slot : Slot) :
    slotValue { s with pending := l } slot = slotValue s slot := by
  cases slot <;> rfl

/-- Settles O20: a read is free exactly on the slots `changing_slotAt` lists while BUSY = 1. -/
theorem registerReads : Obligations.RegisterReads := by
  intro s l offset h h8 hw
  rw [step_of_slotRead h (accessOK_iff.2 ⟨rfl, h8, hw⟩), ← changing_slotAt h8 hw]
  refine ⟨fun ⟨hb, hc⟩ => ?_, fun hn => ?_⟩
  · exact congrArg _ (readSlot_of_free hc hb)
  · rw [← slotValue_pending s l]
    exact congrArg _ (readSlot_of_exact hn)

/-! ### Contents -/

theorem slotAt_reserved {offset : Nat} (h : 0xA8 ≤ offset) : slotAt offset = .reserved := by
  obtain ⟨k, hk⟩ := Nat.exists_eq_add_of_le' (show 21 ≤ offset / 8 by omega)
  unfold slotAt
  rw [hk]
  rfl

/-- An address space has at most 64-bit addresses (00_scope.md R7). -/
theorem space_le {c : Config} (h : c.Legal) : c.space ≤ 2 ^ 64 := Nat.pow_le_pow_right (by decide) h.2

theorem toNat_idWord {c : Config} (h : c.Legal) : (idWord c).toNat = c.width.bits + 256 * c.addrBits := by
  have hA := h.2
  have hW : c.width.bits ≤ 64 := by cases c.width <;> decide
  exact Nat.mod_eq_of_lt (by omega)

theorem toNat_statusWord (st : Status) :
    (statusWord st).toNat = st.busy.toNat + 2 * st.done.toNat + 4 * st.ovr.toNat + 256 * errField st.err := by
  have := st.busy.toNat_le
  have := st.done.toNat_le
  have := st.ovr.toNat_le
  have := errField_lt st.err
  exact Nat.mod_eq_of_lt (by omega)

/-- A bit count of the current byte reads as it is. -/
theorem toNat_shift (k : Fin 8) : (BitVec.ofNat 64 k.val).toNat = k.val :=
  Nat.mod_eq_of_lt (by omega)

/-- Settles O21: each slot is looked up, and the invariant bounds what it holds. -/
theorem registerContents : Obligations.RegisterContents := by
  intro s h read
  have hspace := space_le h.legal
  have hwr : s.wr.nbytes < s.cfg.space := lt_of_le_of_lt h.wr.opened h.wr.cap_lt
  have hrd : s.rd.nbytes < s.cfg.space := lt_of_le_of_lt h.rd.opened h.rd.len_lt
  have hwrNbytes : read 0x88 = s.wr.nbytes := Nat.mod_eq_of_lt (by omega)
  have hrdNbytes : read 0x98 = s.rd.nbytes := Nat.mod_eq_of_lt (by omega)
  refine ⟨toNat_idWord h.legal, Nat.mod_eq_of_lt (by have := s.ie.toNat_le; omega), rfl,
    toNat_statusWord s.status, rfl, rfl, BitVec.toNat_setWidth_of_le (by decide), rfl, rfl, rfl, rfl, rfl, rfl, rfl,
    rfl, rfl, rfl, rfl, hwrNbytes, toNat_shift _, hrdNbytes, toNat_shift _, fun offset ho _ => ?_, ?_, ?_⟩
  · show (slotValue s (slotAt offset)).toNat = 0
    rw [slotAt_reserved ho]
    rfl
  · simp only [List.forall_mem_cons]
    exact ⟨h.regs.param, h.regs.data, h.regs.count, nofun⟩
  · simp only [List.forall_mem_cons, hwrNbytes, hrdNbytes]
    exact ⟨h.regs.dstBase, h.regs.dstLen, h.regs.srcBase, h.regs.srcLen, h.regs.keyBase, h.regs.keyCount,
      h.regs.outBase, h.regs.outCap, hwr, hrd, nofun⟩

/-- Settles O9: the reset state is written out field by field. -/
theorem resetStateValues : Obligations.ResetStateValues := ⟨rfl, rfl, rfl, rfl, rfl, rfl, rfl, rfl⟩

/-! ### The cursors -/

theorem slotAt_eq_ctrl {offset : Nat} (ha : accessOK offset 8 = true) (h : slotAt offset = .ctrl) : offset = 0x08 := by
  have hslots : ∀ k, k < 32 → slotAt (8 * k) = .ctrl → k = 1 := by decide
  obtain ⟨-, h8, hw⟩ := accessOK_iff.1 ha
  obtain ⟨k, rfl⟩ := Nat.dvd_of_mod_eq_zero h8
  rw [hslots k (by omega) h]

/-- A register write leaves both cursors as they are, unless it is the soft reset (10_state.md R39). -/
theorem writeSlot_cursors {s : State} {slot : Slot} {v : Word} (h : slot = .ctrl → v.getLsbD 1 = false) :
    (writeSlot slot v s).wr = s.wr ∧ (writeSlot slot v s).rd = s.rd := by
  unfold writeSlot
  split
  · exact ⟨rfl, rfl⟩
  · cases slot with
    | ctrl =>
      dsimp only
      rw [writeCtrl_of_clear s (h rfl)]
      exact ⟨rfl, rfl⟩
    | _ => exact ⟨rfl, rfl⟩

theorem readSlot_cursors (slot : Slot) (s : State) : (readSlot slot s).wr = s.wr ∧ (readSlot slot s).rd = s.rd := by
  unfold readSlot
  split <;> exact ⟨rfl, rfl⟩

/-- Settles O24: of the host's actions only a register write could, and it is no soft reset. -/
theorem hostCannotSetCursors : Obligations.HostCannotSetCursors := by
  intro s t h hturn hreset hctrl
  rcases step_cases h with ⟨-, rfl | ⟨l, -, rfl⟩⟩ | ⟨s', he, -⟩ | ⟨l, offset, v, hp, ha, rfl⟩ | ⟨l, slot, rfl⟩ |
    ⟨l, a, bs, -, -, rfl⟩ | ⟨l, bs, rfl⟩ | ⟨l, hp, -⟩
  · exact ⟨rfl, rfl⟩
  · exact ⟨rfl, rfl⟩
  · exact absurd he (hturn s')
  · exact writeSlot_cursors fun hc => hctrl l v (slotAt_eq_ctrl ha hc ▸ hp)
  · exact readSlot_cursors slot _
  · exact ⟨rfl, rfl⟩
  · exact ⟨rfl, rfl⟩
  · exact absurd hp (hreset l)

end Sys2Proof.Machine
end

section
/-! Which registers a command writes (10_state.md R26, R30): RESULT, by succeeding, and PARAM. -/

namespace Sys2Proof.Machine

/-- A command that may write RESULT only if `writesResult`, and PARAM only if `writesParam`, has ended in `t`; it writes
RESULT only by succeeding, and no other operand or buffer register (10_state.md R26, R30). -/
structure State.RegsAfter (s : State) (writesResult writesParam : Prop) (t : State) : Prop where
  result : t.regs.result ≠ s.regs.result → t.status.err = none ∧ writesResult
  param : t.regs.param ≠ s.regs.param → writesParam
  rest : t.regs = { s.regs with result := t.regs.result, param := t.regs.param }

namespace State.RegsAfter

variable {s t : State} {writesResult writesParam : Prop}

theorem of_same (h : t.regs = s.regs) : s.RegsAfter writesResult writesParam t :=
  ⟨fun hr => absurd (by rw [h]) hr, fun hp => absurd (by rw [h]) hp, by rw [h]⟩

theorem of_result {v : Word} (h : t.regs = { s.regs with result := v }) (he : t.status.err = none)
    (hw : writesResult) : s.RegsAfter writesResult writesParam t :=
  ⟨fun _ => ⟨he, hw⟩, fun hp => absurd (by rw [h]) hp, by rw [h]⟩

theorem of_param {v : Word} (h : t.regs = { s.regs with param := v }) (hw : writesParam) :
    s.RegsAfter writesResult writesParam t :=
  ⟨fun hr => absurd (by rw [h]) hr, fun _ => hw, by rw [h]⟩

theorem of_both {v p : Word} (h : t.regs = { s.regs with result := v, param := p }) (he : t.status.err = none)
    (hr : writesResult) (hp : writesParam) : s.RegsAfter writesResult writesParam t :=
  ⟨fun _ => ⟨he, hr⟩, fun _ => hp, by rw [h]⟩

end State.RegsAfter

open State (RegsAfter)

section

variable {s t : State} {writesResult writesParam : Prop}

theorem complete_regs {code : Option Err} (h : complete code s = .next t) :
    s.RegsAfter writesResult writesParam t :=
  .of_same (by rw [complete_next.1 h, finish_regs])

theorem completeWriter_regs {r : Res Writer Unit} (h : completeWriter r s = .next t) :
    s.RegsAfter writesResult writesParam t :=
  .of_same (by rw [complete_next.1 h, finish_regs, State.withWriter_regs])

theorem completeReader_regs {r : Res RdCursor Nat} (hw : writesResult) (h : completeReader r s = .next t) :
    s.RegsAfter writesResult writesParam t := by
  cases r with
  | ok v rd =>
    obtain rfl := complete_next.1 h
    exact .of_result rfl rfl hw
  | raise e rd =>
    obtain rfl := complete_next.1 h
    exact .of_same rfl

theorem execWrInit_regs (h : execWrInit s = .next t) : s.RegsAfter writesResult writesParam t := by
  unfold execWrInit at h
  split at h
  · obtain rfl := complete_next.1 h
    exact .of_same rfl
  · exact complete_regs h

theorem execRdInit_regs (h : execRdInit s = .next t) : s.RegsAfter writesResult writesParam t := by
  unfold execRdInit at h
  split at h
  · obtain rfl := complete_next.1 h
    exact .of_same rfl
  · exact complete_regs h

theorem execEncVal_regs (h : execEncVal s = .next t) : s.RegsAfter writesResult writesParam t := by
  unfold execEncVal at h
  split at h
  · exact complete_regs h
  · exact completeWriter_regs h

theorem execDecVal_regs (hw : writesResult) (h : execDecVal s = .next t) :
    s.RegsAfter writesResult writesParam t := by
  unfold execDecVal at h
  split at h
  · exact complete_regs h
  · exact completeReader_regs hw h

theorem execEstimate_regs (hw : writesResult) (h : execEstimate s = .next t) :
    s.RegsAfter writesResult writesParam t := by
  unfold execEstimate at h
  split at h
  · exact complete_regs h
  · obtain rfl := complete_next.1 h
    exact .of_result rfl rfl hw

theorem execEncode_regs {auto : Bool} (hr : writesResult) (hp : auto = true → writesParam)
    (h : execEncode auto s = .next t) : s.RegsAfter writesResult writesParam t := by
  rcases execEncode_cases h with ⟨e, rfl⟩ | ⟨p, -, -, ⟨r, -, rfl⟩ | ⟨e, r, -, rfl⟩⟩
  · exact .of_same rfl
  · cases auto with
    | true => exact .of_both rfl rfl hr (hp rfl)
    | false => exact .of_result rfl rfl hr
  · cases auto with
    | true => exact .of_param rfl (hp rfl)
    | false => exact .of_same rfl

theorem execDecode_regs (hr : writesResult) (hp : 0 < s.hdr → writesParam) (h : execDecode s = .next t) :
    s.RegsAfter writesResult writesParam t := by
  rcases execDecode_cases h with ⟨e, rfl⟩ | ⟨-, ⟨e, rd, -, rfl, -⟩ | ⟨p, rd, -, hend⟩⟩
  · exact .of_same rfl
  · exact .of_same rfl
  · rcases hend with ⟨hpos, -, rfl⟩ | ⟨-, r, -, rfl⟩ | ⟨-, e, r, -, rfl⟩
    · exact .of_param rfl (hp hpos)
    · split
      · exact .of_result rfl rfl hr
      · exact .of_both rfl rfl hr (hp (Nat.pos_of_ne_zero ‹_›))
    · split
      · exact .of_same rfl
      · exact .of_param rfl (hp (Nat.pos_of_ne_zero ‹_›))

end

/-- Settles O25: command by command, the registers it ends with. -/
theorem resultAndParamWriters : Obligations.ResultAndParamWriters := by
  intro i s t h
  suffices hregs : s.RegsAfter
      (i = .rdBit ∨ (∃ n, i = .rdBits n) ∨ i = .decVal ∨ i = .estimate ∨ (∃ a, i = .encode a) ∨ i = .decode)
      (i = .encode true ∨ (i = .decode ∧ 0 < s.hdr)) t from ⟨hregs.result, hregs.param, hregs.rest⟩
  cases i with
  | nop => exact complete_regs h
  | wrInit => exact execWrInit_regs h
  | wrBit b => exact completeWriter_regs h
  | wrBits n => exact completeWriter_regs h
  | rdInit => exact execRdInit_regs h
  | rdBit => exact completeReader_regs (by simp) h
  | rdBits n => exact completeReader_regs (by simp) h
  | encVal => exact execEncVal_regs h
  | decVal => exact execDecVal_regs (by simp) h
  | estimate => exact execEstimate_regs (by simp) h
  | encode auto => exact execEncode_regs (by simp) (by simp) h
  | decode => exact execDecode_regs (by simp) (by simp) h

end Sys2Proof.Machine
end

section
/-! Which addresses a region holds, and the footprint of the running command (20_memory.md R75). -/

namespace Sys2Proof

theorem Region.contains_eq (r : Region) (x : Nat) : r.contains x = decide (r.base ≤ x ∧ x < r.base + r.len) :=
  (Bool.decide_and _ _).symm

theorem Region.contains_iff {r : Region} {x : Nat} : r.contains x = true ↔ r.base ≤ x ∧ x < r.base + r.len := by
  rw [contains_eq, decide_eq_true_eq]

/-- An address is outside a region exactly when the region does not hold it. -/
theorem Region.outside_iff {r : Region} {x : Nat} : r.Outside x ↔ r.contains x = false := by
  rw [contains_eq, decide_eq_false_iff_not, Region.Outside]
  omega

@[simp] theorem Region.contains_empty (base x : Nat) : ({ base := base, len := 0 } : Region).contains x = false := by
  rw [← Region.outside_iff]
  exact Nat.lt_or_ge x base

end Sys2Proof

namespace Sys2Proof.Machine

variable {s : State} {i : Instr}

/-- An idle engine and an illegal command run nothing (30_encoding.md R96). -/
theorem running_eq_none (h : s.status.busy = false ∨ ∃ e, decode s.cfg.width s.curCmd = .error e) :
    running s = none := by
  unfold running
  rcases h with hb | ⟨e, he⟩
  · rw [hb]; rfl
  · rw [he]; exact ite_self _

/-- A busy engine runs the command its word decodes to. -/
theorem running_eq_some (hb : s.status.busy = true) (hi : decode s.cfg.width s.curCmd = .ok i) :
    running s = some i := by
  rw [running, if_pos hb, hi]
  rfl

theorem runningReads_of_none (h : running s = none) : runningReads s = { base := 0, len := 0 } := by
  rw [runningReads, h]

theorem runningWrites_of_none (h : running s = none) : runningWrites s = { base := 0, len := 0 } := by
  rw [runningWrites, h]

theorem runningReads_of_some (h : running s = some i) : runningReads s = readFootprint i s := by
  rw [runningReads, h]

theorem runningWrites_of_some (h : running s = some i) : runningWrites s = writeFootprint i s := by
  rw [runningWrites, h]

/-- Settles O28: with nothing running both regions are empty; a running command's are those of its row of the table. -/
theorem footprintTable : Obligations.FootprintTable := by
  refine ⟨fun s h x => ?_, fun s i x hb hi => ?_⟩
  · have hnone := running_eq_none h
    rw [runningReads_of_none hnone, runningWrites_of_none hnone]
    exact ⟨Region.contains_empty 0 x, Region.contains_empty 0 x⟩
  · have hsome := running_eq_some hb hi
    rw [runningReads_of_some hsome, runningWrites_of_some hsome]
    have hempty := Region.contains_empty 0 x
    cases i with
    | nop | estimate | wrInit | rdInit => exact ⟨hempty, hempty⟩
    | wrBit _ | wrBits _ | encVal => exact ⟨hempty, s.wrRegion.contains_eq x⟩
    | rdBit | rdBits _ | decVal => exact ⟨s.rdRegion.contains_eq x, hempty⟩
    | encode _ => exact ⟨s.keyRegion.contains_eq x, s.dstRegion.contains_eq x⟩
    | decode => exact ⟨s.srcRegion.contains_eq x, s.outRegion.contains_eq x⟩

end Sys2Proof.Machine
end

section
/-! Keys in memory: the bytes StoreKey writes and LoadKey reads (20_memory.md R66, R67). -/

namespace Sys2Proof.Machine

variable {c : Config} {m : Memory}

/-- W bits are K bytes (00_scope.md R6). -/
theorem KeyWidth.bits_eq (w : KeyWidth) : w.bits = 8 * w.bytes := by cases w <;> rfl

/-- A region answers when its first byte and the bytes after it do. -/
theorem answers_succ {a k : Nat} (h : c.Answers { base := a, len := k + 1 }) :
    c.accessible a = true ∧ c.Answers { base := a + 1, len := k } :=
  ⟨h a le_rfl (Nat.lt_add_of_pos_right k.succ_pos),
    fun x h1 h2 => h x (Nat.le_of_succ_le h1) (by simp only at h2 ⊢; omega)⟩

/-- The digits of a value above the lowest byte are those of the value shifted down by a byte. -/
theorem div_pow_byte_succ (v j : Nat) : v / 2 ^ (8 * (j + 1)) = v / 2 ^ 8 / 2 ^ (8 * j) := by
  rw [Nat.div_div_eq_div_mul, ← Nat.pow_add, Nat.mul_succ, Nat.add_comm]

/-- Stores to bytes that all answer end with OK (20_memory.md R67). -/
theorem storeBytes_ok (k : Nat) : ∀ {a v : Nat} {m : Memory}, c.Answers { base := a, len := k } →
    storeBytes c a k v m = .ok () (storeBytes c a k v m).state := by
  induction k with
  | zero => intro a v m _; rfl
  | succ k ih =>
    intro a v m ha
    obtain ⟨hhead, htail⟩ := answers_succ ha
    rw [storeBytes, if_pos hhead]
    exact ih htail

/-- Byte `j` of the stored bytes is byte `j` of the value, least significant first (20_memory.md R67). -/
theorem storeBytes_read (k : Nat) : ∀ {a v j : Nat} {m : Memory}, c.Answers { base := a, len := k } → j < k →
    ((storeBytes c a k v m).state.read (a + j)).toNat = v / 2 ^ (8 * j) % 2 ^ 8 := by
  induction k with
  | zero => intro a v j m _ hj; omega
  | succ k ih =>
    intro a v j m ha hj
    obtain ⟨hhead, htail⟩ := answers_succ ha
    rw [storeBytes, if_pos hhead]
    cases j with
    | zero =>
      rw [Nat.add_zero a, storeBytes_outside k (.inl (Nat.lt_succ_self a)), Memory.read_write_self, BitVec.toNat_ofNat,
        Nat.mul_zero, Nat.pow_zero, Nat.div_one]
    | succ j =>
      rw [Nat.add_comm j 1, ← Nat.add_assoc, Nat.add_comm 1 j, div_pow_byte_succ]
      exact ih htail (Nat.lt_of_succ_lt_succ hj)

/-- Bytes that answer and hold the digits of `v` are loaded as the low part of `v` (20_memory.md R66). -/
theorem loadBytes_eq (k : Nat) : ∀ {a v : Nat}, c.Answers { base := a, len := k } →
    (∀ j, j < k → (m.read (a + j)).toNat = v / 2 ^ (8 * j) % 2 ^ 8) → loadBytes c m a k = .ok (v % 2 ^ (8 * k)) := by
  induction k with
  | zero => intro a v _ _; rw [Nat.mul_zero, Nat.pow_zero, Nat.mod_one]; rfl
  | succ k ih =>
    intro a v ha hread
    obtain ⟨hhead, htail⟩ := answers_succ ha
    have hlow : (m.read a).toNat = v % 2 ^ 8 := by simpa using hread 0 k.succ_pos
    have hhigh : loadBytes c m (a + 1) k = .ok (v / 2 ^ 8 % 2 ^ (8 * k)) := by
      refine ih htail fun j hj => ?_
      rw [Nat.add_assoc, Nat.add_comm 1 j, hread (j + 1) (Nat.succ_lt_succ hj), div_pow_byte_succ]
    rw [loadBytes, if_pos hhead, hhigh, hlow, Nat.mul_succ, Nat.add_comm (8 * k), Nat.pow_add, Nat.mod_mul]

/-- Settles O29: the stores end with OK since the bytes answer; the key's bytes are its digits in base 256, which
LoadKey adds up again. -/
theorem keyStoredIsLoaded : Obligations.KeyStoredIsLoaded := by
  intro c m base i v hv ha
  have hread := fun j hj => storeBytes_read (v := v) (j := j) (m := m) c.width.bytes ha hj
  refine ⟨_, storeBytes_ok c.width.bytes ha, ?_, hread, fun a hout => storeBytes_outside _ hout⟩
  rw [loadKey, loadBytes_eq c.width.bytes ha hread, ← KeyWidth.bits_eq, Nat.mod_eq_of_lt hv]

end Sys2Proof.Machine
end

section
/-! No command writes outside its write footprint (20_memory.md R70). -/

namespace Sys2Proof.Machine

/-- A draw over a region is seen in the region only. -/
theorem read_drawMem_outside {c : Config} {k x : Nat} {r : Region} {m : Memory} (hx : r.Outside x) :
    (drawMem c k r m).read x = m.read x := by
  unfold Region.Outside at hx
  rw [drawMem, Memory.read_fill, if_neg (by omega)]

/-- `t` holds the bytes of `s` outside the region `q`. -/
def State.WritesWithin (s : State) (q : Region) (t : State) : Prop :=
  ∀ x, q.Outside x → t.mem.read x = s.mem.read x

variable {s t u : State} {q : Region}

theorem State.WritesWithin.of_mem (h : t.mem = s.mem) : s.WritesWithin q t := fun _ _ => by rw [h]

/-- Drawing a region within it keeps what is outside. -/
theorem State.WritesWithin.drawRegion (h : s.WritesWithin q u) : s.WritesWithin q (u.drawRegion q) := fun x hx => by
  rw [State.drawRegion_mem, read_drawMem_outside hx, h x hx]

theorem complete_within {code : Option Err} (hu : s.WritesWithin q u) (h : complete code u = .next t) :
    s.WritesWithin q t := by
  rw [complete_next.1 h]
  exact hu

theorem completeWriter_within {r : Res Writer Unit} (hr : KeepsWriter s.cfg s.writer r)
    (h : completeWriter r s = .next t) : s.WritesWithin s.wrRegion t :=
  complete_within (u := s.withWriter r.state) hr.within.outside h

theorem completeReader_within {r : Res RdCursor Nat} (h : completeReader r s = .next t) : s.WritesWithin q t := by
  cases r with
  | ok v rd => exact complete_within (u := (s.withReader rd).withResult v) (.of_mem rfl) h
  | raise e rd => exact complete_within (u := s.withReader rd) (.of_mem rfl) h

theorem execWrInit_within (h : execWrInit s = .next t) : s.WritesWithin q t := by
  unfold execWrInit at h
  split at h
  · exact complete_within (.of_mem (by rfl)) h
  · exact complete_within (.of_mem rfl) h

theorem execRdInit_within (h : execRdInit s = .next t) : s.WritesWithin q t := by
  unfold execRdInit at h
  split at h
  · exact complete_within (.of_mem (by rfl)) h
  · exact complete_within (.of_mem rfl) h

theorem execEncVal_within (hs : s.Inv) (h : execEncVal s = .next t) : s.WritesWithin s.wrRegion t := by
  unfold execEncVal at h
  split at h
  · exact complete_within (.of_mem rfl) h
  · exact completeWriter_within (keepsWriter_encodeValue _ _ hs.wr) h

theorem execDecVal_within (h : execDecVal s = .next t) : s.WritesWithin q t := by
  unfold execDecVal at h
  split at h
  · exact complete_within (.of_mem rfl) h
  · exact completeReader_within h

theorem execEstimate_within (h : execEstimate s = .next t) : s.WritesWithin q t := by
  unfold execEstimate at h
  split at h
  · exact complete_within (.of_mem rfl) h
  · exact complete_within (.of_mem (State.withResult_mem _ _)) h

/-- ENCODE stores through the writer it opens on the destination, and an error draws the destination only
(43_set_codec.md R197). -/
theorem execEncode_within {auto : Bool} (hs : s.Inv) (h : execEncode auto s = .next t) :
    s.WritesWithin s.dstRegion t := by
  rcases execEncode_cases h with ⟨e, rfl⟩ | ⟨p, hc, -, hend⟩
  · exact .of_mem rfl
  · have hfresh := WrCursor.Sound.fresh hs.regs.dstBase hs.regs.dstLen hc.destination
    obtain ⟨-, hkeep, -⟩ := encodeStream_keeps (p := p) rfl hfresh
    rcases hend with ⟨r, hr, rfl⟩ | ⟨e, r, hr, rfl⟩ <;> rw [hr] at hkeep
    · exact hkeep.outside
    · exact State.WritesWithin.drawRegion (u := (if auto then s.withParam p else s).withWriter r.wr) hkeep.outside

/-- DECODE stores its keys in the output region, and an error draws that region only (43_set_codec.md R205, R207). -/
theorem execDecode_within (hs : s.Inv) (h : execDecode s = .next t) : s.WritesWithin s.outRegion t := by
  rcases execDecode_cases h with ⟨e, rfl⟩ | ⟨hc, ⟨e, rd, -, rfl, -⟩ | ⟨p, rd, hstart, hend⟩⟩
  · exact .of_mem rfl
  · exact State.WritesWithin.drawRegion (u := s.withReader rd) (.of_mem rfl)
  · obtain ⟨hrd, -⟩ := decode_start hs hc hstart
    obtain ⟨-, -, -, hkeep⟩ := decodeKeys_keeps _ _ (8 * s.regs.srcLen.toNat + 1) hc.output
      (r := { rd := rd, mem := s.mem, loop := LoopState.start p }) hrd hs.mem (Nat.zero_le _)
    rw [← decodeElements] at hkeep
    rcases hend with ⟨-, -, rfl⟩ | ⟨-, r, hr, rfl⟩ | ⟨-, e, r, hr, rfl⟩
    · exact State.WritesWithin.drawRegion (u := (s.withParam p).withReader rd) (.of_mem rfl)
    · rw [hr] at hkeep
      exact hkeep
    · rw [hr] at hkeep
      exact State.WritesWithin.drawRegion
        (u := ((if s.hdr = 0 then s else s.withParam p).withMem r.mem).withReader r.rd) hkeep

/-- Every command keeps the bytes outside its write footprint. -/
theorem exec_within {i : Instr} (hs : s.Inv) (h : exec i s = .next t) : s.WritesWithin (writeFootprint i s) t := by
  cases i with
  | nop => exact complete_within (.of_mem rfl) h
  | wrInit => exact execWrInit_within h
  | wrBit b => exact completeWriter_within (keepsWriter_writeBit hs.wr) h
  | wrBits n => exact completeWriter_within (keepsWriter_writeBits _ _ hs.wr) h
  | rdInit => exact execRdInit_within h
  | rdBit => exact completeReader_within h
  | rdBits n => exact completeReader_within h
  | encVal => exact execEncVal_within hs h
  | decVal => exact execDecVal_within h
  | estimate => exact execEstimate_within h
  | encode auto => exact execEncode_within hs h
  | decode => exact execDecode_within hs h

/-- Settles O54: what the footprint does not hold is outside it, and there every command keeps the bytes. -/
theorem writesStayInFootprint : Obligations.WritesStayInFootprint :=
  fun _ _ _ hs h a ha => exec_within hs h a (Region.outside_iff.2 ha)

end Sys2Proof.Machine
end

section
/-! When the engine's turn is refused (20_memory.md R64). -/

namespace Sys2Proof.Machine

/-- Two regions overlap exactly when they share an address (20_memory.md R69). -/
theorem overlap_iff_shared {r q : Region} : overlap r q = true ↔ ∃ a, q.contains a = true ∧ r.contains a = true := by
  simp only [overlap_iff, Region.contains_iff]
  refine ⟨fun h => ⟨max r.base q.base, by omega⟩, ?_⟩
  rintro ⟨a, hq, hr⟩
  omega

theorem firstOverlap_isSome {r : Region} (l : List Region) :
    (firstOverlap r l).isSome = true ↔ ∃ a, (l.any fun d => d.contains a) = true ∧ r.contains a = true := by
  induction l with
  | nil => simp [firstOverlap]
  | cons d ds ih =>
    simp only [firstOverlap, List.any_cons, Bool.or_eq_true, or_and_right, exists_or, ← overlap_iff_shared]
    cases hd : overlap r d with
    | true => simp
    | false => simpa using ih

variable {s : State} {i : Instr}

/-- A command meets a device exactly when it takes its buffers and a byte of its footprint is a device's. -/
theorem deviceInBuffer_isSome : (deviceInBuffer i s).isSome = true ↔ takesBuffers i s = true ∧
    ∃ a, s.cfg.isDevice a = true ∧
      ((readFootprint i s).contains a = true ∨ (writeFootprint i s).contains a = true) := by
  simp only [and_or_left, exists_or, Config.isDevice, ← firstOverlap_isSome]
  unfold deviceInBuffer
  cases takesBuffers i s with
  | false => simp
  | true =>
    cases firstOverlap (readFootprint i s) s.cfg.devices with
    | some d => simp
    | none => cases firstOverlap (writeFootprint i s) s.cfg.devices <;> simp

/-! ### No command is refused by its own meaning -/

/-- A test between two ends answers a next state when both do. -/
theorem ite_next {p : Prop} [Decidable p] {x y : Host.Outcome State Fault Refusal} (hx : ∃ t, x = .next t)
    (hy : ∃ t, y = .next t) : ∃ t, (if p then x else y) = .next t := by
  split
  · exact hx
  · exact hy

theorem complete_nextState (code : Option Err) (s : State) : ∃ t, complete code s = .next t := ⟨_, rfl⟩

theorem completeReader_next (r : Res RdCursor Nat) (s : State) : ∃ t, completeReader r s = .next t := by
  cases r <;> exact complete_nextState _ _

theorem completeEncode_next (r : Res EncodeRun Unit) (s : State) : ∃ t, completeEncode r s = .next t := by
  cases r <;> exact complete_nextState _ _

theorem completeDecode_next (r : Res DecodeRun Unit) (s : State) : ∃ t, completeDecode r s = .next t := by
  cases r <;> exact complete_nextState _ _

theorem execEncode_next (auto : Bool) (s : State) : ∃ t, execEncode auto s = .next t := by
  refine ite_next ?_ (complete_nextState _ _)
  cases encodeParam auto s with
  | error e => exact complete_nextState _ _
  | ok p => exact completeEncode_next _ _

theorem decodeHeader_next (s : State) : ∃ t, decodeHeader s = .next t := by
  unfold decodeHeader
  split
  · exact complete_nextState _ _
  · exact ite_next (complete_nextState _ _) (completeDecode_next _ _)

theorem execDecode_next (s : State) : ∃ t, execDecode s = .next t :=
  ite_next (ite_next (complete_nextState _ _) (ite_next (completeDecode_next _ _) (decodeHeader_next s)))
    (complete_nextState _ _)

/-- Every command's meaning answers a next state, from every state (44_control.md R232). -/
theorem exec_next (i : Instr) (s : State) : ∃ t, exec i s = .next t := by
  have hend := complete_nextState
  cases i with
  | nop | wrBit _ | wrBits _ => exact hend _ _
  | wrInit | rdInit | estimate => exact ite_next (hend _ _) (hend _ _)
  | rdBit | rdBits _ => exact completeReader_next _ s
  | encVal => exact ite_next (hend _ _) (hend _ _)
  | decVal => exact ite_next (hend _ _) (completeReader_next _ s)
  | encode auto => exact execEncode_next auto s
  | decode => exact execDecode_next s

/-- The engine's turn is refused exactly when its command meets a device. -/
theorem runCommand_refused_iff (hi : decode s.cfg.width s.curCmd = .ok i) :
    (∃ a, runCommand s = .refused (.deviceBuffer a)) ↔ (deviceInBuffer i s).isSome = true := by
  unfold runCommand
  rw [hi]
  dsimp only
  cases deviceInBuffer i s with
  | some a => exact ⟨fun _ => rfl, fun _ => ⟨a, rfl⟩⟩
  | none =>
    obtain ⟨t, ht⟩ := exec_next i s
    simp [ht]

/-! ### Which commands take their buffers (notes/assumptions/11.md) -/

/-- The one error of a load is BUS_ERROR (20_memory.md R66). -/
theorem loadBytes_error {c : Config} {m : Memory} {e : Err} (k : Nat) : ∀ {a : Nat}, loadBytes c m a k = .error e →
    e = .busError := by
  induction k with
  | zero => intro a h; cases h
  | succ k ih =>
    intro a h
    simp only [loadBytes] at h
    split at h
    · split at h
      · cases h
      · rename_i hrest
        cases h
        exact ih hrest
    · cases h
      rfl

/-- ENCODE with AUTO = 1 is not refused for its PARAM (43_set_codec.md R193). -/
theorem encodeParam_true_ne (s : State) : encodeParam true s ≠ .error .paramRange := by
  intro h
  simp only [encodeParam, if_true] at h
  split at h
  · cases h
  · split at h
    · rename_i hload
      cases h
      cases loadBytes_error _ hload
    · cases h

/-- ENCODE with AUTO = 0 is refused for its PARAM exactly when that is W or more or too large for the header
(43_set_codec.md R192). -/
theorem encodeParam_false_ne_iff (s : State) : encodeParam false s ≠ .error .paramRange ↔
    s.paramVal < s.keyBits ∧ (0 < s.hdr → s.paramVal < 2 ^ s.hdr) := by
  rw [encodeParam, if_neg Bool.false_ne_true]
  split
  · exact iff_of_false (fun h => h rfl) (by omega)
  · exact iff_of_true (fun h => by cases h) (by omega)

theorem takesBuffers_encode_iff (auto : Bool) (s : State) : takesBuffers (.encode auto) s = true ↔
    s.EncodeChecks ∧ (auto = true ∨ (s.paramVal < s.keyBits ∧ (0 < s.hdr → s.paramVal < 2 ^ s.hdr))) := by
  rw [takesBuffers, Bool.and_eq_true, encodeConfigOK_iff, bne_iff_ne]
  cases auto with
  | true => simp [encodeParam_true_ne]
  | false => simp [encodeParam_false_ne_iff]

theorem takesBuffers_decode_iff (s : State) : takesBuffers .decode s = true ↔
    s.DecodeChecks ∧ (s.hdr = 0 → s.paramVal < s.keyBits) := by
  simp [takesBuffers, decodeConfigOK_iff, decodeParamBad, imp_iff_not_or]

/-- Taking the turn off `pending` is nothing to a command's checks. -/
theorem State.EngineAt.takesBuffers_eq {s s' : State} (h : s.EngineAt s') (i : Instr) :
    takesBuffers i s' = takesBuffers i s := by
  obtain ⟨-, ⟨-, rfl⟩ | ⟨l, -, rfl⟩ | ⟨l, -, rfl⟩⟩ := h
  · rfl
  · rfl
  · cases i <;> rfl

theorem State.EngineAt.curCmd_eq {s s' : State} (h : s.EngineAt s') : s'.curCmd = s.curCmd := by
  obtain ⟨-, ⟨-, rfl⟩ | ⟨l, -, rfl⟩ | ⟨l, -, rfl⟩⟩ := h <;> rfl

/-- Settles O6: the turn is refused exactly when the command meets a device, and whether it takes its buffers is read
off its row. -/
theorem deviceBufferRefused : Obligations.DeviceBufferRefused := by
  intro s s' i hturn hi
  rw [← hturn.cfg_eq, ← hturn.curCmd_eq] at hi
  rw [step_of_engineAt hturn, runCommand_refused_iff hi, deviceInBuffer_isSome, hturn.takesBuffers_eq, hturn.cfg_eq]
  refine and_congr_left fun _ => ?_
  cases i with
  | nop | wrInit | rdInit | estimate => exact iff_of_false Bool.false_ne_true id
  | wrBit _ | rdBit => exact iff_of_true rfl trivial
  | wrBits _ | rdBits _ | encVal | decVal => exact decide_eq_true_iff
  | encode auto => exact takesBuffers_encode_iff auto s
  | decode => exact takesBuffers_decode_iff s

end Sys2Proof.Machine
end

section
/-! Nothing a command leaves but memory depends on memory outside its read footprint (20_memory.md R71): two memories
that agree on it give runs that end alike. -/

namespace Sys2Proof.Machine

/-- The two memories hold the same bytes in the region. -/
def Memory.AgreeOn (m m' : Memory) (q : Region) : Prop := ∀ a, q.contains a = true → m'.read a = m.read a

/-- Storing the same byte to both keeps agreement, wherever it lies. -/
theorem Memory.AgreeOn.write {m m' : Memory} {q : Region} (h : m.AgreeOn m' q) (a : Nat) (b : Byte) :
    (m.write a b).AgreeOn (m'.write a b) q := fun x hx => by
  rw [Memory.read_write, Memory.read_write, h x hx]

/-- Two sub-procedures end with the same value or the same error, in states related by `R`. -/
inductive Res.Alike {σ α : Type} (R : σ → σ → Prop) : Res σ α → Res σ α → Prop where
  | ok (a : α) {x x' : σ} (h : R x x') : Res.Alike R (.ok a x) (.ok a x')
  | raise (e : Err) {x x' : σ} (h : R x x') : Res.Alike R (.raise e x) (.raise e x')

/-! ### The reader: the same result from either memory -/

section

variable {c : Config} {m m' : Memory} {r : RdCursor} {q : Region}

/-- The source of a reader. -/
def RdCursor.region (r : RdCursor) : Region := { base := r.base, len := r.len }

theorem RdCursor.Within.region_eq {r r' : RdCursor} (h : r.Within r') : r'.region = r.region := by
  rw [RdCursor.region, h.base, h.len, RdCursor.region]

theorem readBit_congr (hm : m.AgreeOn m' r.region) : readBit c m' r = readBit c m r := by
  unfold readBit
  split
  · split
    · rfl
    · have hread : m'.read (r.base + r.nbytes) = m.read (r.base + r.nbytes) :=
        hm _ (Region.contains_iff.2 ⟨Nat.le_add_right _ _, by simp only [RdCursor.region]; omega⟩)
      rw [hread]
  · rfl

theorem readBitsFrom_congr (n : Nat) : ∀ {v : Nat} {r : RdCursor}, r.Sound c → m.AgreeOn m' r.region →
    readBitsFrom c m' n v r = readBitsFrom c m n v r := by
  induction n with
  | zero => intro v r _ _; rfl
  | succ n ih =>
    intro v r hs hm
    simp only [readBitsFrom, readBit_congr hm]
    cases h : readBit c m r with
    | raise e r' => rfl
    | ok b r' =>
      obtain ⟨hs', hw⟩ := readBit_sound hs h
      exact ih hs' (hw.region_eq ▸ hm)

theorem scanOnes_congr (fuel : Nat) : ∀ {n : Nat} {r : RdCursor}, r.Sound c → m.AgreeOn m' r.region →
    scanOnes c m' fuel n r = scanOnes c m fuel n r := by
  induction fuel with
  | zero => intro n r _ _; rfl
  | succ fuel ih =>
    intro n r hs hm
    simp only [scanOnes, readBit_congr hm]
    cases h : readBit c m r with
    | raise e r' => rfl
    | ok b r' =>
      obtain ⟨hs', hw⟩ := readBit_sound hs h
      cases b with
      | false => rfl
      | true => exact ih hs' (hw.region_eq ▸ hm)

theorem decodeValue_congr (p : Nat) (hs : r.Sound c) (hm : m.AgreeOn m' r.region) :
    decodeValue c m' p r = decodeValue c m p r := by
  have hk := keepsReader_scanOnes (m := m) (avail r + 1) (q := 0) hs
  simp only [decodeValue, readBits, scanOnes_congr _ hs hm]
  cases h : scanOnes c m (avail r + 1) 0 r with
  | raise e r' => rfl
  | ok n r' =>
    rw [h] at hk
    obtain ⟨hs', hw⟩ := hk
    have hrem := readBitsFrom_congr p (v := 0) (r := r') hs' (hw.region_eq ▸ hm)
    simp only [hrem]

end

/-! ### The writer: the same stores to either memory -/

/-- Two writers with the same cursor, over memories that agree on the region. -/
structure Writer.Alike (q : Region) (w w' : Writer) : Prop where
  cur : w'.cur = w.cur
  mem : w.mem.AgreeOn w'.mem q

section

variable {c : Config} {q : Region} {w w' : Writer}

theorem putByte_alike (h : w.Alike q w') (nbytes : Nat) (k : Fin 8) (byte : Byte) :
    (putByte w nbytes k byte).Alike q (putByte w' nbytes k byte) := by
  unfold putByte
  rw [h.cur]
  exact ⟨rfl, h.mem.write _ _⟩

theorem writeBit_alike (b : Bool) (h : w.Alike q w') :
    Res.Alike (Writer.Alike q) (writeBit c b w) (writeBit c b w') := by
  unfold writeBit
  rw [h.cur]
  split
  · split
    · exact .raise _ h
    · split
      · exact .ok () (putByte_alike h _ _ _)
      · exact .raise _ h
  · exact .ok () (putByte_alike h _ _ _)

theorem writeString_alike (l : List Bool) : ∀ {w w' : Writer}, w.Alike q w' →
    Res.Alike (Writer.Alike q) (writeString c l w) (writeString c l w') := by
  induction l with
  | nil => intro w w' h; exact .ok () h
  | cons b l ih =>
    intro w w' h
    simp only [writeString]
    have hb := writeBit_alike (c := c) b h
    generalize writeBit c b w = x, writeBit c b w' = x' at hb ⊢
    cases hb with
    | ok _ h1 => exact ih h1
    | raise e h1 => exact .raise e h1

theorem writeBits_alike (v n : Nat) (h : w.Alike q w') :
    Res.Alike (Writer.Alike q) (writeBits c v n w) (writeBits c v n w') := by
  simpa only [writeBits_eq] using writeString_alike _ h

theorem encodeValue_alike (v p : Nat) (h : w.Alike q w') :
    Res.Alike (Writer.Alike q) (encodeValue c v p w) (encodeValue c v p w') := by
  simpa only [encodeValue_eq] using writeString_alike _ h

end

/-! ### Keys in memory -/

section

variable {c : Config} {m m' : Memory} {q : Region}

theorem loadBytes_congr (k : Nat) : ∀ {a : Nat}, q.base ≤ a → a + k ≤ q.base + q.len → m.AgreeOn m' q →
    loadBytes c m' a k = loadBytes c m a k := by
  induction k with
  | zero => intro a _ _ _; rfl
  | succ k ih =>
    intro a hlo hhi hm
    simp only [loadBytes]
    rw [hm a (Region.contains_iff.2 ⟨hlo, by omega⟩), ih (by omega) (by omega) hm]

/-- A key of the array is the same in memories that agree on the array. -/
theorem loadKey_congr {base i n : Nat} (hi : i < n) (hm : m.AgreeOn m' { base := base, len := n * c.width.bytes }) :
    loadKey c m' base i = loadKey c m base i := by
  have hkey : (i + 1) * c.width.bytes ≤ n * c.width.bytes := Nat.mul_le_mul_right _ hi
  rw [Nat.succ_mul] at hkey
  exact loadBytes_congr _ (Nat.le_add_right _ _) (by simp only; omega) hm

theorem storeBytes_alike (k : Nat) : ∀ {a v : Nat} {m m' : Memory}, m.AgreeOn m' q →
    Res.Alike (fun x x' => x.AgreeOn x' q) (storeBytes c a k v m) (storeBytes c a k v m') := by
  induction k with
  | zero => intro a v m m' hm; exact .ok () hm
  | succ k ih =>
    intro a v m m' hm
    unfold storeBytes
    split
    · exact ih (hm.write _ _)
    · exact .raise _ hm

end

/-! ### The loops of ENCODE and DECODE -/

/-- Two runs of ENCODE that differ in memory only, and not in the region. -/
structure EncodeRun.Alike (q : Region) (r r' : EncodeRun) : Prop where
  wr : r.wr.Alike q r'.wr
  loop : r'.loop = r.loop

/-- Two runs of DECODE that differ in memory only, and not in the region. -/
structure DecodeRun.Alike (q : Region) (r r' : DecodeRun) : Prop where
  rd : r'.rd = r.rd
  mem : r.mem.AgreeOn r'.mem q
  loop : r'.loop = r.loop

section

variable {c : Config}

/-- ENCODE's element phase reads the key array only, and its stores are the same to either memory. -/
theorem encodeKeys_alike {keyBase count : Nat} (n : Nat) : ∀ {r r' : EncodeRun},
    r.Alike { base := keyBase, len := count * c.width.bytes } r' → r.loop.keyIndex + n ≤ count →
    Res.Alike (EncodeRun.Alike { base := keyBase, len := count * c.width.bytes })
      (encodeKeys c keyBase n r) (encodeKeys c keyBase n r') := by
  induction n with
  | zero => intro r r' h _; exact .ok () h
  | succ n ih =>
    intro r r' h hn
    simp only [encodeKeys]
    rw [h.loop, loadKey_congr (by omega) h.wr.mem]
    cases loadKey c r.wr.mem keyBase r.loop.keyIndex with
    | error e => exact .raise e h
    | ok key =>
      dsimp only
      split
      · exact .raise _ h
      · have hw := encodeValue_alike (c := c) (key - r.loop.nextMin) r.loop.p h.wr
        generalize encodeValue c (key - r.loop.nextMin) r.loop.p r.wr = x,
          encodeValue c (key - r.loop.nextMin) r.loop.p r'.wr = x' at hw ⊢
        cases hw with
        | ok _ hw1 => exact ih ⟨hw1, rfl⟩ (by simp only [LoopState.afterKey]; omega)
        | raise e hw1 => exact .raise e ⟨hw1, rfl⟩

/-- DECODE's element phase reads the source only, and its stores are the same to either memory. -/
theorem decodeKeys_alike {outBase cap : Nat} (fuel : Nat) : ∀ {r r' : DecodeRun}, r.rd.Sound c →
    r.Alike r.rd.region r' → Res.Alike (DecodeRun.Alike r.rd.region)
      (decodeKeys c outBase cap fuel r) (decodeKeys c outBase cap fuel r') := by
  induction fuel with
  | zero => intro r r' _ h; exact .ok () h
  | succ n ih =>
    intro r r' hs h
    have hk := keepsReader_decodeValue (m := r.mem) r.loop.p hs
    simp only [decodeKeys]
    rw [h.loop, h.rd, decodeValue_congr _ hs h.mem]
    cases hd : decodeValue c r.mem r.loop.p r.rd with
    | raise e rd =>
      cases e with
      | endOfStream => exact .ok () ⟨rfl, h.mem, rfl⟩
      | _ => exact .raise _ ⟨rfl, h.mem, rfl⟩
    | ok d rd =>
      rw [hd] at hk
      obtain ⟨hs', hw⟩ := hk
      have hregion : rd.region = r.rd.region := hw.region_eq
      dsimp only
      split
      · exact .raise _ ⟨rfl, h.mem, rfl⟩
      · split
        · exact .raise _ ⟨rfl, h.mem, rfl⟩
        · have hm := storeBytes_alike (c := c) (a := outBase + r.loop.decoded * c.width.bytes)
            (v := d + r.loop.nextMin) c.width.bytes h.mem
          rw [← storeKey, ← storeKey] at hm
          generalize storeKey c outBase r.loop.decoded (d + r.loop.nextMin) r.mem = x,
            storeKey c outBase r.loop.decoded (d + r.loop.nextMin) r'.mem = x' at hm ⊢
          cases hm with
          | ok _ hm1 =>
            rw [← hregion] at hm1 ⊢
            exact ih (r := { rd := rd, mem := _, loop := _ }) hs' ⟨rfl, hm1, rfl⟩
          | raise e hm1 => exact .raise e ⟨rfl, hm1, rfl⟩

end

/-! ### The commands -/

/-- Two runs of a command end in states that differ in memory only. -/
def EndAlike (x y : Host.Outcome State Fault Refusal) : Prop := ∃ t m, x = .next t ∧ y = .next (t.withMem m)

section

variable {s : State} {m : Memory}

theorem EndAlike.ite {p : Prop} [Decidable p] {x y x' y' : Host.Outcome State Fault Refusal} (hx : p → EndAlike x x')
    (hy : EndAlike y y') : EndAlike (if p then x else y) (if p then x' else y') := by
  split
  · exact hx ‹p›
  · exact hy

theorem complete_alike (code : Option Err) (s : State) (m : Memory) :
    EndAlike (complete code s) (complete code (s.withMem m)) := ⟨_, m, rfl, rfl⟩

theorem completeWriter_alike {q : Region} {r r' : Res Writer Unit} (h : Res.Alike (Writer.Alike q) r r') :
    EndAlike (completeWriter r s) (completeWriter r' (s.withMem m)) := by
  cases h with
  | @ok _ w w' hw | @raise _ w w' hw =>
    refine ⟨_, w'.mem, rfl, ?_⟩
    simp only [completeWriter, Res.state, State.withWriter, hw.cur]
    rfl

theorem completeReader_alike {r r' : Res RdCursor Nat} (h : r' = r) :
    EndAlike (completeReader r s) (completeReader r' (s.withMem m)) := by
  subst h
  cases r' with
  | ok v rd => exact complete_alike _ ((s.withReader rd).withResult v) m
  | raise e rd => exact complete_alike _ (s.withReader rd) m

theorem completeEncode_alike {q : Region} {r r' : Res EncodeRun Unit} (h : Res.Alike (EncodeRun.Alike q) r r') :
    EndAlike (completeEncode r s) (completeEncode r' (s.withMem m)) := by
  cases h with
  | @ok _ x x' hx =>
    refine ⟨_, x'.wr.mem, rfl, ?_⟩
    simp only [completeEncode, State.withWriter, hx.wr.cur]
    rfl
  | @raise e x x' hx =>
    refine ⟨_, drawMem s.cfg s.draws s.dstRegion x'.wr.mem, rfl, ?_⟩
    simp only [completeEncode, State.withWriter, hx.wr.cur]
    rfl

theorem failDecode_alike (e : Err) (rd : RdCursor) (s : State) (m : Memory) :
    EndAlike (failDecode e rd s) (failDecode e rd (s.withMem m)) :=
  ⟨_, drawMem s.cfg s.draws s.outRegion m, rfl, rfl⟩

theorem completeDecode_alike {q : Region} {r r' : Res DecodeRun Unit} (h : Res.Alike (DecodeRun.Alike q) r r') :
    EndAlike (completeDecode r s) (completeDecode r' (s.withMem m)) := by
  cases h with
  | @ok _ x x' hx =>
    refine ⟨_, x'.mem, rfl, ?_⟩
    simp only [completeDecode, hx.rd, hx.loop]
    rfl
  | @raise e x x' hx =>
    simp only [completeDecode, hx.rd]
    exact failDecode_alike e x.rd (s.withMem x.mem) x'.mem

@[simp] theorem State.withMem_hdr (m : Memory) (s : State) : (s.withMem m).hdr = s.hdr := rfl

/-- The writer of the state is the same one over another memory. -/
theorem writer_alike (s : State) (m : Memory) : s.writer.Alike { base := 0, len := 0 } (s.withMem m).writer :=
  ⟨rfl, fun a ha => by rw [Region.contains_empty] at ha; cases ha⟩

/-- ENCODE's parameter comes from PARAM or from the last key, which is in the key array (43_set_codec.md R192, R193). -/
theorem encodeParam_congr (auto : Bool) (hm : s.mem.AgreeOn m s.keyRegion) :
    encodeParam auto (s.withMem m) = encodeParam auto s := by
  cases auto with
  | false => rfl
  | true =>
    by_cases h0 : s.regs.keyCount.toNat = 0
    · simp only [encodeParam, State.withMem_regs, h0, if_true]
    · have hlast := loadKey_congr (i := s.regs.keyCount.toNat - 1) (by omega) hm
      simp only [encodeParam, State.withMem_regs, State.withMem_cfg, State.withMem_mem, State.withMem_hdr, hlast,
        if_true]

theorem encodeStream_alike (p : Nat) (hm : s.mem.AgreeOn m s.keyRegion) :
    Res.Alike (EncodeRun.Alike s.keyRegion) (encodeStream s p) (encodeStream (s.withMem m) p) := by
  have hw := writeBits_alike (c := s.cfg) p s.hdr (q := s.keyRegion)
    (w := { cur := WrCursor.fresh s.regs.dstBase.toNat s.regs.dstLen.toNat, mem := s.mem })
    (w' := { cur := WrCursor.fresh s.regs.dstBase.toNat s.regs.dstLen.toNat, mem := m }) ⟨rfl, hm⟩
  simp only [encodeStream, State.withMem_regs, State.withMem_cfg, State.withMem_mem, State.withMem_hdr]
  generalize writeBits s.cfg p s.hdr _ = x, writeBits s.cfg p s.hdr { cur := _, mem := m } = x' at hw ⊢
  cases hw with
  | ok _ hw1 => exact encodeKeys_alike _ ⟨hw1, rfl⟩ (Nat.zero_add _).le
  | raise e hw1 => exact .raise e ⟨hw1, rfl⟩

theorem execEncode_alike (auto : Bool) (hm : s.mem.AgreeOn m s.keyRegion) :
    EndAlike (execEncode auto s) (execEncode auto (s.withMem m)) := by
  unfold execEncode
  rw [encodeParam_congr auto hm]
  refine EndAlike.ite (fun _ => ?_) (complete_alike _ s m)
  cases encodeParam auto s with
  | error e => exact complete_alike _ s m
  | ok p =>
    cases auto with
    | true => exact completeEncode_alike (s := s.withParam p) (encodeStream_alike p hm)
    | false => exact completeEncode_alike (encodeStream_alike p hm)

theorem decodeElements_alike {rd : RdCursor} (p : Nat) (hrd : rd.Sound s.cfg) (hm : s.mem.AgreeOn m rd.region) :
    Res.Alike (DecodeRun.Alike rd.region) (decodeElements s p rd) (decodeElements (s.withMem m) p rd) :=
  decodeKeys_alike (r := { rd := rd, mem := s.mem, loop := _ }) _ hrd ⟨rfl, hm, rfl⟩

theorem decodeHeader_alike (hs : (RdCursor.fresh s.regs.srcBase.toNat s.regs.srcLen.toNat).Sound s.cfg)
    (hm : s.mem.AgreeOn m s.srcRegion) : EndAlike (decodeHeader s) (decodeHeader (s.withMem m)) := by
  have hk := keepsReader_readBitsFrom (m := s.mem) s.hdr (v := 0) hs
  simp only [decodeHeader, readBits, State.withMem_regs, State.withMem_cfg, State.withMem_mem, State.withMem_hdr,
    readBitsFrom_congr s.hdr hs hm]
  cases h : readBitsFrom s.cfg s.mem s.hdr 0 (RdCursor.fresh s.regs.srcBase.toNat s.regs.srcLen.toNat) with
  | raise e rd => exact failDecode_alike e rd s m
  | ok p rd =>
    rw [h] at hk
    obtain ⟨hrd, hw⟩ := hk
    have hm' : s.mem.AgreeOn m rd.region := hw.region_eq ▸ hm
    exact .ite (fun _ => failDecode_alike _ rd (s.withParam p) m)
      (completeDecode_alike (s := s.withParam p) (decodeElements_alike p hrd hm'))

theorem execDecode_alike (hs : s.Inv) (hm : s.mem.AgreeOn m s.srcRegion) :
    EndAlike (execDecode s) (execDecode (s.withMem m)) := by
  refine EndAlike.ite (fun hc => ?_) (complete_alike _ s m)
  have hfresh := RdCursor.Sound.fresh hs.regs.srcBase hs.regs.srcLen ((decodeConfigOK_iff s).1 hc).source
  refine EndAlike.ite (fun _ => complete_alike _ s m) (EndAlike.ite (fun _ => ?_) (decodeHeader_alike hfresh hm))
  exact completeDecode_alike (decodeElements_alike s.paramVal hfresh hm)

theorem readBitVal_congr {c : Config} {m' : Memory} {r : RdCursor} (hm : m.AgreeOn m' r.region) :
    readBitVal c m' r = readBitVal c m r := by
  rw [readBitVal, readBit_congr hm, readBitVal]

theorem decodeChecked_congr {c : Config} {m' : Memory} {r : RdCursor} (p : Nat) (hs : r.Sound c)
    (hm : m.AgreeOn m' r.region) : decodeChecked c m' p r = decodeChecked c m p r := by
  rw [decodeChecked, decodeValue_congr p hs hm, decodeChecked]

/-- Any two memories that agree on a command's read footprint give runs of it that end alike. -/
theorem exec_alike {i : Instr} (hs : s.Inv) (hm : s.mem.AgreeOn m (readFootprint i s)) :
    EndAlike (exec i s) (exec i (s.withMem m)) := by
  cases i with
  | nop => exact complete_alike _ s m
  | wrInit =>
    exact .ite (fun _ => complete_alike none { s with wr := .fresh s.regs.dstBase.toNat s.regs.dstLen.toNat } m)
      (complete_alike _ s m)
  | wrBit b => exact completeWriter_alike (writeBit_alike b (writer_alike s m))
  | wrBits n => exact completeWriter_alike (writeBits_alike _ n (writer_alike s m))
  | rdInit =>
    exact .ite (fun _ => complete_alike none { s with rd := .fresh s.regs.srcBase.toNat s.regs.srcLen.toNat } m)
      (complete_alike _ s m)
  | rdBit => exact completeReader_alike (readBitVal_congr hm)
  | rdBits n => exact completeReader_alike (readBitsFrom_congr n hs.rd hm)
  | encVal =>
    exact .ite (fun _ => complete_alike _ s m) (completeWriter_alike (encodeValue_alike _ _ (writer_alike s m)))
  | decVal =>
    exact .ite (fun _ => complete_alike _ s m) (completeReader_alike (decodeChecked_congr _ hs.rd hm))
  | estimate => exact .ite (fun _ => complete_alike _ s m) (complete_alike _ (s.withResult _) m)
  | encode auto => exact execEncode_alike auto hm
  | decode => exact execDecode_alike hs hm

end

/-- Settles O55: the two runs end alike, so putting the first memory back gives the first state. -/
theorem readsStayInFootprint : Obligations.ReadsStayInFootprint := by
  intro i s m hs hm
  obtain ⟨t, m', ht, ht'⟩ := exec_alike hs hm
  exact ⟨t, _, ht, ht', rfl⟩

end Sys2Proof.Machine
end

section
/-! The decoder and the encoder (30_encoding.md R96, R98, R99): which words the decoder's checks pass, and that such a
word and its command determine each other. -/

namespace Sys2Proof

variable {w : KeyWidth} {c : Word} {i : Instr}

/-- A CMD value that passes each of the decoder's checks (30_encoding.md R96 (a) to (e)). -/
structure LegalWord (w : KeyWidth) (c : Word) : Prop where
  reserved : reservedClear c = true
  opcode : cmdOpc c ∈ opcodes
  flag : cmdF c = 1 → cmdOpc c ∈ [0x02, 0x10]
  count : cmdN c ≠ 0 → cmdOpc c ∈ [0x03, 0x06]
  bound : cmdOpc c ∈ [0x03, 0x06] → cmdN c ≤ w.bits

theorem decode_of_legal (h : LegalWord w c) :
    decode w c = assemble (cmdOpc c) (decide (cmdF c = 1)) (cmdN c) := by
  have hreserved : (!reservedClear c) ≠ true := by rw [h.reserved]; decide
  rw [decode, if_neg hreserved, if_neg (not_not.2 h.opcode), if_neg fun ⟨hf, hn⟩ => hn (h.flag hf),
    if_neg fun ⟨hn, ho⟩ => ho (h.count hn), if_neg fun ⟨ho, hlt⟩ => Nat.not_lt.2 (h.bound ho) hlt]

/-- A check that fails ends the decoding with its error; one that passes leaves the rest. -/
theorem check_error {p : Prop} [Decidable p] {e : DecodeError} {x : Except DecodeError Instr}
    (h : ¬p → ∃ e', x = .error e') : ∃ e', (if p then .error e else x) = .error e' := by
  split
  · exact ⟨e, rfl⟩
  · exact h ‹_›

theorem decode_error_of_not_legal (h : ¬LegalWord w c) : ∃ e, decode w c = .error e := by
  refine check_error fun hreserved => check_error fun hopc => check_error fun hflag => check_error fun hcount =>
    check_error fun hbound => absurd ?_ h
  exact ⟨by simpa using hreserved, not_not.1 hopc, fun hf => by_contra fun ho => hflag ⟨hf, ho⟩,
    fun hn => by_contra fun ho => hcount ⟨hn, ho⟩, fun ho => Nat.le_of_not_lt fun hlt => hbound ⟨ho, hlt⟩⟩

/-- An opcode in use selects a command (30_encoding.md R94). -/
theorem assemble_of_mem_opcodes {opc : Nat} (h : opc ∈ opcodes) (f : Bool) (n : Nat) :
    ∃ i, assemble opc f n = .ok i := by
  simp only [opcodes, List.mem_cons, List.not_mem_nil, or_false] at h
  rcases h with rfl | rfl | rfl | rfl | rfl | rfl | rfl | rfl | rfl | rfl | rfl | rfl <;> exact ⟨_, rfl⟩

/-- The decoder refuses exactly the words that fail a check. -/
theorem decode_error_iff : (∃ e, decode w c = .error e) ↔ ¬LegalWord w c := by
  refine ⟨fun ⟨e, he⟩ h => ?_, decode_error_of_not_legal⟩
  obtain ⟨i, hi⟩ := assemble_of_mem_opcodes h.opcode (decide (cmdF c = 1)) (cmdN c)
  rw [decode_of_legal h, hi] at he
  cases he

/-- A command is assembled from its own opcode, flag and count. -/
theorem assemble_fieldsOf (i : Instr) : assemble (opcodeOf i) (flagOf i) (countOf i) = .ok i := by
  cases i <;> rfl

/-- The opcode, flag and count of an assembled command are those it was assembled from, where its opcode has them. -/
theorem fieldsOf_assemble {opc n : Nat} {f : Bool} (h : assemble opc f n = .ok i) :
    opcodeOf i = opc ∧ (flagOf i = if opc ∈ [0x02, 0x10] then f else false) ∧
      countOf i = if opc ∈ [0x03, 0x06] then n else 0 := by
  unfold assemble at h
  split at h <;> cases h <;> exact ⟨rfl, rfl, rfl⟩

/-- A command is legal exactly when its count, if its opcode has one, is at most W (30_encoding.md R96 (e)). -/
theorem wf_iff : i.wf w = true ↔ (opcodeOf i ∈ [0x03, 0x06] → countOf i ≤ w.bits) := by
  cases i <;> simp [Instr.wf, opcodeOf, countOf]

theorem opcodeOf_mem_of_flag (h : flagOf i = true) : opcodeOf i ∈ [0x02, 0x10] := by
  cases i with
  | wrBit b => exact List.mem_cons_self
  | encode a => exact List.mem_cons_of_mem _ List.mem_cons_self
  | _ => cases h

theorem opcodeOf_mem_of_count (h : countOf i ≠ 0) : opcodeOf i ∈ [0x03, 0x06] := by
  cases i with
  | wrBits n => exact List.mem_cons_self
  | rdBits n => exact List.mem_cons_of_mem _ List.mem_cons_self
  | _ => exact absurd rfl h

/-- The fields of the word of a legal command, whichever command it is. -/
theorem commandWord (i : Instr) : Laws.CommandWord.Statement i := by
  cases i with
  | nop => exact Laws.CommandWord.nop
  | wrInit => exact Laws.CommandWord.wrInit
  | wrBit b => exact Laws.CommandWord.wrBit b
  | wrBits n => exact Laws.CommandWord.wrBits n
  | rdInit => exact Laws.CommandWord.rdInit
  | rdBit => exact Laws.CommandWord.rdBit
  | rdBits n => exact Laws.CommandWord.rdBits n
  | encVal => exact Laws.CommandWord.encVal
  | decVal => exact Laws.CommandWord.decVal
  | estimate => exact Laws.CommandWord.estimate
  | encode a => exact Laws.CommandWord.encode a
  | decode => exact Laws.CommandWord.decode

theorem legalWord_encode (h : i.wf w = true) : LegalWord w (encode i) := by
  obtain ⟨hreserved, hopc, hmem, hf, hn⟩ := commandWord i w h
  refine ⟨hreserved, ?_, ?_, ?_, ?_⟩ <;> rw [hopc]
  · exact hmem
  · rw [hf, Bool.toNat_eq_one]
    exact opcodeOf_mem_of_flag
  · rw [hn]
    exact opcodeOf_mem_of_count
  · rw [hn]
    exact wf_iff.1 h

/-- Settles O2: the word of a legal command passes the checks, and its fields are those the command is assembled
from. -/
theorem decodeOfEncode : Obligations.DecodeOfEncode := by
  intro w i h
  obtain ⟨-, hopc, -, hf, hn⟩ := commandWord i w h
  have hflag : decide (cmdF (encode i) = 1) = flagOf i := by
    rw [hf]
    cases flagOf i <;> rfl
  rw [decode_of_legal (legalWord_encode h), hopc, hflag, hn, assemble_fieldsOf]

/-- A word with its reserved bits clear is put together again from its fields (30_encoding.md R91). -/
theorem word_of_fields (h : reservedClear c = true) :
    BitVec.ofNat 64 (cmdOpc c + cmdF c * 2 ^ 8 + cmdN c * 2 ^ 16) = c := by
  simp only [reservedClear, Bool.and_eq_true, decide_eq_true_eq] at h
  refine BitVec.eq_of_toNat_eq ?_
  have hlt := c.isLt
  simp only [cmdOpc, cmdF, cmdN, field, BitVec.toNat_ofNat] at h ⊢
  omega

theorem cmdF_le_one (c : Word) : cmdF c ≤ 1 := Nat.le_of_lt_succ (Nat.mod_lt _ (by decide))

/-- A legal word's flag and count are those of the command assembled from it: no other opcode sets them. -/
theorem LegalWord.fieldsOf (h : LegalWord w c)
    (hi : assemble (cmdOpc c) (decide (cmdF c = 1)) (cmdN c) = .ok i) :
    opcodeOf i = cmdOpc c ∧ (flagOf i).toNat = cmdF c ∧ countOf i = cmdN c := by
  obtain ⟨hopc, hflag, hcount⟩ := fieldsOf_assemble hi
  have hF := cmdF_le_one c
  refine ⟨hopc, ?_, ?_⟩
  · by_cases h1 : cmdF c = 1
    · rw [hflag, if_pos (h.flag h1), decide_eq_true h1, h1, Bool.toNat_true]
    · rw [hflag, decide_eq_false h1, ite_self, Bool.toNat_false]
      omega
  · by_cases h0 : cmdN c = 0
    · rw [hcount, h0, ite_self]
    · rw [hcount, if_pos (h.count h0)]

/-- Settles O3: the word decodes by passing the checks, so its fields are the command's and put it together again. -/
theorem encodeOfDecode : Obligations.EncodeOfDecode := by
  intro w c i hi
  have h : LegalWord w c := by
    by_contra hn
    obtain ⟨e, he⟩ := decode_error_of_not_legal hn
    rw [hi] at he
    cases he
  rw [decode_of_legal h] at hi
  obtain ⟨hopc, hflag, hcount⟩ := h.fieldsOf hi
  refine ⟨wf_iff.2 (by rw [hopc, hcount]; exact h.bound), ?_⟩
  rw [encode, hopc, hflag, hcount, word_of_fields h.reserved]

/-- `field` is the bits `c[lo+len-1 : lo]` as a number (00_scope.md R12). -/
theorem field_eq_extractLsb' (c : Word) (lo len : Nat) : field c lo len = (c.extractLsb' lo len).toNat := by
  rw [BitVec.extractLsb'_toNat, Nat.shiftRight_eq_div_pow, field]

theorem cmdF_eq_one_iff : cmdF c = 1 ↔ c.getLsbD 8 = true := by
  rw [cmdF, field, BitVec.getLsbD, Nat.testBit_eq_decide_div_mod_eq, decide_eq_true_eq, Nat.pow_one]

theorem reservedClear_iff : reservedClear c = true ↔
    c.extractLsb' 9 7 = 0 ∧ c.extractLsb' 23 9 = 0 ∧ c.extractLsb' 32 32 = 0 := by
  simp only [reservedClear, field_eq_extractLsb', Bool.and_eq_true, decide_eq_true_eq, ← BitVec.toNat_inj,
    BitVec.ofNat_eq_ofNat, BitVec.toNat_ofNat, Nat.zero_mod]
  tauto

theorem legalWord_iff : LegalWord w c ↔
    cmdOpc c ∈ opcodes ∧ reservedClear c = true ∧ (cmdF c = 1 → cmdOpc c ∈ [0x02, 0x10]) ∧
      (cmdN c ≠ 0 → cmdOpc c ∈ [0x03, 0x06]) ∧ (cmdOpc c ∈ [0x03, 0x06] → cmdN c ≤ w.bits) :=
  ⟨fun ⟨hr, ho, hf, hn, hb⟩ => ⟨ho, hr, hf, hn, hb⟩, fun ⟨ho, hr, hf, hn, hb⟩ => ⟨hr, ho, hf, hn, hb⟩⟩

theorem not_legalWord_iff : ¬LegalWord w c ↔
    cmdOpc c ∉ opcodes ∨ reservedClear c = false ∨ (cmdF c = 1 ∧ cmdOpc c ∉ [0x02, 0x10]) ∨
      (cmdN c ≠ 0 ∧ cmdOpc c ∉ [0x03, 0x06]) ∨ (cmdOpc c ∈ [0x03, 0x06] ∧ w.bits < cmdN c) := by
  rw [legalWord_iff]
  simp only [not_and_or, Classical.not_imp, Bool.not_eq_true, Nat.not_le]

end Sys2Proof

namespace Sys2Proof.Machine

/-- At the engine's turn an illegal command ends with ILLEGAL_COMMAND (30_encoding.md R96). -/
theorem step_of_illegal {s s' : State} (hturn : s.EngineAt s') (h : ∃ e, decode s.cfg.width s.curCmd = .error e) :
    step s = .next (finish (some .illegalCommand) s') := by
  obtain ⟨e, he⟩ := h
  rw [← hturn.cfg_eq, ← hturn.curCmd_eq] at he
  rw [step_of_engineAt hturn, runCommand, he]
  rfl

theorem State.EngineAt.status_eq {s s' : State} (h : s.EngineAt s') : s'.status = s.status := by
  obtain ⟨-, ⟨-, rfl⟩ | ⟨l, -, rfl⟩ | ⟨l, -, rfl⟩⟩ := h <;> rfl

/-- Settles O4: the words that fail a check are those of the five cases, and the turn on one only finishes. -/
theorem illegalCommand : Obligations.IllegalCommand := by
  refine ⟨fun w c => ?_, fun s s' hturn h => ?_⟩
  · rw [decode_error_iff, not_legalWord_iff, cmdF_eq_one_iff, ← Bool.not_eq_true, reservedClear_iff, cmdOpc, cmdN,
      field_eq_extractLsb', field_eq_extractLsb', not_and_or, not_and_or]
    rfl
  · rw [step_of_illegal hturn h, ← hturn.status_eq]
    rfl

end Sys2Proof.Machine

namespace Sys2Proof

/-- Settles O1: each word is decoded. -/
theorem tableWordsDecode : Obligations.TableWordsDecode := by
  unfold Obligations.TableWordsDecode
  decide

end Sys2Proof
end

section
/-! What the writer, reader and set-up commands leave alone (30_encoding.md R95): each ends in the state it started
from with the one piece it owns replaced, and `finish`. -/

namespace Sys2Proof.Machine

/-! ### The writer -/

section

variable {c : Config} {w w' : Writer}

theorem Appended.nil (hs : w.cur.Sound c) : Appended [] w w := writeString_appended (u := ()) hs rfl

/-- A bit string whose write raises is written up to some bit, and no further (40_bitio.md R126). -/
theorem writeString_raise {e : Err} {l : List Bool} (h : writeString c l w = .raise e w') :
    ∃ k, writeString c (l.take k) w = .ok () w' := by
  induction l generalizing w with
  | nil => cases h
  | cons b l ih =>
    simp only [writeString] at h
    cases hb : writeBit c b w with
    | raise e1 w1 =>
      rw [hb] at h
      cases h
      obtain ⟨rfl, -⟩ := writeBit_raise hb
      exact ⟨0, rfl⟩
    | ok u w1 =>
      rw [hb] at h
      obtain ⟨k, hk⟩ := ih h
      exact ⟨k + 1, by simp only [List.take_succ_cons, writeString, hb, hk]⟩

/-- Raise or not, the write of a bit string appends a first part of it. -/
theorem writeString_appends (l : List Bool) (hs : w.cur.Sound c) : ∃ l', Appended l' w (writeString c l w).state := by
  cases h : writeString c l w with
  | ok u w' => exact ⟨l, writeString_appended hs h⟩
  | raise e w' =>
    obtain ⟨k, hk⟩ := writeString_raise h
    exact ⟨l.take k, writeString_appended hs hk⟩

theorem writeBit_eq (b : Bool) (w : Writer) : writeBit c b w = writeString c [b] w := by
  simp only [writeString]
  cases writeBit c b w <;> rfl

end

variable {s t : State}

/-- A command that ran the writer, or was refused, ends with a bit string appended and nothing else. -/
def State.EndsWriting (s t : State) : Prop :=
  ∃ code l w, Appended l s.writer w ∧ t = finish code (s.withWriter w)

theorem completeWriter_endsWriting {r : Res Writer Unit} {l : List Bool} (hs : s.wr.Sound s.cfg)
    (hr : r = writeString s.cfg l s.writer) (h : completeWriter r s = .next t) : s.EndsWriting t := by
  subst hr
  obtain ⟨l', hl⟩ := writeString_appends (w := s.writer) l hs
  exact ⟨_, l', _, hl, complete_next.1 h⟩

theorem execEncVal_endsWriting (hs : s.wr.Sound s.cfg) (h : execEncVal s = .next t) : s.EndsWriting t := by
  unfold execEncVal at h
  split at h
  · exact ⟨_, [], s.writer, .nil hs, complete_next.1 h⟩
  · exact completeWriter_endsWriting hs (encodeValue_eq _ _ _) h

/-- Settles O56: each of the three appends a bit string, whose frame is that of `Appended`. -/
theorem writerCommandsFrame : Obligations.WriterCommandsFrame := by
  intro i s t hi hs h
  have hend : s.EndsWriting t := by
    rcases hi with ⟨b, rfl⟩ | ⟨n, rfl⟩ | rfl
    · exact completeWriter_endsWriting hs (writeBit_eq b _) h
    · exact completeWriter_endsWriting hs (writeBits_eq _ n _) h
    · exact execEncVal_endsWriting hs h
  have hkeeps := exec_keeps h
  obtain ⟨code, l, w, hw, rfl⟩ := hend
  exact ⟨hkeeps, rfl, rfl, rfl, rfl, hw.base, hw.cap, hw.outside⟩

/-! ### The reader: its region, whatever the cursor -/

section

variable {c : Config} {m : Memory}

theorem readBit_within (r : RdCursor) : r.Within (readBit c m r).state := by
  cases h : readBit c m r with
  | ok b r' => rcases readBit_ok h with ⟨-, -, -, -, rfl⟩ | ⟨-, -, rfl⟩ <;> exact ⟨rfl, rfl⟩
  | raise e r' =>
    obtain ⟨rfl, -⟩ := readBit_raise h
    exact .refl _

theorem readBitVal_within (r : RdCursor) : r.Within (readBitVal c m r).state := by
  have hb := readBit_within (c := c) (m := m) r
  unfold readBitVal
  cases h : readBit c m r <;> rw [h] at hb <;> exact hb

theorem readBitsFrom_within (n : Nat) : ∀ (v : Nat) (r : RdCursor), r.Within (readBitsFrom c m n v r).state := by
  induction n with
  | zero => intro v r; exact .refl _
  | succ n ih =>
    intro v r
    have hb := readBit_within (c := c) (m := m) r
    simp only [readBitsFrom]
    cases h : readBit c m r with
    | ok b r' => rw [h] at hb; exact hb.trans (ih _ r')
    | raise e r' => rw [h] at hb; exact hb

theorem scanOnes_within (fuel : Nat) : ∀ (q : Nat) (r : RdCursor), r.Within (scanOnes c m fuel q r).state := by
  induction fuel with
  | zero => intro q r; exact .refl _
  | succ n ih =>
    intro q r
    have hb := readBit_within (c := c) (m := m) r
    simp only [scanOnes]
    cases h : readBit c m r with
    | ok b r' =>
      rw [h] at hb
      cases b with
      | true => exact hb.trans (ih _ r')
      | false => exact hb
    | raise e r' => rw [h] at hb; exact hb

theorem decodeValue_within (p : Nat) (r : RdCursor) : r.Within (decodeValue c m p r).state := by
  have hscan := scanOnes_within (c := c) (m := m) (avail r + 1) 0 r
  simp only [decodeValue, readBits]
  cases h : scanOnes c m (avail r + 1) 0 r with
  | raise e r1 => rw [h] at hscan; exact hscan
  | ok q r1 =>
    rw [h] at hscan
    have hrem := readBitsFrom_within (c := c) (m := m) p 0 r1
    dsimp only
    cases h' : readBitsFrom c m p 0 r1 <;> rw [h'] at hrem <;> exact hscan.trans hrem

theorem decodeChecked_within (p : Nat) (r : RdCursor) : r.Within (decodeChecked c m p r).state := by
  have hd := decodeValue_within (c := c) (m := m) p r
  unfold decodeChecked
  cases h : decodeValue c m p r with
  | raise e r' => rw [h] at hd; exact hd
  | ok v r' =>
    rw [h] at hd
    dsimp only
    split <;> exact hd

end

/-- A command that ran the reader, or was refused, ends with the cursor moved in its region, RESULT perhaps written, and
nothing else. -/
def State.EndsReading (s t : State) : Prop :=
  ∃ code rd v, s.rd.Within rd ∧ t = finish code { s with rd := rd, regs := { s.regs with result := v } }

theorem completeReader_endsReading {r : Res RdCursor Nat} (hr : s.rd.Within r.state)
    (h : completeReader r s = .next t) : s.EndsReading t := by
  cases r with
  | ok v rd => exact ⟨_, rd, _, hr, complete_next.1 h⟩
  | raise e rd => exact ⟨_, rd, s.regs.result, hr, complete_next.1 h⟩

theorem execDecVal_endsReading (h : execDecVal s = .next t) : s.EndsReading t := by
  unfold execDecVal at h
  split at h
  · exact ⟨_, s.rd, s.regs.result, .refl _, complete_next.1 h⟩
  · exact completeReader_endsReading (decodeChecked_within _ _) h

/-- Settles O57: each of the three moves the reader in its region, and writes RESULT at most. -/
theorem readerCommandsFrame : Obligations.ReaderCommandsFrame := by
  intro i s t hi h
  have hend : s.EndsReading t := by
    rcases hi with rfl | ⟨n, rfl⟩ | rfl
    · exact completeReader_endsReading (readBitVal_within _) h
    · exact completeReader_endsReading (readBitsFrom_within n 0 _) h
    · exact execDecVal_endsReading h
  have hkeeps := exec_keeps h
  obtain ⟨code, rd, v, hrd, rfl⟩ := hend
  exact ⟨hkeeps, rfl, rfl, rfl, rfl, rfl, hrd.base, hrd.len⟩

/-! ### The set-up commands -/

/-- WR_INIT ends with the writer cursor replaced, or as it was (40_bitio.md R120). -/
theorem execWrInit_ends (h : execWrInit s = .next t) : ∃ code wr, t = finish code { s with wr := wr } := by
  unfold execWrInit at h
  split at h
  · exact ⟨_, _, complete_next.1 h⟩
  · exact ⟨_, s.wr, complete_next.1 h⟩

/-- RD_INIT ends with the reader cursor replaced, or as it was (40_bitio.md R130). -/
theorem execRdInit_ends (h : execRdInit s = .next t) : ∃ code rd, t = finish code { s with rd := rd } := by
  unfold execRdInit at h
  split at h
  · exact ⟨_, _, complete_next.1 h⟩
  · exact ⟨_, s.rd, complete_next.1 h⟩

/-- ESTIMATE ends with RESULT replaced, or as it was (42_estimator.md R182). -/
theorem execEstimate_ends (h : execEstimate s = .next t) :
    ∃ code v, t = finish code { s with regs := { s.regs with result := v } } := by
  unfold execEstimate at h
  split at h
  · exact ⟨_, s.regs.result, complete_next.1 h⟩
  · exact ⟨_, _, complete_next.1 h⟩

/-- Settles O58: each of the four replaces the one piece its rule names, if any. -/
theorem setupCommandsFrame : Obligations.SetupCommandsFrame := by
  intro i s t hi h
  have hkeeps := exec_keeps h
  rcases hi with rfl | rfl | rfl | rfl
  · obtain rfl := complete_next.1 h
    exact ⟨hkeeps, rfl, rfl, rfl, fun _ => rfl, fun _ => rfl, fun _ => rfl, rfl⟩
  · obtain ⟨code, wr, rfl⟩ := execWrInit_ends h
    exact ⟨hkeeps, rfl, rfl, rfl, fun hne => absurd rfl hne, fun _ => rfl, fun _ => rfl, rfl⟩
  · obtain ⟨code, rd, rfl⟩ := execRdInit_ends h
    exact ⟨hkeeps, rfl, rfl, rfl, fun _ => rfl, fun hne => absurd rfl hne, fun _ => rfl, rfl⟩
  · obtain ⟨code, v, rfl⟩ := execEstimate_ends h
    exact ⟨hkeeps, rfl, rfl, rfl, fun _ => rfl, fun _ => rfl, fun hne => absurd rfl hne, rfl⟩

end Sys2Proof.Machine
end

section
/-! What ENCODE and DECODE leave alone (30_encoding.md R95; 43_set_codec.md R196, R197, R206, R207). On an error the
whole region is drawn; a success stores no further than the bytes opened, or the keys decoded. -/

namespace Sys2Proof.Machine

namespace State.RegsAfter

variable {s t : State} {writesResult writesParam : Prop}

/-- A command that fails leaves RESULT as it was (10_state.md R30). -/
theorem result_eq (h : s.RegsAfter writesResult writesParam t) (herr : t.status.err ≠ none) :
    t.regs.result = s.regs.result :=
  by_contra fun hne => herr (h.result hne).1

theorem param_eq (h : s.RegsAfter writesResult writesParam t) (hno : ¬writesParam) : t.regs.param = s.regs.param :=
  by_contra fun hne => hno (h.param hne)

end State.RegsAfter

/-! ### ENCODE -/

section

variable {c : Config} {w w' : Writer}

/-- The writer has opened more bytes of the same region, and stored to none past them. -/
structure Writer.Opened (w w' : Writer) : Prop where
  base : w'.cur.base = w.cur.base
  grows : w.cur.nbytes ≤ w'.cur.nbytes
  outside : ∀ a, a < w.cur.base ∨ w.cur.base + w'.cur.nbytes ≤ a → w'.mem.read a = w.mem.read a

theorem Writer.Opened.refl (w : Writer) : w.Opened w := ⟨rfl, le_rfl, fun _ _ => rfl⟩

theorem Writer.Opened.trans {w1 w2 w3 : Writer} (h : w1.Opened w2) (h' : w2.Opened w3) : w1.Opened w3 := by
  have hbase := h.base
  have hgrows := h'.grows
  exact ⟨h'.base.trans h.base, h.grows.trans h'.grows,
    fun a ha => (h'.outside a (by omega)).trans (h.outside a (by omega))⟩

theorem Appended.opened {l : List Bool} (hs : w.cur.Sound c) (h : Appended l w w') : w.Opened w' := by
  have hpos := pos_add_shift hs
  have hshift := w.cur.shift.isLt
  refine ⟨h.base, ?_, fun a ha => h.outside a (ha.imp_left fun hlt => Nat.lt_add_right _ hlt)⟩
  rw [h.nbytes, bytesFor]
  omega

/-- ENCODE's element phase, on success, stores to opened bytes only (43_set_codec.md R195). -/
theorem encodeKeys_opened {keyBase : Nat} {u : Unit} (n : Nat) : ∀ {r r' : EncodeRun}, r.wr.cur.Sound c →
    encodeKeys c keyBase n r = .ok u r' → r.wr.Opened r'.wr := by
  induction n with
  | zero => intro r r' _ h; cases h; exact .refl _
  | succ n ih =>
    intro r r' hs h
    simp only [encodeKeys, encodeValue_eq] at h
    cases hkey : loadKey c r.wr.mem keyBase r.loop.keyIndex with
    | error e => rw [hkey] at h; cases h
    | ok key =>
      rw [hkey] at h
      dsimp only at h
      split at h
      · cases h
      · cases hw : writeString c (codeword r.loop.p (key - r.loop.nextMin)) r.wr with
        | raise e w => rw [hw] at h; cases h
        | ok _ w =>
          rw [hw] at h
          exact ((writeString_appended hs hw).opened hs).trans
            (ih (r := { wr := w, loop := _ }) (writeString_sound hs hw) h)

/-- ENCODE's whole stream does the same from the writer it opens (43_set_codec.md R194). -/
theorem encodeStream_opened {s : State} {p : Nat} {u : Unit} {r : EncodeRun} {w0 : Writer}
    (hw : w0 = { cur := WrCursor.fresh s.regs.dstBase.toNat s.regs.dstLen.toNat, mem := s.mem })
    (hs : w0.cur.Sound s.cfg) (h : encodeStream s p = .ok u r) : w0.Opened r.wr := by
  rw [encodeStream, ← hw, writeBits_eq] at h
  cases hhdr : writeString s.cfg (binBits s.hdr p) w0 with
  | raise e w => rw [hhdr] at h; cases h
  | ok _ w =>
    rw [hhdr] at h
    exact ((writeString_appended hs hhdr).opened hs).trans
      (encodeKeys_opened _ (r := { wr := w, loop := _ }) (writeString_sound hs hhdr) h)

end

variable {s t : State}

/-- The reader is no part of ENCODE (30_encoding.md R95). -/
theorem execEncode_rd {auto : Bool} (h : execEncode auto s = .next t) : t.rd = s.rd := by
  rcases execEncode_cases h with ⟨e, rfl⟩ | ⟨p, -, -, ⟨r, -, rfl⟩ | ⟨e, r, -, rfl⟩⟩
  · rfl
  · cases auto <;> rfl
  · cases auto <;> rfl

/-- A successful ENCODE draws nothing and stores to the bytes it opened only (43_set_codec.md R196). -/
theorem execEncode_success {auto : Bool} (hs : s.Inv) (h : execEncode auto s = .next t)
    (hok : t.status.err = none) : t.draws = s.draws ∧ ∀ a,
      a < s.regs.dstBase.toNat ∨ s.regs.dstBase.toNat + t.wr.nbytes ≤ a → t.mem.read a = s.mem.read a := by
  rcases execEncode_cases h with ⟨e, rfl⟩ | ⟨p, hc, -, ⟨r, hr, rfl⟩ | ⟨e, r, -, rfl⟩⟩
  · cases hok
  · have hfresh := WrCursor.Sound.fresh hs.regs.dstBase hs.regs.dstLen hc.destination
    have hopened := encodeStream_opened rfl hfresh hr
    refine ⟨?_, hopened.outside⟩
    cases auto <;> rfl
  · cases hok

/-- A command leaves no loop state, and finds none (10_state.md R42). -/
theorem exec_loop {i : Instr} (hs : s.Inv) (h : exec i s = .next t) : t.loop = s.loop :=
  (exec_inv hs h).loop.trans hs.loop.symm

/-- Settles O59: the pieces of the state one by one; the destination bounds every store, and the opened bytes those of a
success. -/
theorem encodeFrame : Obligations.EncodeFrame := by
  intro auto s t hs h
  have hregs := execEncode_regs (writesResult := True) (writesParam := auto = true) trivial id h
  refine ⟨exec_keeps h, execEncode_rd h, exec_loop hs h, hregs.rest, fun hauto => ?_,
    hregs.result_eq, execEncode_within hs h, execEncode_success hs h⟩
  exact hregs.param_eq (hauto ▸ Bool.false_ne_true)

/-! ### DECODE -/

/-- DECODE's element phase, on success, stores to the keys it counts only, and counts no more than `cap`
(43_set_codec.md R205, R206). -/
theorem decodeKeys_stores {c : Config} {outBase cap : Nat} {u : Unit} (fuel : Nat) : ∀ {r r' : DecodeRun},
    r.loop.decoded ≤ cap → decodeKeys c outBase cap fuel r = .ok u r' →
    r.loop.decoded ≤ r'.loop.decoded ∧ r'.loop.decoded ≤ cap ∧
      ∀ a, a < outBase ∨ outBase + r'.loop.decoded * c.width.bytes ≤ a → r'.mem.read a = r.mem.read a := by
  induction fuel with
  | zero => intro r r' hcap h; cases h; exact ⟨le_rfl, hcap, fun _ _ => rfl⟩
  | succ n ih =>
    intro r r' hcap h
    simp only [decodeKeys] at h
    cases hd : decodeValue c r.mem r.loop.p r.rd with
    | raise e rd =>
      rw [hd] at h
      cases e with
      | endOfStream => cases h; exact ⟨le_rfl, hcap, fun _ _ => rfl⟩
      | _ => cases h
    | ok d rd =>
      rw [hd] at h
      dsimp only at h
      split at h
      · cases h
      · split at h
        · cases h
        · cases hm : storeKey c outBase r.loop.decoded (d + r.loop.nextMin) r.mem with
          | raise e m => rw [hm] at h; cases h
          | ok _ m =>
            rw [hm] at h
            obtain ⟨hgrows, hcap', hout⟩ :=
              ih (r := { rd := rd, mem := m, loop := r.loop.afterValue (d + r.loop.nextMin) })
                (show r.loop.decoded + 1 ≤ cap by omega) h
            replace hgrows : r.loop.decoded + 1 ≤ r'.loop.decoded := hgrows
            refine ⟨by omega, hcap', fun a ha => (hout a ha).trans ?_⟩
            have hkey : (r.loop.decoded + 1) * c.width.bytes ≤ r'.loop.decoded * c.width.bytes :=
              Nat.mul_le_mul_right _ hgrows
            rw [Nat.succ_mul] at hkey
            have hstore := storeBytes_outside (c := c) c.width.bytes (v := d + r.loop.nextMin) (m := r.mem) (x := a)
              (a := outBase + r.loop.decoded * c.width.bytes) (by omega)
            rw [← storeKey, hm] at hstore
            exact hstore

/-- The writer is no part of DECODE (30_encoding.md R95). -/
theorem execDecode_wr (h : execDecode s = .next t) : t.wr = s.wr := by
  rcases execDecode_cases h with ⟨e, rfl⟩ | ⟨-, ⟨e, rd, -, rfl, -⟩ | ⟨p, rd, -, hend⟩⟩
  · rfl
  · rfl
  · rcases hend with ⟨-, -, rfl⟩ | ⟨-, r, -, rfl⟩ | ⟨-, e, r, -, rfl⟩
    · rfl
    · split <;> rfl
    · split <;> rfl

/-- A number no greater than what a slot holds fits a slot. -/
theorem toNat_word_of_le {n : Nat} {v : Word} (h : n ≤ v.toNat) : (BitVec.ofNat 64 n).toNat = n :=
  Nat.mod_eq_of_lt (lt_of_le_of_lt h v.isLt)

/-- A successful DECODE draws nothing and stores to the keys RESULT counts only (43_set_codec.md R206). -/
theorem execDecode_success (h : execDecode s = .next t) (hok : t.status.err = none) :
    t.draws = s.draws ∧ ∀ a, a < s.regs.outBase.toNat ∨
      s.regs.outBase.toNat + t.regs.result.toNat * s.keyBytes ≤ a → t.mem.read a = s.mem.read a := by
  rcases execDecode_cases h with ⟨e, rfl⟩ | ⟨-, ⟨e, rd, -, rfl, -⟩ | ⟨p, rd, -, hend⟩⟩
  · cases hok
  · cases hok
  · rcases hend with ⟨-, -, rfl⟩ | ⟨-, r, hr, rfl⟩ | ⟨-, e, r, -, rfl⟩
    · cases hok
    · obtain ⟨-, hcap, hout⟩ := decodeKeys_stores _ (Nat.zero_le _) hr
      refine ⟨by split <;> rfl, fun a ha => hout a ?_⟩
      rw [← toNat_word_of_le hcap]
      exact ha
    · cases hok

/-- Settles O60: the pieces of the state one by one; the output region bounds every store, and the keys counted those of
a success. -/
theorem decodeFrame : Obligations.DecodeFrame := by
  intro s t hs h
  have hregs := execDecode_regs (writesResult := True) (writesParam := 0 < s.hdr) trivial id h
  refine ⟨exec_keeps h, execDecode_wr h, exec_loop hs h, hregs.rest, fun hhdr => ?_,
    hregs.result_eq, execDecode_within hs h, execDecode_success h⟩
  exact hregs.param_eq (Nat.not_lt.2 hhdr.le)

end Sys2Proof.Machine
end

section
/-! The bit writer's commands (40_bitio.md R120 to R127): each is the end of one sub-procedure, whose cases are stated
once. -/

namespace Sys2Proof.Machine

variable {c : Config} {w : Writer} {s : State}

/-! ### What WriteBit does in each of its cases (40_bitio.md R122) -/

theorem writeBit_of_full (b : Bool) (hz : w.cur.shift = 0) (h : w.cur.cap ≤ w.cur.nbytes) :
    writeBit c b w = .raise .bufferExhausted w := by
  rw [writeBit, if_pos hz, if_pos h]

theorem writeBit_of_hole (b : Bool) (hz : w.cur.shift = 0) (h : w.cur.nbytes < w.cur.cap)
    (ha : c.accessible (w.cur.base + w.cur.nbytes) = false) : writeBit c b w = .raise .busError w := by
  rw [writeBit, if_pos hz, if_neg (Nat.not_le.2 h), if_neg (Bool.eq_false_iff.1 ha)]

theorem writeBit_of_newByte (b : Bool) (hz : w.cur.shift = 0) (h : w.cur.nbytes < w.cur.cap)
    (ha : c.accessible (w.cur.base + w.cur.nbytes) = true) :
    writeBit c b w = .ok () (putByte w (w.cur.nbytes + 1) 7 (mergeBit 0xFF 7 b)) := by
  rw [writeBit, if_pos hz, if_neg (Nat.not_le.2 h), if_pos ha]

theorem writeBit_of_shift (b : Bool) (hz : w.cur.shift ≠ 0) :
    writeBit c b w =
      .ok () (putByte w w.cur.nbytes (w.cur.shift - 1) (mergeBit w.cur.byte (w.cur.shift - 1) b)) := by
  rw [writeBit, if_neg hz]

/-- The first bit of a new byte of ones. -/
theorem mergeBit_newByte (b : Bool) : mergeBit 0xFF 7 b = if b then 0xFF else 0x7F := by
  cases b <;> rfl

theorem ne_zero_of_val_succ {sh : Fin 8} {k : Nat} (h : sh.val = k + 1) : sh ≠ 0 := by
  rintro rfl
  exact absurd h (Nat.succ_ne_zero k).symm

theorem val_sub_one_of_succ {sh : Fin 8} {k : Nat} (h : sh.val = k + 1) : (sh - 1).val = k := by
  rw [val_sub_one (ne_zero_of_val_succ h), h, Nat.add_sub_cancel]

/-! ### The commands -/

theorem exec_wrBits (n : Nat) (s : State) :
    exec (.wrBits n) s = completeWriter (writeString s.cfg (binBits n s.regs.data.toNat) s.writer) s :=
  congrArg (completeWriter · s) (writeBits_eq _ _ _)

/-- Settles O31: the region is valid exactly when it ends within the space. -/
theorem wrInitCompletes : Obligations.WrInitCompletes := by
  intro s
  refine ⟨fun h => ?_, fun h => ?_⟩
  · exact if_pos ((regionOK_iff _).2 h)
  · exact if_neg fun hok => Nat.not_le.2 h ((regionOK_iff _).1 hok)

/-- Settles O33: the command ends as WriteBit does in each of its cases. -/
theorem wrBitCompletes : Obligations.WrBitCompletes := by
  intro b s done
  have hexec : exec (.wrBit b) s = completeWriter (writeBit s.cfg b s.writer) s := rfl
  rw [hexec]
  refine ⟨fun hz hfull => ?_, fun hz hlt hhole => ?_, fun hz hlt hacc => ?_, fun k hk => ?_⟩
  · rw [writeBit_of_full b hz hfull.ge]
    rfl
  · rw [writeBit_of_hole b hz hlt hhole]
    rfl
  · rw [writeBit_of_newByte b hz hlt hacc, mergeBit_newByte]
    rfl
  · have hval := val_sub_one_of_succ hk
    refine ⟨s.wr.shift - 1, hval, ?_⟩
    rw [writeBit_of_shift b (ne_zero_of_val_succ hk), ← hval]
    rfl

/-- Settles O34: the run of WriteBit calls succeeds on the bits that fit, and appends what it wrote. -/
theorem writerClosedForm : Obligations.WriterClosedForm := by
  intro c w l hs
  refine ⟨fun hfits ha => ?_, fun hlong ha => ?_⟩
  · obtain ⟨w', h⟩ := writeString_ok l hs hfits ha
    exact ⟨w', h, writeString_appended hs h⟩
  · obtain ⟨w', h, htake, hn, hz⟩ := writeString_exhausted hs hlong ha
    exact ⟨w', h, writeString_appended hs htake, hn, hz⟩

/-- Settles O36: WR_BITS writes the low bits of DATA as a bit string, to which the closed form applies. -/
theorem wrBitsCompletes : Obligations.WrBitsCompletes := by
  intro n s _ hs
  obtain ⟨hfits, hlong⟩ := writerClosedForm s.cfg s.writer (binBits n s.regs.data.toNat) hs
  rw [length_binBits] at hfits hlong
  rw [exec_wrBits]
  refine ⟨fun hn ha => ?_, fun hn ha => ?_⟩
  · obtain ⟨w', h, happ⟩ := hfits hn ha
    exact ⟨w', happ, by rw [h]; rfl⟩
  · obtain ⟨w', h, happ, hfull, hz⟩ := hlong hn ha
    exact ⟨w', happ, hfull, hz, by rw [h]; rfl⟩

end Sys2Proof.Machine
end

section
/-! The bit reader's commands (40_bitio.md R130 to R136), likewise. -/

namespace Sys2Proof.Machine

variable {c : Config} {m : Memory} {r : RdCursor}

/-! ### What ReadBit does in each of its cases (40_bitio.md R131) -/

theorem readBit_of_end (hz : r.shift = 0) (h : r.len ≤ r.nbytes) : readBit c m r = .raise .endOfStream r := by
  rw [readBit, if_pos hz, if_pos h]

theorem readBit_of_hole (hz : r.shift = 0) (h : r.nbytes < r.len) (ha : c.accessible (r.base + r.nbytes) = false) :
    readBit c m r = .raise .busError r := by
  rw [readBit, if_pos hz, if_neg (Nat.not_le.2 h), if_neg (Bool.eq_false_iff.1 ha)]

theorem readBit_of_newByte (hz : r.shift = 0) (h : r.nbytes < r.len) (ha : c.accessible (r.base + r.nbytes) = true) :
    readBit c m r = .ok ((m.read (r.base + r.nbytes)).getLsbD 7)
      { r with nbytes := r.nbytes + 1, shift := 7, byte := m.read (r.base + r.nbytes) } := by
  rw [readBit, if_pos hz, if_neg (Nat.not_le.2 h), if_pos ha]
  rfl

theorem readBit_of_shift (hz : r.shift ≠ 0) :
    readBit c m r = .ok (r.byte.getLsbD (r.shift - 1).val) { r with shift := r.shift - 1 } := by
  rw [readBit, if_neg hz]
  rfl

theorem ofNat_toNat_bool (b : Bool) : BitVec.ofNat 64 b.toNat = if b then 1 else 0 := by
  cases b <;> rfl

/-- RD_BIT that reads a bit ends with it in RESULT (40_bitio.md R134). -/
theorem exec_rdBit_of_ok {b : Bool} {s : State} {rd : RdCursor} (h : readBit s.cfg s.mem s.rd = .ok b rd) :
    exec .rdBit s = complete none { s with rd := rd, regs := { s.regs with result := if b then 1 else 0 } } := by
  rw [← ofNat_toNat_bool]
  simp only [exec, execRdBit, readBitVal, h]
  rfl

/-- RD_BIT that reads none ends with RESULT as it was (40_bitio.md R134). -/
theorem exec_rdBit_of_raise {e : Err} {s : State} {rd : RdCursor} (h : readBit s.cfg s.mem s.rd = .raise e rd) :
    exec .rdBit s = complete (some e) { s with rd := rd } := by
  simp only [exec, execRdBit, readBitVal, h]
  rfl

/-! ### The closed form of ReadBits (40_bitio.md R133) -/

/-- The next `n` unread bits are read when they are left and their bytes answer (R133 (b)). -/
theorem readBits_of_le {n : Nat} (hs : r.Sound c) (hn : n ≤ avail r) (ha : c.Answers (r.opens n)) :
    readBits c m n r = .ok (valueOf ((unread m r).take n)) (r.moved m n) ∧
      unread m (r.moved m n) = (unread m r).drop n := by
  have hlen : ((unread m r).take n).length = n := by rw [List.length_take, length_unread, Nat.min_eq_left hn]
  obtain ⟨hready, k, hk⟩ := ready_of_opens hs hn ha
  have hsplit : unread m (r.upto (bytesFor (r.pos + n))) =
      (unread m r).take n ++ ((unread m r).drop n).take k := by
    rw [unread_upto hs hready.opened hready.le_len, hk, List.take_add]
  obtain ⟨r', hread, hready', hbits, -⟩ := readBits_upto _ (v := 0) hready hsplit
  obtain rfl : r' = r.moved m n := by rw [hbits.eq_moved hready'.sound, hlen]
  rw [hlen] at hread
  refine ⟨hread, ?_⟩
  exact List.append_cancel_left (hbits.bits.symm.trans (List.take_append_drop n _).symm)

/-- The bits left end where the source does. -/
theorem pos_add_avail (hs : r.Sound c) : r.pos + avail r = 8 * r.len := by
  have hpos := rdPos_add_shift hs
  have hopened := hs.opened
  unfold avail
  omega

theorem bytesFor_pos_add_avail (hs : r.Sound c) : bytesFor (r.pos + avail r) = r.len := by
  rw [pos_add_avail hs, bytesFor]
  omega

/-- A reader moved past all its bits is at the end of its source. -/
theorem moved_avail_atEnd (hs : r.Sound c) :
    (r.moved m (avail r)).nbytes = r.len ∧ (r.moved m (avail r)).shift = 0 := by
  refine ⟨bytesFor_pos_add_avail hs, Fin.ext ?_⟩
  show 8 * bytesFor (r.pos + avail r) - (r.pos + avail r) = 0
  rw [bytesFor_pos_add_avail hs, pos_add_avail hs, Nat.sub_self]

/-- With fewer than `n` bits left, all of them are read, and the end of the source is met (R133 (c)). -/
theorem readBits_of_lt {n : Nat} (hs : r.Sound c) (hn : avail r < n) (ha : c.Answers (r.opens (avail r))) :
    readBits c m n r = .raise .endOfStream (r.moved m (avail r)) := by
  obtain ⟨hready, -⟩ := ready_of_opens hs le_rfl ha
  rw [bytesFor_pos_add_avail hs] at hready
  obtain ⟨r', hread, hs', hbits⟩ :=
    readBits_ends (m := m) n (v := 0) hready (.inl ⟨rfl, rfl⟩) rfl (by rwa [length_unread])
  obtain rfl : r' = r.moved m (avail r) := by
    rw [hbits.eq_moved hs', length_unread]
    rfl
  exact hread

/-! ### The commands -/

/-- Settles O32: the region is valid exactly when it ends within the space. -/
theorem rdInitCompletes : Obligations.RdInitCompletes := by
  intro s
  refine ⟨fun h => ?_, fun h => ?_⟩
  · exact if_pos ((regionOK_iff _).2 h)
  · exact if_neg fun hok => Nat.not_le.2 h ((regionOK_iff _).1 hok)

/-- Settles O37: the command ends as ReadBit does in each of its cases, with the bit read in RESULT. -/
theorem rdBitCompletes : Obligations.RdBitCompletes := by
  intro s done
  refine ⟨fun hz hend => ?_, fun hz hlt hhole => ?_, fun hz hlt hacc => ?_, fun k hk => ?_⟩
  · exact exec_rdBit_of_raise (readBit_of_end hz hend.ge)
  · exact exec_rdBit_of_raise (readBit_of_hole hz hlt hhole)
  · exact exec_rdBit_of_ok (readBit_of_newByte hz hlt hacc)
  · have hval := val_sub_one_of_succ hk
    refine ⟨s.rd.shift - 1, hval, ?_⟩
    rw [exec_rdBit_of_ok (readBit_of_shift (ne_zero_of_val_succ hk)), hval]
    rfl

/-- Settles O38: RD_BITS ends as ReadBits does, whose closed form is `readBits_of_le` and `readBits_of_lt`. -/
theorem rdBitsCompletes : Obligations.RdBitsCompletes := by
  intro n s _ hs
  have hexec : exec (.rdBits n) s = completeReader (readBits s.cfg s.mem n s.rd) s := rfl
  rw [hexec]
  refine ⟨fun hn ha => ?_, fun hn ha => ?_⟩
  · obtain ⟨hread, hrest⟩ := readBits_of_le (m := s.mem) hs hn ha
    exact ⟨hrest, by rw [hread]; rfl⟩
  · obtain ⟨hbytes, hz⟩ := moved_avail_atEnd (m := s.mem) hs
    exact ⟨hbytes, hz, by rw [readBits_of_lt hs hn ha]; rfl⟩

end Sys2Proof.Machine
end

section
/-! The value codec's commands (41_value_codec.md R160 to R166): ENC_VAL writes the codeword as a bit string, and
DecodeValue has a closed form by what the unread bits start with. -/

namespace Sys2Proof.Machine

variable {c : Config} {m : Memory} {r : RdCursor} {s : State}

/-! ### The number that `bin_n(v)` spells (00_scope.md R13) -/

/-- Reading `bin_n(v)` after the number `a` puts the low `n` bits of `v` below it. -/
theorem foldl_binBits (n v a : Nat) :
    (binBits n v).foldl (fun x b => 2 * x + b.toNat) a = a * 2 ^ n + v % 2 ^ n := by
  induction n generalizing a with
  | zero => simp [binBits, Nat.mod_one]
  | succ n ih =>
    rw [binBits, List.foldl_cons, ih, Nat.toNat_testBit, Nat.mod_pow_succ]
    ring

theorem valueOf_binBits (n v : Nat) : valueOf (binBits n v) = v % 2 ^ n := by
  rw [valueOf, foldl_binBits, Nat.zero_mul, Nat.zero_add]

/-! ### The closed form of DecodeValue (41_value_codec.md R164, R165) -/

/-- Bits at the front of the unread ones, in bytes that answer, are at the front of those up to the byte of the last. -/
theorem ready_of_prefix {l rest : List Bool} (hs : r.Sound c) (hu : unread m r = l ++ rest)
    (ha : c.Answers (r.opens l.length)) :
    r.Ready c (bytesFor (r.pos + l.length)) ∧ ∃ tail, unread m (r.upto (bytesFor (r.pos + l.length))) = l ++ tail := by
  have hn : l.length ≤ avail r := by
    rw [← length_unread m, hu, List.length_append]
    exact Nat.le_add_right _ _
  obtain ⟨hready, k, hk⟩ := ready_of_opens hs hn ha
  refine ⟨hready, rest.take k, ?_⟩
  rw [unread_upto hs hready.opened hready.le_len, hk, hu, List.take_length_add_append]

/-- DecodeValue takes a whole codeword off the unread bits when its bytes answer (R164 (c)). -/
theorem decodeValue_of_prefix {p j : Nat} {rem rest : List Bool} (hs : r.Sound c) (hp : rem.length = p)
    (hu : unread m r = List.replicate j true ++ false :: rem ++ rest) (ha : c.Answers (r.opens (j + 1 + p))) :
    decodeValue c m p r = .ok (j * 2 ^ p + valueOf rem) (r.moved m (j + 1 + p)) ∧
      unread m (r.moved m (j + 1 + p)) = rest := by
  have hlen : (List.replicate j true ++ false :: rem).length = j + 1 + p := by
    simp only [List.length_append, List.length_replicate, List.length_cons]
    omega
  obtain ⟨hready, tail, htail⟩ := ready_of_prefix hs hu (by rwa [hlen])
  obtain ⟨r', hdec, hready', hreads, -⟩ := decodeValue_upto hready htail
  obtain rfl : r' = r.moved m (j + 1 + p) := by rw [hreads.eq_moved hready'.sound, hlen]
  subst hp
  exact ⟨hdec, List.append_cancel_left (hreads.bits.symm.trans hu)⟩

/-- DecodeValue with no whole codeword left takes all the bits and meets the end of the source (R164 (a), (b)). -/
theorem decodeValue_of_noCodeword {p : Nat} (hs : r.Sound c) (hn : NoCodeword p (unread m r))
    (ha : c.Answers (r.opens (avail r))) :
    decodeValue c m p r = .raise .endOfStream (r.moved m (avail r)) := by
  obtain ⟨hready, -⟩ := ready_of_opens hs le_rfl ha
  rw [bytesFor_pos_add_avail hs] at hready
  obtain ⟨r', hdec, hs', hreads⟩ := decodeValue_ends (m := m) hready (.inl ⟨rfl, rfl⟩) rfl hn
  obtain rfl : r' = r.moved m (avail r) := by
    rw [hreads.eq_moved hs', length_unread]
    rfl
  exact hdec

/-! ### The commands past the check of PARAM (41_value_codec.md R162, R166) -/

theorem exec_encVal_of_lt (h : s.paramVal < s.keyBits) :
    exec .encVal s = completeWriter (writeString s.cfg (codeword s.paramVal s.regs.data.toNat) s.writer) s := by
  rw [← encodeValue_eq]
  exact if_neg (Nat.not_le.2 h)

theorem exec_decVal_of_lt (h : s.paramVal < s.keyBits) :
    exec .decVal s = completeReader (decodeChecked s.cfg s.mem s.paramVal s.rd) s :=
  if_neg (Nat.not_le.2 h)

/-- DEC_VAL that decodes a value ends with it in RESULT, or with DECODE_OVERFLOW when it has more than W bits. -/
theorem exec_decVal_of_ok {v : Nat} {rd : RdCursor} (h : s.paramVal < s.keyBits)
    (hdec : decodeValue s.cfg s.mem s.paramVal s.rd = .ok v rd) :
    exec .decVal s =
      if 2 ^ s.keyBits ≤ v then complete (some .decodeOverflow) (s.withReader rd)
      else complete none ((s.withReader rd).withResult v) := by
  rw [exec_decVal_of_lt h, decodeChecked, hdec]
  exact apply_ite (completeReader · s) _ _ _

/-- DEC_VAL that decodes none ends with the error of DecodeValue, RESULT as it was. -/
theorem exec_decVal_of_raise {e : Err} {rd : RdCursor} (h : s.paramVal < s.keyBits)
    (hdec : decodeValue s.cfg s.mem s.paramVal s.rd = .raise e rd) :
    exec .decVal s = complete (some e) (s.withReader rd) := by
  rw [exec_decVal_of_lt h, decodeChecked, hdec]
  rfl

/-- Settles O39: ENC_VAL writes the codeword of DATA as a bit string, to which the closed form applies. -/
theorem encValCompletes : Obligations.EncValCompletes := by
  intro s
  refine ⟨fun h => if_pos h, fun h hs => ?_⟩
  intro l
  obtain ⟨hfits, hlong⟩ := writerClosedForm s.cfg s.writer l hs
  rw [exec_encVal_of_lt h]
  refine ⟨fun hl ha => ?_, fun hl ha => ?_⟩
  · obtain ⟨w', hw, happ⟩ := hfits hl ha
    exact ⟨w', happ, by rw [hw]; rfl⟩
  · obtain ⟨w', hw, happ, hfull, hz⟩ := hlong hl ha
    exact ⟨w', happ, hfull, hz, by rw [hw]; rfl⟩

/-- Settles O40: DEC_VAL ends as DecodeValue does, with a whole codeword in front of it or without one. -/
theorem decValCompletes : Obligations.DecValCompletes := by
  intro s
  refine ⟨fun h => if_pos h, fun h hs => ⟨fun j rem rest hrem hu ha => ?_, fun hn ha => ?_⟩⟩
  · obtain ⟨hdec, hrest⟩ := decodeValue_of_prefix hs hrem hu ha
    exact ⟨hrest, exec_decVal_of_ok h hdec⟩
  · obtain ⟨hbytes, hz⟩ := moved_avail_atEnd (m := s.mem) hs
    exact ⟨hbytes, hz, exec_decVal_of_raise h (decodeValue_of_noCodeword hs hn ha)⟩

/-- Settles O41: a codeword is `v / 2^p` ones, a zero and the low `p` bits of `v`, which DecodeValue puts together
again. -/
theorem valueRoundTrip : Obligations.ValueRoundTrip := by
  intro c m r p v rest hs ha _ _ hu
  rw [length_codeword] at ha ⊢
  obtain ⟨hdec, hrest⟩ := decodeValue_of_prefix hs (length_binBits p v) hu ha
  rw [valueOf_binBits, Nat.div_add_mod'] at hdec
  exact ⟨hdec, hrest⟩

end Sys2Proof.Machine
end

section
/-! The parameter estimator (42_estimator.md R180 to R182): the position of the highest set bit is `Nat.log2`, so
Estimate is one clamped logarithm, without its two cases for 0. -/

namespace Sys2Proof.Machine

/-! ### The position of the highest set bit (00_scope.md R13) -/

theorem bitlen_of_ne_zero {x : Nat} (h : x ≠ 0) : bitlen x = x.log2 + 1 := if_neg h

/-- For 0 both sides are 0. -/
theorem bitlen_sub_one (x : Nat) : bitlen x - 1 = x.log2 := by
  rcases eq_or_ne x 0 with rfl | h
  · simp [bitlen]
  · rw [bitlen_of_ne_zero h, Nat.add_sub_cancel]

theorem bitlen_bounds {x : Nat} (h : x ≠ 0) : 2 ^ (bitlen x - 1) ≤ x ∧ x < 2 ^ bitlen x :=
  ⟨bitlen_sub_one x ▸ Nat.log2_self_le h, bitlen_of_ne_zero h ▸ Nat.lt_log2_self⟩

/-! ### Estimate (42_estimator.md R180) -/

/-- The cases of no keys and of `delta = 0` are the logarithm of 0, which is 0 as a division by 0 is. -/
theorem estimate_eq_min_log2 (maxKey count h : Nat) :
    estimate maxKey count h = min (maxKey / count).log2 (2 ^ h - 1) := by
  unfold estimate
  split
  next hc => simp [hc]
  next =>
    split
    next hd => simp [Nat.lt_one_iff.1 hd]
    next => rw [bitlen_sub_one]

theorem estimate_eq_zero {maxKey count : Nat} (hd : maxKey / count = 0) (h : Nat) : estimate maxKey count h = 0 := by
  rw [estimate_eq_min_log2, hd, Nat.log2_zero, Nat.zero_min]

/-- The estimate is a legal parameter for keys of `n` bits (42_estimator.md R181 (d)). -/
theorem estimate_le_of_lt {maxKey n : Nat} (hk : maxKey < 2 ^ n) (count h : Nat) : estimate maxKey count h ≤ n - 1 := by
  rcases eq_or_ne (maxKey / count) 0 with hd | hd
  · exact estimate_eq_zero hd h ▸ Nat.zero_le _
  · have hlog : (maxKey / count).log2 < n := (Nat.log2_lt hd).2 (lt_of_le_of_lt (Nat.div_le_self _ _) hk)
    rw [estimate_eq_min_log2]
    exact (Nat.min_le_left _ _).trans (Nat.le_sub_one_of_lt hlog)

/-- R180's outcome told by powers of two determines the estimate. -/
theorem eq_estimate {maxKey count h p : Nat} (hcount : count = 0 → p = 0)
    (hzero : count ≠ 0 → maxKey / count = 0 → p = 0)
    (hpos : count ≠ 0 → ∀ q, 2 ^ q ≤ maxKey / count → maxKey / count < 2 ^ (q + 1) → p = min q (2 ^ h - 1)) :
    p = estimate maxKey count h := by
  rcases eq_or_ne count 0 with rfl | hc
  · rw [estimate_eq_zero (Nat.div_zero _), hcount rfl]
  · rcases eq_or_ne (maxKey / count) 0 with hd | hd
    · rw [estimate_eq_zero hd, hzero hc hd]
    · rw [estimate_eq_min_log2]
      exact hpos hc _ (Nat.log2_self_le hd) Nat.lt_log2_self

/-- Settles O43: the premises on `p` say that it is the estimate, which ESTIMATE puts in RESULT. -/
theorem estimateCompletes : Obligations.EstimateCompletes := by
  intro s
  refine ⟨fun h => if_pos h, fun h p hcount hzero hpos => ?_⟩
  rw [eq_estimate hcount hzero hpos]
  exact if_neg (Nat.not_lt.2 h)

/-- Settles O44: the bounds of the logarithm and of the clamp. -/
theorem estimateBounds : Obligations.EstimateBounds := by
  intro maxKey count h
  refine ⟨fun hc => ?_, Nat.le_sub_one_of_lt (estimate_lt maxKey count h), fun w hk => estimate_le_of_lt hk count h,
    fun _ hd => bitlen_bounds (Nat.one_le_iff_ne_zero.1 hd)⟩
  subst hc
  exact estimate_eq_zero (Nat.div_zero _) h

end Sys2Proof.Machine
end

section
/-! Keys in memory, where a byte does not answer, and what a key that was loaded or stored tells (20_memory.md R66,
R67). -/

namespace Sys2Proof.Machine

variable {c : Config} {m : Memory}

/-- A hole among `k + 1` bytes is the first of them, or it is among the others. -/
theorem hole_succ {a k : Nat} (h : ∃ j, j < k + 1 ∧ c.accessible (a + j) = false) :
    c.accessible a = false ∨ ∃ j, j < k ∧ c.accessible (a + 1 + j) = false := by
  obtain ⟨j, hj, hhole⟩ := h
  cases j with
  | zero => exact .inl hhole
  | succ j => exact .inr ⟨j, Nat.lt_of_succ_lt_succ hj, by rwa [Nat.add_assoc, Nat.add_comm 1 j]⟩

theorem loadBytes_of_hole (k : Nat) : ∀ {a : Nat}, (∃ j, j < k ∧ c.accessible (a + j) = false) →
    loadBytes c m a k = .error .busError := by
  induction k with
  | zero => rintro a ⟨j, hj, -⟩; cases hj
  | succ k ih =>
    intro a h
    rw [loadBytes]
    rcases hole_succ h with hhead | htail
    · rw [if_neg (Bool.eq_false_iff.1 hhead)]
    · rw [ih htail, ite_self]

/-- LoadKey of a key with a byte that does not answer raises BUS_ERROR (R66). -/
theorem loadKey_of_hole {base i : Nat} (h : c.KeyHole base i) : loadKey c m base i = .error .busError :=
  loadBytes_of_hole _ h

theorem storeBytes_of_hole (k : Nat) : ∀ {a v : Nat} {m : Memory}, (∃ j, j < k ∧ c.accessible (a + j) = false) →
    storeBytes c a k v m = .raise .busError (storeBytes c a k v m).state := by
  induction k with
  | zero => rintro a v m ⟨j, hj, -⟩; cases hj
  | succ k ih =>
    intro a v m h
    rw [storeBytes]
    split
    next hhead => exact ih ((hole_succ h).resolve_left (Bool.not_eq_false _ ▸ hhead))
    next => rfl

/-- StoreKey at a place with a byte that does not answer raises BUS_ERROR (R67). -/
theorem storeKey_of_hole {base i : Nat} (v : Nat) (h : c.KeyHole base i) :
    storeKey c base i v m = .raise .busError (storeKey c base i v m).state :=
  storeBytes_of_hole _ h

theorem loadBytes_lt (k : Nat) : ∀ {a v : Nat}, loadBytes c m a k = .ok v → v < 2 ^ (8 * k) := by
  induction k with
  | zero => intro a v h; cases h; exact Nat.one_pos
  | succ k ih =>
    intro a v h
    simp only [loadBytes] at h
    split at h
    · split at h
      next hi hrest =>
        cases h
        have hbyte := (m.read a).isLt
        have hhi := ih hrest
        rw [Nat.mul_succ, Nat.pow_add]
        omega
      next => cases h
    · cases h

/-- A key that was loaded has W bits. -/
theorem loadKey_lt {base i v : Nat} (h : loadKey c m base i = .ok v) : v < 2 ^ c.width.bits :=
  KeyWidth.bits_eq _ ▸ loadBytes_lt _ h

/-- A key was stored only if the bytes of its place answer. -/
theorem answers_of_storeKey {base i v : Nat} {u : Unit} {m' : Memory} (h : storeKey c base i v m = .ok u m') :
    c.Answers { base := base + i * c.width.bytes, len := c.width.bytes } := by
  refine fun a hlo hhi => by_contra fun hne => ?_
  simp only at hlo hhi
  have hhole : c.KeyHole base i :=
    ⟨a - (base + i * c.width.bytes), by omega, by rw [Nat.add_sub_cancel' hlo]; exact Bool.eq_false_iff.2 hne⟩
  rw [storeKey_of_hole v hhole] at h
  cases h

/-- Key `i` of an array in bytes that answer answers. -/
theorem answers_key {base n i : Nat} (h : c.Answers { base := base, len := n * c.width.bytes }) (hi : i < n) :
    c.Answers { base := base + i * c.width.bytes, len := c.width.bytes } := by
  have hkey : (i + 1) * c.width.bytes ≤ n * c.width.bytes := Nat.mul_le_mul_right _ hi
  rw [Nat.succ_mul] at hkey
  exact fun a hlo hhi => h a (by simp only at hlo ⊢; omega) (by simp only at hhi ⊢; omega)

end Sys2Proof.Machine
end

section
/-! The refusals of ENCODE and DECODE before their first access past the parameter (43_set_codec.md R191 to R193, R201,
R202). -/

namespace Sys2Proof.Machine

variable {s : State}

theorem execEncode_of_not_checks (auto : Bool) (h : ¬s.EncodeChecks) :
    execEncode auto s = complete (some .configError) s :=
  if_neg (mt (encodeConfigOK_iff s).1 h)

theorem execEncode_of_error {auto : Bool} {e : Err} (hc : s.EncodeChecks) (h : encodeParam auto s = .error e) :
    execEncode auto s = complete (some e) s := by
  rw [execEncode, if_pos ((encodeConfigOK_iff s).2 hc), h]

theorem execDecode_of_not_checks (h : ¬s.DecodeChecks) : execDecode s = complete (some .configError) s :=
  if_neg (mt (decodeConfigOK_iff s).1 h)

/-- Past its checks DECODE looks at PARAM, which matters without a header only. -/
theorem execDecode_of_checks (hc : s.DecodeChecks) :
    execDecode s = if decodeParamBad s then complete (some .paramRange) s
      else if s.hdr = 0 then decodeNoHeader s else decodeHeader s :=
  if_pos ((decodeConfigOK_iff s).2 hc)

/-- ENCODE with AUTO = 1 whose last key does not answer has no parameter (43_set_codec.md R193). -/
theorem encodeParam_true_of_hole (hn : 0 < s.regs.keyCount.toNat)
    (h : s.cfg.KeyHole s.regs.keyBase.toNat (s.regs.keyCount.toNat - 1)) : encodeParam true s = .error .busError := by
  rw [encodeParam, if_pos rfl, if_neg hn.ne', loadKey_of_hole h]

/-- Settles O45: each refusal is the end of a phase that writes nothing. -/
theorem setCodecRefusals : Obligations.SetCodecRefusals := by
  refine fun s auto => ⟨fun hc => execEncode_of_not_checks auto hc, fun hc hp => execEncode_of_error hc (if_pos hp),
    fun hc hn hhole => execEncode_of_error hc (encodeParam_true_of_hole hn hhole),
    fun hc => execDecode_of_not_checks hc, fun hc h0 hp => ?_⟩
  have hbad : decodeParamBad s = true := by rw [decodeParamBad, decide_eq_true h0, decide_eq_true hp]; rfl
  exact (execDecode_of_checks hc).trans (if_pos hbad)

end Sys2Proof.Machine
end

section
/-! Key sequences (43_set_codec.md R195, R204): the next_min they lead to, their codewords, the loop state after them,
and an array that holds them. -/

namespace Sys2Proof.Machine

/-- next_min after the keys, from `n` before them (R195). -/
def nextMinAfter (n : Nat) (ks : List Nat) : Nat := ks.foldl (fun _ k => k + 1) n

/-- A key that follows ascending keys ascends when it reaches their next_min. -/
theorem ascendsFrom_append_singleton {ks : List Nat} {k : Nat} : ∀ {n : Nat},
    AscendsFrom n (ks ++ [k]) ↔ AscendsFrom n ks ∧ nextMinAfter n ks ≤ k := by
  induction ks with
  | nil => exact and_comm
  | cons a ks ih => intro n; exact (and_congr_right fun _ => ih).trans and_assoc.symm

/-- The codeword of one more key comes after the others (30_encoding.md R109). -/
theorem codewords_append_singleton (p k : Nat) (ks : List Nat) : ∀ n : Nat,
    codewords p n (ks ++ [k]) = codewords p n ks ++ codeword p (k - nextMinAfter n ks) := by
  induction ks with
  | nil => intro n; exact List.append_nil _
  | cons a ks ih => intro n; rw [List.cons_append, codewords, ih, codewords, List.append_assoc]; rfl

/-- Every codeword takes a bit (43_set_codec.md R206). -/
theorem length_le_codewords (p : Nat) (ks : List Nat) : ∀ n : Nat, ks.length ≤ (codewords p n ks).length := by
  induction ks with
  | nil => intro n; exact le_rfl
  | cons a ks ih =>
    intro n
    have htail := ih (a + 1)
    have hhead : 0 < (codeword p (a - n)).length := by rw [length_codeword]; exact Nat.add_pos_left (Nat.succ_pos _) p
    rw [codewords, List.length_append, List.length_cons]
    omega

/-- The loop state once ENCODE has coded the keys (R195). -/
def LoopState.afterKeys (l : LoopState) (ks : List Nat) : LoopState :=
  { l with keyIndex := l.keyIndex + ks.length, nextMin := nextMinAfter l.nextMin ks }

theorem LoopState.afterKeys_cons (l : LoopState) (k : Nat) (ks : List Nat) :
    l.afterKeys (k :: ks) = (l.afterKey k).afterKeys ks := by
  simp only [afterKeys, afterKey, List.length_cons, nextMinAfter, List.foldl_cons, Nat.add_assoc, Nat.add_comm 1]

/-- The loop state once DECODE has stored the keys (R204). -/
def LoopState.afterValues (l : LoopState) (ks : List Nat) : LoopState :=
  { l with decoded := l.decoded + ks.length, nextMin := nextMinAfter l.nextMin ks }

theorem LoopState.afterValues_cons (l : LoopState) (k : Nat) (ks : List Nat) :
    l.afterValues (k :: ks) = (l.afterValue k).afterValues ks := by
  simp only [afterValues, afterValue, List.length_cons, nextMinAfter, List.foldl_cons, Nat.add_assoc, Nat.add_comm 1]

/-- From key `i` on, the array at `base` holds the keys (10_state.md R33, R34). -/
def KeysFrom (c : Config) (m : Memory) (base : Nat) : Nat → List Nat → Prop
  | _, [] => True
  | i, k :: ks => loadKey c m base i = .ok k ∧ KeysFrom c m base (i + 1) ks

variable {c : Config} {m : Memory} {base : Nat}

theorem keysFrom_iff {ks : List Nat} : ∀ {i : Nat},
    KeysFrom c m base i ks ↔ ∀ j (h : j < ks.length), loadKey c m base (i + j) = .ok ks[j] := by
  induction ks with
  | nil => intro i; exact iff_of_true trivial fun j h => absurd h (Nat.not_lt_zero j)
  | cons k ks ih =>
    intro i
    rw [KeysFrom, ih]
    refine ⟨fun ⟨hk, hks⟩ j h => ?_, fun h => ⟨h 0 (Nat.succ_pos _), fun j hj => ?_⟩⟩
    · cases j with
      | zero => exact hk
      | succ j =>
        have hj := hks j (Nat.lt_of_succ_lt_succ h)
        rwa [Nat.add_assoc, Nat.add_comm 1 j] at hj
    · rw [Nat.add_assoc, Nat.add_comm 1 j]
      exact h (j + 1) (Nat.succ_lt_succ hj)

theorem keysFrom_zero_iff {ks : List Nat} :
    KeysFrom c m base 0 ks ↔ ∀ i (h : i < ks.length), loadKey c m base i = .ok ks[i] := by
  simp only [keysFrom_iff, Nat.zero_add]

/-- Keys held by an array have W bits. -/
theorem KeysFrom.lt {ks : List Nat} {i : Nat} (h : KeysFrom c m base i ks) : ∀ k ∈ ks, k < 2 ^ c.width.bits := by
  intro k hk
  obtain ⟨j, hj, rfl⟩ := List.getElem_of_mem hk
  exact loadKey_lt (keysFrom_iff.1 h j hj)

end Sys2Proof.Machine
end

section
/-! How ENCODE ends once it has its parameter (43_set_codec.md R192, R193, R196, R197). -/

namespace Sys2Proof.Machine

variable {s t u : State} {auto : Bool} {p : Nat}

/-- A drawn region holds free values, and nothing else changes. -/
theorem State.WritesWithin.read_drawRegion {q : Region} (h : s.WritesWithin q u) (hq : q.base + q.len ≤ u.cfg.space)
    (a : Nat) : (u.drawRegion q).mem.read a = if q.contains a then Config.freeByte u.draws a else s.mem.read a := by
  by_cases ha : q.contains a = true
  · obtain ⟨hlo, hhi⟩ := Region.contains_iff.1 ha
    rw [if_pos ha, State.drawRegion_mem, drawMem, Memory.read_fill, if_pos (by omega)]
  · rw [if_neg ha]
    exact h.drawRegion a (Region.outside_iff.2 (Bool.eq_false_iff.2 ha))

/-- Between commands there is no loop state to discard (10_state.md R42). -/
theorem State.discardLoop_of_none (h : u.loop = LoopState.none) : u.discardLoop = u := by
  rw [State.discardLoop, ← h]

/-- The parameter phase yields the parameter of R192 and R193. -/
theorem encodeParam_eq_ok_iff : encodeParam auto s = .ok p ↔ s.EncodeParamIs auto p := by
  unfold encodeParam State.EncodeParamIs
  cases auto with
  | true =>
    simp only [if_true]
    split
    next => rw [Except.ok.injEq, eq_comm]
    next =>
      cases loadKey s.cfg s.mem s.regs.keyBase.toNat (s.regs.keyCount.toNat - 1) with
      | error e => simp
      | ok k => simp [eq_comm]
  | false =>
    simp only [Bool.false_eq_true, if_false]
    split
    next hbad => exact iff_of_false (fun h => by cases h) fun ⟨h, hlt, hfit⟩ => by omega
    next hok =>
      rw [Except.ok.injEq]
      exact ⟨fun h => by omega, fun h => h.1.symm⟩

/-- Past its parameter phase ENCODE writes the stream, PARAM holding the parameter of AUTO = 1. -/
theorem execEncode_of_param (hc : s.EncodeChecks) (hp : s.EncodeParamIs auto p) :
    execEncode auto s = completeEncode (encodeStream s p)
      { s with regs := { s.regs with param := if auto then BitVec.ofNat 64 p else s.regs.param } } := by
  rw [execEncode, if_pos ((encodeConfigOK_iff s).2 hc), encodeParam_eq_ok_iff.2 hp]
  cases auto <;> rfl

/-- The writer ENCODE starts with (R194). -/
def State.encodeWriter (s : State) : Writer :=
  { cur := WrCursor.fresh s.regs.dstBase.toNat s.regs.dstLen.toNat, mem := s.mem }

theorem State.encodeWriter_sound (hs : s.Inv) (hc : s.EncodeChecks) : s.encodeWriter.cur.Sound s.cfg :=
  .fresh hs.regs.dstBase hs.regs.dstLen hc.destination

/-- ENCODE has failed with `e` past its parameter phase: only the writer cursor, PARAM, STATUS and the destination have
changed, and the destination holds free values (R197 (c)). -/
structure State.EncodeFails (s : State) (auto : Bool) (p : Nat) (e : Err) (t : State) : Prop where
  state : t = { s with
    wr := t.wr, mem := t.mem, draws := s.draws + 1,
    regs := { s.regs with param := if auto then BitVec.ofNat 64 p else s.regs.param },
    status := { busy := false, done := true, ovr := s.status.ovr, err := some e } }
  drawn : ∀ a, t.mem.read a = if s.dstRegion.contains a then Config.freeByte s.draws a else s.mem.read a

theorem execEncode_of_raise {e : Err} {r : EncodeRun} (hs : s.Inv) (hc : s.EncodeChecks) (hp : s.EncodeParamIs auto p)
    (h : encodeStream s p = .raise e r) :
    ∃ t, execEncode auto s = .next t ∧ t.wr = r.wr.cur ∧ s.EncodeFails auto p e t := by
  obtain ⟨-, hkeep, -⟩ := encodeStream_keeps (p := p) rfl (s.encodeWriter_sound hs hc)
  rw [h] at hkeep
  rw [execEncode_of_param hc hp, h, completeEncode, State.discardLoop_of_none]
  · exact ⟨_, rfl, rfl, rfl, State.WritesWithin.read_drawRegion (s := s) (u := s.withWriter r.wr) hkeep.outside
      hc.destination⟩
  · exact hs.loop

/-- A successful ENCODE leaves its writer, RESULT and PARAM (R196). -/
theorem execEncode_of_ok {r : EncodeRun} (hs : s.Inv) (hc : s.EncodeChecks) (hp : s.EncodeParamIs auto p)
    (h : encodeStream s p = .ok () r) :
    execEncode auto s = .next { s with
      wr := r.wr.cur, mem := r.wr.mem,
      regs := { s.regs with
        result := BitVec.ofNat 64 r.wr.cur.nbytes, param := if auto then BitVec.ofNat 64 p else s.regs.param },
      status := { busy := false, done := true, ovr := s.status.ovr, err := none } } := by
  rw [execEncode_of_param hc hp, h, completeEncode, State.discardLoop_of_none]
  · rfl
  · exact hs.loop

end Sys2Proof.Machine
end

section
/-! What ENCODE writes (43_set_codec.md R190, R194 to R198): from keys that ascend, one bit string, their stream; the
keys stay as they are meanwhile, for they lie outside the destination. -/

namespace Sys2Proof.Machine

section

variable {c : Config} {m : Memory} {q : Region} {w w' : Writer}

/-- A writer at work beside the region `q`, which is as it was in the memory `m`. -/
structure Writer.Beside (c : Config) (m : Memory) (q : Region) (w : Writer) : Prop where
  sound : w.cur.Sound c
  apart : ∀ a, q.contains a = true → a < w.cur.base ∨ w.cur.base + w.cur.cap ≤ a
  agree : m.AgreeOn w.mem q

/-- Writing leaves the region beside as it is. -/
theorem Writer.Beside.writeString {l : List Bool} (h : w.Beside c m q) (hw : writeString c l w = .ok () w') :
    w'.Beside c m q := by
  have hk := keepsWriter_writeString l h.sound
  rw [hw] at hk
  obtain ⟨hbase, hcap, hout⟩ := hk.within
  refine ⟨hk.cur, fun a ha => ?_, fun a ha => (hout a (h.apart a ha)).trans (h.agree a ha)⟩
  rw [show w'.cur.base = w.cur.base from hbase, show w'.cur.cap = w.cur.cap from hcap]
  exact h.apart a ha

variable {keyBase count : Nat}

/-- A key of the array beside the writer is loaded as it was. -/
theorem Writer.Beside.loadKey_eq {i : Nat} (h : w.Beside c m { base := keyBase, len := count * c.width.bytes })
    (hi : i < count) : loadKey c w.mem keyBase i = loadKey c m keyBase i :=
  loadKey_congr hi h.agree

/-- ENCODE's element phase writes the codewords of ascending keys as one bit string (R195), and goes on after them. -/
theorem encodeKeys_of_keys {ks : List Nat} (n : Nat) : ∀ {r : EncodeRun},
    r.wr.Beside c m { base := keyBase, len := count * c.width.bytes } →
    KeysFrom c m keyBase r.loop.keyIndex ks → r.loop.keyIndex + ks.length ≤ count → AscendsFrom r.loop.nextMin ks →
    (∀ w, writeString c (codewords r.loop.p r.loop.nextMin ks) r.wr = .ok () w →
      encodeKeys c keyBase (ks.length + n) r = encodeKeys c keyBase n { wr := w, loop := r.loop.afterKeys ks }) ∧
    (∀ e w, writeString c (codewords r.loop.p r.loop.nextMin ks) r.wr = .raise e w →
      ∃ l, encodeKeys c keyBase (ks.length + n) r = .raise e { wr := w, loop := l }) := by
  induction ks with
  | nil =>
    intro r _ _ _ _
    refine ⟨fun w h => ?_, fun e w h => by cases h⟩
    cases h
    rw [List.length_nil, Nat.zero_add]
    rfl
  | cons k ks ih =>
    rintro r hw ⟨hkey, hkeys⟩ hcount ⟨hmin, hasc⟩
    rw [List.length_cons] at hcount ⊢
    rw [codewords, writeString_append, Nat.succ_add, encodeKeys, hw.loadKey_eq (by omega), hkey]
    simp only [if_neg (Nat.not_lt.2 hmin), encodeValue_eq]
    cases hcode : writeString c (codeword r.loop.p (k - r.loop.nextMin)) r.wr with
    | raise e w1 =>
      refine ⟨fun w h => (nomatch h), fun e w h => ?_⟩
      cases h
      exact ⟨_, rfl⟩
    | ok _ w1 =>
      rw [LoopState.afterKeys_cons]
      exact ih (r := { wr := w1, loop := r.loop.afterKey k }) (hw.writeString hcode) hkeys
        (by simp only [LoopState.afterKey]; omega) hasc

/-- When ENCODE's element phase succeeds, the keys it read ascend, and it has written their codewords. -/
theorem encodeKeys_ok (n : Nat) : ∀ {r r' : EncodeRun},
    r.wr.Beside c m { base := keyBase, len := count * c.width.bytes } → r.loop.keyIndex + n ≤ count →
    encodeKeys c keyBase n r = .ok () r' →
    ∃ ks, ks.length = n ∧ KeysFrom c m keyBase r.loop.keyIndex ks ∧ AscendsFrom r.loop.nextMin ks ∧
      writeString c (codewords r.loop.p r.loop.nextMin ks) r.wr = .ok () r'.wr := by
  induction n with
  | zero => intro r r' _ _ h; cases h; exact ⟨[], rfl, trivial, trivial, rfl⟩
  | succ n ih =>
    intro r r' hw hcount h
    rw [encodeKeys, hw.loadKey_eq (by omega)] at h
    cases hkey : loadKey c m keyBase r.loop.keyIndex with
    | error e => rw [hkey] at h; cases h
    | ok k =>
      simp only [hkey, encodeValue_eq] at h
      split at h
      next => cases h
      next hmin =>
        cases hcode : writeString c (codeword r.loop.p (k - r.loop.nextMin)) r.wr with
        | raise e w1 => rw [hcode] at h; cases h
        | ok _ w1 =>
          rw [hcode] at h
          obtain ⟨ks, hlen, hkeys, hasc, hstr⟩ := ih (r := { wr := w1, loop := r.loop.afterKey k })
            (hw.writeString hcode) (by simp only [LoopState.afterKey]; omega) h
          refine ⟨k :: ks, congrArg _ hlen, ⟨hkey, hkeys⟩, ⟨Nat.not_lt.1 hmin, hasc⟩, ?_⟩
          rw [codewords, writeString_append, hcode]
          exact hstr

end

variable {s : State} {ks : List Nat} {p : Nat}

/-- ENCODE's destination lies beside its key array (R191). -/
theorem State.encodeWriter_beside (hs : s.Inv) (hc : s.EncodeChecks) :
    s.encodeWriter.Beside s.cfg s.mem s.keyRegion := by
  refine ⟨s.encodeWriter_sound hs hc, fun a ha => ?_, fun _ _ => rfl⟩
  have hdisjoint := hc.disjoint
  obtain ⟨hlo, hhi⟩ := Region.contains_iff.1 ha
  simp only [State.keyRegion] at hlo hhi
  simp only [State.encodeWriter, WrCursor.fresh]
  omega

/-- ENCODE whose first keys ascend writes their stream, and goes on after it (R194, R195). -/
theorem encodeStream_of_keys (hs : s.Inv) (hc : s.EncodeChecks) (hk : s.HoldsFirst ks) (ha : AscendsFrom 0 ks) :
    (∀ w, writeString s.cfg (stream s.hdr p ks) s.encodeWriter = .ok () w →
      w.Beside s.cfg s.mem s.keyRegion ∧ encodeStream s p =
        encodeKeys s.cfg s.regs.keyBase.toNat (s.regs.keyCount.toNat - ks.length)
          { wr := w, loop := (LoopState.start p).afterKeys ks }) ∧
    (∀ e w, writeString s.cfg (stream s.hdr p ks) s.encodeWriter = .raise e w →
      ∃ l, encodeStream s p = .raise e { wr := w, loop := l }) := by
  obtain ⟨hlen, hkeys⟩ := hk
  have hbeside := s.encodeWriter_beside hs hc
  have hcount : s.regs.keyCount.toNat = ks.length + (s.regs.keyCount.toNat - ks.length) := by omega
  rw [stream, writeString_append, encodeStream, writeBits_eq, ← State.encodeWriter]
  cases hhdr : writeString s.cfg (binBits s.hdr p) s.encodeWriter with
  | raise e w1 =>
    refine ⟨fun w h => (nomatch h), fun e w h => ?_⟩
    cases h
    exact ⟨_, rfl⟩
  | ok _ w1 =>
    obtain ⟨hok, hraise⟩ := encodeKeys_of_keys (s.regs.keyCount.toNat - ks.length)
      (r := { wr := w1, loop := LoopState.start p }) (hbeside.writeString hhdr) (keysFrom_zero_iff.2 hkeys)
      ((Nat.zero_add _).trans_le hlen) ha
    rw [← hcount] at hok hraise
    exact ⟨fun w h => ⟨(hbeside.writeString hhdr).writeString h, hok w h⟩, hraise⟩

/-- When ENCODE succeeds its keys ascend, and it has written their stream (R195, R196). -/
theorem encodeStream_ok {r : EncodeRun} (hs : s.Inv) (hc : s.EncodeChecks) (h : encodeStream s p = .ok () r) :
    ∃ ks, s.HoldsKeys ks ∧ AscendsFrom 0 ks ∧
      writeString s.cfg (stream s.hdr p ks) s.encodeWriter = .ok () r.wr := by
  rw [encodeStream, writeBits_eq, ← State.encodeWriter] at h
  cases hhdr : writeString s.cfg (binBits s.hdr p) s.encodeWriter with
  | raise e w1 => rw [hhdr] at h; cases h
  | ok _ w1 =>
    rw [hhdr] at h
    obtain ⟨ks, hlen, hkeys, hasc, hstr⟩ := encodeKeys_ok _ (r := { wr := w1, loop := LoopState.start p })
      ((s.encodeWriter_beside hs hc).writeString hhdr) (Nat.zero_add _).le h
    refine ⟨ks, ⟨hlen, hlen.le, keysFrom_zero_iff.1 hkeys⟩, hasc, ?_⟩
    rw [stream, writeString_append, hhdr]
    exact hstr

theorem bytesFor_mul (n : Nat) : bytesFor (8 * n) = n := by
  unfold bytesFor
  omega

theorem WrCursor.opens_fresh (base cap n : Nat) :
    (WrCursor.fresh base cap).opens n = { base := base, len := bytesFor n } := by
  simp [opens, pos, fresh]

/-- A bit string that fits the destination is written to it when the bytes it opens answer (40_bitio.md R126 (b)). -/
theorem writeString_encodeWriter {l : List Bool} (hs : s.Inv) (hc : s.EncodeChecks)
    (ha : s.cfg.Answers { base := s.regs.dstBase.toNat, len := bytesFor l.length })
    (hfits : bytesFor l.length ≤ s.regs.dstLen.toNat) :
    ∃ w, writeString s.cfg l s.encodeWriter = .ok () w ∧ Appended l s.encodeWriter w := by
  have hfree : l.length ≤ s.encodeWriter.cur.free := by
    simp only [WrCursor.free, State.encodeWriter, WrCursor.fresh]
    unfold bytesFor at hfits
    omega
  obtain ⟨w, hw⟩ := writeString_ok l (s.encodeWriter_sound hs hc) hfree
    (WrCursor.opens_fresh _ _ _ ▸ ha)
  exact ⟨w, hw, writeString_appended (s.encodeWriter_sound hs hc) hw⟩

/-- Settles O46: the stream fits, and after its last key ENCODE succeeds. -/
theorem encodeWritesStream : Obligations.EncodeWritesStream := by
  intro s auto ks p hs hc ⟨hlen, hkeys⟩ hasc hp l ha hfits
  obtain ⟨w, hw, happ⟩ := writeString_encodeWriter hs hc ha hfits
  have hwrote := wrote_of_appended rfl happ
  obtain ⟨-, hstream⟩ := (encodeStream_of_keys hs hc hkeys hasc).1 w hw
  rw [hlen, Nat.sub_self] at hstream
  have hpos : s.encodeWriter.cur.pos = 0 := rfl
  refine ⟨_, execEncode_of_ok hs hc hp hstream, ?_, hwrote, fun i h => ?_, fun i h1 h2 => ?_, fun a h => ?_⟩
  · simp only [hwrote.nbytes]
  · have hbit := happ.bits i h
    rwa [hpos, Nat.zero_add] at hbit
  · have hne : l ≠ [] := by rintro h0; rw [h0] at h2; exact absurd h2 (Nat.not_lt_zero i)
    exact happ.ones hne i (by rwa [hpos, Nat.zero_add]) (by rwa [hwrote.nbytes])
  · exact happ.outside a (h.imp (Nat.lt_add_right _) fun h => by rwa [hwrote.nbytes])

/-- Settles O47: past the stream of the first keys, the next one is not loaded, or is below the next_min it meets. -/
theorem encodeInvalidInput : Obligations.EncodeInvalidInput := by
  intro s auto ks p e hs hc hkeys hmore hasc hp ha hfits hnext
  obtain ⟨w, hw, happ⟩ := writeString_encodeWriter hs hc ha hfits
  obtain ⟨hbeside, hstream⟩ := (encodeStream_of_keys hs hc hkeys hasc).1 w hw
  have hraise : encodeStream s p = .raise e { wr := w, loop := (LoopState.start p).afterKeys ks } := by
    obtain ⟨n, hn⟩ : ∃ n, s.regs.keyCount.toNat - ks.length = n + 1 := ⟨s.regs.keyCount.toNat - ks.length - 1, by omega⟩
    have hindex : ((LoopState.start p).afterKeys ks).keyIndex = ks.length := Nat.zero_add _
    rw [hstream, hn, encodeKeys, hindex, hbeside.loadKey_eq hmore]
    rcases hnext with ⟨hhole, rfl⟩ | ⟨k, hload, hdesc, rfl⟩
    · rw [loadKey_of_hole hhole]
    · have hbelow : k < nextMinAfter 0 ks :=
        Nat.lt_of_not_le fun hle => hdesc (ascendsFrom_append_singleton.2 ⟨hasc, hle⟩)
      rw [hload]
      exact if_pos hbelow
  obtain ⟨t, ht, hwr, hfails⟩ := execEncode_of_raise hs hc hp hraise
  exact ⟨t, ht, hfails.state, hwr ▸ wrote_of_appended rfl happ, hfails.drawn⟩

/-- Settles O48: the stream fills the writer, and the next WriteBit raises. -/
theorem encodeBufferExhausted : Obligations.EncodeBufferExhausted := by
  intro s auto ks p hs hc hkeys hasc hp ha hlong
  have hsound := s.encodeWriter_sound hs hc
  have hfree : s.encodeWriter.cur.free = 8 * s.regs.dstLen.toNat := rfl
  have hopens : s.encodeWriter.cur.opens s.encodeWriter.cur.free = s.dstRegion := by
    rw [hfree, State.encodeWriter, WrCursor.opens_fresh, bytesFor_mul, State.dstRegion]
  unfold bytesFor at hlong
  obtain ⟨w, hraise, htake, hfull, hz⟩ := writeString_exhausted hsound
    (show s.encodeWriter.cur.free < (stream s.hdr p ks).length by rw [hfree]; omega) (hopens ▸ ha)
  obtain ⟨l, hstream⟩ := (encodeStream_of_keys hs hc hkeys hasc).2 _ _ hraise
  obtain ⟨t, ht, hwr, hfails⟩ := execEncode_of_raise hs hc hp hstream
  have hwrote := wrote_of_appended (base := s.regs.dstBase.toNat) (cap := s.regs.dstLen.toNat) rfl
    (writeString_appended hsound htake)
  rw [hfree] at hwrote
  exact ⟨t, ht, hfails.state, hwr ▸ hfull, hwr ▸ hz, hwr ▸ hwrote, hfails.drawn⟩

end Sys2Proof.Machine
end

section
/-! The keys DECODE stores (43_set_codec.md R204, R205, R209): whatever the source, they ascend, and the output array
holds them. -/

namespace Sys2Proof.Machine

/-- DECODE's element phase decodes the keys and stores each, from the run `r` to the run `r'` (R204, R205). -/
inductive StoresKeys (c : Config) (outBase cap : Nat) : DecodeRun → List Nat → DecodeRun → Prop where
  | nil (r : DecodeRun) : StoresKeys c outBase cap r [] r
  | cons {r r' : DecodeRun} {rd : RdCursor} {m : Memory} {d k : Nat} {ks : List Nat}
      (decoded : decodeValue c r.mem r.loop.p r.rd = .ok d rd) (value : d + r.loop.nextMin = k)
      (fits : k < 2 ^ c.width.bits) (room : r.loop.decoded ≠ cap)
      (stored : storeKey c outBase r.loop.decoded k r.mem = .ok () m)
      (rest : StoresKeys c outBase cap { rd := rd, mem := m, loop := r.loop.afterValue k } ks r') :
      StoresKeys c outBase cap r (k :: ks) r'

section

variable {c : Config} {outBase cap : Nat} {r r' : DecodeRun} {ks : List Nat}

/-- The loop of DECODE goes on after the keys stored. -/
theorem StoresKeys.decodeKeys_eq (h : StoresKeys c outBase cap r ks r') (fuel : Nat) :
    decodeKeys c outBase cap (ks.length + fuel) r = decodeKeys c outBase cap fuel r' := by
  induction h with
  | nil r => rw [List.length_nil, Nat.zero_add]
  | cons hd hk hlt hroom hm _ ih =>
    subst hk
    rw [← ih, List.length_cons, Nat.succ_add, decodeKeys, hd]
    simp only [if_neg (Nat.not_le.2 hlt), if_neg hroom, hm]

/-- A successful element phase stores keys, and then moves the reader at most (R206). -/
theorem storesKeys_of_ok (fuel : Nat) : ∀ {r r1 : DecodeRun}, decodeKeys c outBase cap fuel r = .ok () r1 →
    ∃ ks r', StoresKeys c outBase cap r ks r' ∧ r1.mem = r'.mem ∧ r1.loop = r'.loop := by
  induction fuel with
  | zero => intro r r1 h; cases h; exact ⟨[], _, .nil _, rfl, rfl⟩
  | succ n ih =>
    intro r r1 h
    simp only [decodeKeys] at h
    cases hd : decodeValue c r.mem r.loop.p r.rd with
    | raise e rd =>
      rw [hd] at h
      cases e with
      | endOfStream => cases h; exact ⟨[], _, .nil _, rfl, rfl⟩
      | _ => cases h
    | ok d rd =>
      rw [hd] at h
      dsimp only at h
      split at h
      next => cases h
      next hlt =>
        split at h
        next => cases h
        next hroom =>
          cases hm : storeKey c outBase r.loop.decoded (d + r.loop.nextMin) r.mem with
          | raise e m => rw [hm] at h; cases h
          | ok _ m =>
            rw [hm] at h
            obtain ⟨ks, r', hks, hend⟩ := ih h
            exact ⟨_, r', .cons hd rfl (Nat.lt_of_not_le hlt) hroom hm hks, hend⟩

theorem StoresKeys.loop_eq (h : StoresKeys c outBase cap r ks r') : r'.loop = r.loop.afterValues ks := by
  induction h with
  | nil r => rfl
  | cons _ _ _ _ _ _ ih => rw [ih, LoopState.afterValues_cons]

/-- Each value is its delta above the next_min it meets (R209). -/
theorem StoresKeys.ascends (h : StoresKeys c outBase cap r ks r') : AscendsFrom r.loop.nextMin ks := by
  induction h with
  | nil r => trivial
  | cons _ hk _ _ _ _ ih => exact ⟨hk ▸ Nat.le_add_left _ _, ih⟩

/-- The stores change the places of the keys only. -/
theorem StoresKeys.outside (h : StoresKeys c outBase cap r ks r') {a : Nat}
    (ha : a < outBase + r.loop.decoded * c.width.bytes ∨
      outBase + (r.loop.decoded + ks.length) * c.width.bytes ≤ a) : r'.mem.read a = r.mem.read a := by
  induction h with
  | nil r => rfl
  | @cons r r' rd m d k ks _ _ _ _ hm _ ih =>
    simp only [LoopState.afterValue, Nat.succ_mul, Nat.add_mul, List.length_cons] at ih ha
    have hkey := storeBytes_outside (c := c) c.width.bytes (v := k) (m := r.mem) (x := a)
      (a := outBase + r.loop.decoded * c.width.bytes) (by omega)
    rw [← storeKey, hm] at hkey
    exact (ih (by omega)).trans hkey

/-- The output array holds the keys stored (R204). -/
theorem StoresKeys.keysFrom (h : StoresKeys c outBase cap r ks r') :
    KeysFrom c r'.mem outBase r.loop.decoded ks := by
  induction h with
  | nil r => trivial
  | @cons r r' rd m d k ks _ _ hlt _ hm hks ih =>
    refine ⟨?_, ih⟩
    obtain ⟨m', hm', hload, -⟩ := keyStoredIsLoaded c r.mem outBase r.loop.decoded k hlt (answers_of_storeKey hm)
    obtain rfl : m' = m := by rw [hm] at hm'; cases hm'; rfl
    rw [← hload]
    refine loadBytes_congr (q := ⟨outBase + r.loop.decoded * c.width.bytes, c.width.bytes⟩) _ le_rfl le_rfl
      fun a ha => hks.outside (.inl ?_)
    have hhi := (Region.contains_iff.1 ha).2
    simp only [LoopState.afterValue, Nat.succ_mul] at hhi ⊢
    omega

end

/-- Settles O52: the keys are those the element phase stored. -/
theorem decodedKeysAscend : Obligations.DecodedKeysAscend := by
  intro s t _ h hok
  rcases execDecode_cases h with ⟨e, rfl⟩ | ⟨-, ⟨e, rd, -, rfl, -⟩ | ⟨p, rd, -, hend⟩⟩
  · cases hok
  · cases hok
  · rcases hend with ⟨-, -, rfl⟩ | ⟨-, r, hr, rfl⟩ | ⟨-, e, r, -, rfl⟩
    · cases hok
    · obtain ⟨-, hcap, -⟩ := decodeKeys_stores _ (Nat.zero_le _) hr
      obtain ⟨ks, r', hks, hmem, hloop⟩ := storesKeys_of_ok _ hr
      have hkeys := hks.keysFrom
      have hcount : r.loop.decoded = ks.length := by rw [hloop, hks.loop_eq]; exact Nat.zero_add _
      have hresult := toNat_word_of_le hcap
      refine ⟨hresult.trans_le hcap, ks, (hresult.trans hcount).symm, hks.ascends, fun i hi => ?_⟩
      have hload := keysFrom_zero_iff.1 hkeys i hi
      rw [← hmem] at hload
      exact ⟨hkeys.lt _ (List.getElem_mem hi), hload⟩
    · cases hok

end Sys2Proof.Machine
end

section
/-! DECODE of a given source (43_set_codec.md R200 to R207): its header, and then the codewords in front of it, come off
the source one after the other, and the stores leave the source as it is. -/

namespace Sys2Proof.Machine

section

variable {c : Config} {m : Memory} {outBase cap j : Nat}

/-- DecodeValue takes a codeword before byte `j` (41_value_codec.md R165). -/
theorem decodeValue_codeword {r : RdCursor} {p v : Nat} {rest : List Bool} (hr : r.Ready c j)
    (hu : unread m (r.upto j) = codeword p v ++ rest) :
    ∃ r', decodeValue c m p r = .ok v r' ∧ r'.Ready c j ∧ RdCursor.Reads m (codeword p v) r r' ∧
      unread m (r'.upto j) = rest := by
  have hdec := decodeValue_upto hr hu
  rwa [length_binBits, valueOf_binBits, Nat.div_add_mod'] at hdec

/-- A run of DECODE that can read up to byte `j` of its source, which is as it was in the memory `m` and lies beside the
output array. -/
structure DecodeRun.Ready (c : Config) (m : Memory) (outBase cap j : Nat) (r : DecodeRun) : Prop where
  rd : r.rd.Ready c j
  apart : ∀ a, r.rd.region.contains a = true → a < outBase ∨ outBase + cap * c.width.bytes ≤ a
  agree : m.AgreeOn r.mem r.rd.region

theorem DecodeRun.Ready.decodeValue_eq {r : DecodeRun} (h : r.Ready c m outBase cap j) (p : Nat) :
    decodeValue c r.mem p r.rd = decodeValue c m p r.rd :=
  decodeValue_congr p h.rd.sound h.agree

/-- Storing a key with room for it leaves the run ready. -/
theorem DecodeRun.Ready.store {r r' : DecodeRun} {v : Nat} (h : r.Ready c m outBase cap j) (hrd : r'.rd.Ready c j)
    (hw : r.rd.Within r'.rd) (hroom : r.loop.decoded < cap)
    (hm : storeKey c outBase r.loop.decoded v r.mem = .ok () r'.mem) : r'.Ready c m outBase cap j := by
  have hregion := hw.region_eq
  refine ⟨hrd, hregion ▸ h.apart, fun a ha => ?_⟩
  rw [hregion] at ha
  have hkey : (r.loop.decoded + 1) * c.width.bytes ≤ cap * c.width.bytes := Nat.mul_le_mul_right _ hroom
  rw [Nat.succ_mul] at hkey
  have hout := h.apart a ha
  have hstore := storeBytes_outside (c := c) c.width.bytes (v := v) (m := r.mem) (x := a)
    (a := outBase + r.loop.decoded * c.width.bytes) (by omega)
  rw [← storeKey, hm] at hstore
  exact hstore.trans (h.agree a ha)

/-- The codewords of ascending keys in front of the reader are decoded to the keys, which are stored where there is room
in bytes that answer (R204). -/
theorem storesKeys_of_codewords {n : Nat} {ks : List Nat} {rest : List Bool} (hn : n ≤ cap)
    (hans : c.Answers { base := outBase, len := n * c.width.bytes }) : ∀ {r : DecodeRun}, r.Ready c m outBase cap j →
    unread m (r.rd.upto j) = codewords r.loop.p r.loop.nextMin ks ++ rest → AscendsFrom r.loop.nextMin ks →
    (∀ k ∈ ks, k < 2 ^ c.width.bits) → r.loop.decoded + ks.length ≤ n →
    ∃ r', StoresKeys c outBase cap r ks r' ∧ r'.Ready c m outBase cap j ∧
      RdCursor.Reads m (codewords r.loop.p r.loop.nextMin ks) r.rd r'.rd ∧ unread m (r'.rd.upto j) = rest := by
  induction ks with
  | nil => intro r hr hu _ _ _; exact ⟨r, .nil r, hr, .refl _, hu⟩
  | cons k ks ih =>
    rintro r hr hu ⟨hmin, hasc⟩ hlt hlen
    obtain ⟨hk, hks⟩ := List.forall_mem_cons.1 hlt
    rw [codewords, List.append_assoc] at hu
    rw [List.length_cons] at hlen
    obtain ⟨rd, hdec, hrd, hreads, hu⟩ := decodeValue_codeword hr.rd hu
    obtain ⟨m', hm, -⟩ := keyStoredIsLoaded c r.mem outBase r.loop.decoded k hk (answers_key hans (by omega))
    have hready := hr.store (r' := { rd := rd, mem := m', loop := r.loop.afterValue k }) hrd hreads.within (by omega) hm
    obtain ⟨r', hstores, hr', hreads', hu'⟩ := ih hready hu hasc hks (by simp only [LoopState.afterValue]; omega)
    exact ⟨r', .cons ((hr.decodeValue_eq _).trans hdec) (Nat.sub_add_cancel hmin) hk (by omega) hm hstores, hr',
      hreads.trans hreads', hu'⟩

end

variable {s : State} {p j : Nat} {ks : List Nat} {rest : List Bool}

/-- The reader DECODE starts with (R203). -/
def State.decodeReader (s : State) : RdCursor := RdCursor.fresh s.regs.srcBase.toNat s.regs.srcLen.toNat

theorem State.decodeReader_sound (hs : s.Inv) (hc : s.DecodeChecks) : s.decodeReader.Sound s.cfg :=
  .fresh hs.regs.srcBase hs.regs.srcLen hc.source

@[simp] theorem State.avail_decodeReader (s : State) : avail s.decodeReader = 8 * s.regs.srcLen.toNat := rfl

/-- All bits of the source are still to be read. -/
theorem State.unread_decodeReader (m : Memory) (s : State) :
    unread m s.decodeReader = memBits m s.regs.srcBase.toNat s.regs.srcLen.toNat := by
  simp [unread, decodeReader, RdCursor.fresh, byteBits]

theorem State.opens_decodeReader (s : State) (n : Nat) :
    s.decodeReader.opens n = { base := s.regs.srcBase.toNat, len := bytesFor n } := by
  simp [RdCursor.opens, RdCursor.pos, decodeReader, RdCursor.fresh]

/-- A source that answers can be read to its end. -/
theorem State.decodeReader_ready (hs : s.Inv) (hc : s.DecodeChecks) (ha : s.cfg.Answers s.srcRegion) :
    s.decodeReader.Ready s.cfg s.regs.srcLen.toNat :=
  ⟨s.decodeReader_sound hs hc, Nat.zero_le _, le_rfl, ha⟩

/-! ### The header (R202, R203) -/

theorem execDecode_of_noHeader (hc : s.DecodeChecks) (h : s.hdr = 0) (hp : s.paramVal < s.keyBits) :
    execDecode s = decodeNoHeader s := by
  rw [execDecode_of_checks hc, decodeParamBad, decide_eq_false (Nat.not_le.2 hp), Bool.and_false,
    if_neg Bool.false_ne_true, if_pos h]

theorem execDecode_of_header (hc : s.DecodeChecks) (h : 0 < s.hdr) : execDecode s = decodeHeader s := by
  rw [execDecode_of_checks hc, decodeParamBad, decide_eq_false h.ne', Bool.false_and, if_neg Bool.false_ne_true,
    if_neg h.ne']

/-- Past a legal header, or without one, DECODE decodes the elements, PARAM holding the header's value. -/
theorem execDecode_of_param (hc : s.DecodeChecks) (hp : s.DecodeParamIs p) (hr : s.decodeReader.Ready s.cfg j)
    (hu : unread s.mem (s.decodeReader.upto j) = binBits s.hdr p ++ rest) :
    ∃ rd, execDecode s = completeDecode (decodeElements s p rd)
        { s with regs := { s.regs with param := if s.hdr = 0 then s.regs.param else BitVec.ofNat 64 p } } ∧
      rd.Ready s.cfg j ∧ RdCursor.Reads s.mem (binBits s.hdr p) s.decodeReader rd ∧
      unread s.mem (rd.upto j) = rest := by
  obtain ⟨hlt, hparam⟩ := hp
  rcases Nat.eq_zero_or_pos s.hdr with h0 | hpos
  · rw [if_pos h0] at hparam ⊢
    rw [h0] at hu ⊢
    subst hparam
    exact ⟨s.decodeReader, execDecode_of_noHeader hc h0 hlt, hr, .refl _, hu⟩
  · rw [if_neg hpos.ne'] at hparam ⊢
    obtain ⟨rd, hread, hrd, hreads, hu'⟩ := readBits_upto _ (v := 0) hr hu
    rw [length_binBits, ← valueOf, valueOf_binBits, Nat.mod_eq_of_lt hparam] at hread
    refine ⟨rd, ?_, hrd, hreads, hu'⟩
    rw [execDecode_of_header hc hpos, decodeHeader, readBits, ← State.decodeReader, hread]
    exact if_neg (Nat.not_le.2 hlt)

/-! ### The elements (R204 to R206) -/

/-- The run of DECODE that has taken the stream of the keys off the source and stored them, with `rest` before byte `j`
still to be read. -/
structure State.Decoded (s : State) (p : Nat) (ks : List Nat) (j : Nat) (rest : List Bool) (r : DecodeRun) : Prop where
  param : r.loop.p = p
  count : r.loop.decoded = ks.length
  nextMin : r.loop.nextMin = nextMinAfter 0 ks
  keys : KeysFrom s.cfg r.mem s.regs.outBase.toNat 0 ks
  outside : ∀ a, a < s.regs.outBase.toNat ∨ s.regs.outBase.toNat + ks.length * s.keyBytes ≤ a →
    r.mem.read a = s.mem.read a
  ready : r.Ready s.cfg s.mem s.regs.outBase.toNat s.regs.outCap.toNat j
  reads : RdCursor.Reads s.mem (stream s.hdr p ks) s.decodeReader r.rd
  unread : unread s.mem (r.rd.upto j) = rest

/-- DECODE of a source that starts with the stream of keys it has room for stores them, and goes on after the stream. -/
theorem execDecode_of_stream (hc : s.DecodeChecks) (hp : s.DecodeParamIs p) (hr : s.decodeReader.Ready s.cfg j)
    (hu : unread s.mem (s.decodeReader.upto j) = stream s.hdr p ks ++ rest)
    (hans : s.cfg.Answers { base := s.regs.outBase.toNat, len := ks.length * s.keyBytes }) (hasc : AscendsFrom 0 ks)
    (hlt : ∀ k ∈ ks, k < 2 ^ s.keyBits) (hroom : ks.length ≤ s.regs.outCap.toNat) :
    ∃ n r, s.Decoded p ks j rest r ∧ execDecode s =
      completeDecode (decodeKeys s.cfg s.regs.outBase.toNat s.regs.outCap.toNat (n + 1) r)
        { s with regs := { s.regs with param := if s.hdr = 0 then s.regs.param else BitVec.ofNat 64 p } } := by
  have hbits := length_unread_upto_le (m := s.mem) hr
  rw [hu, stream, List.length_append, List.length_append, State.avail_decodeReader] at hbits
  have hcode := length_le_codewords p ks 0
  rw [stream, List.append_assoc] at hu
  obtain ⟨rd, hexec, hrd, hreads, hu⟩ := execDecode_of_param hc hp hr hu
  have hregion : rd.region = s.srcRegion := hreads.within.region_eq
  have hready : (DecodeRun.mk rd s.mem (LoopState.start p)).Ready s.cfg s.mem s.regs.outBase.toNat
      s.regs.outCap.toNat j := by
    refine ⟨hrd, fun a ha => ?_, fun _ _ => rfl⟩
    have hdisjoint := hc.disjoint
    obtain ⟨hlo, hhi⟩ := Region.contains_iff.1 (hregion ▸ ha)
    simp only [State.srcRegion, State.keyBytes] at hlo hhi hdisjoint
    omega
  obtain ⟨r, hstores, hr', hreads', hu'⟩ :=
    storesKeys_of_codewords hroom hans hready hu hasc hlt (Nat.zero_add _).le
  have hloop := hstores.loop_eq
  refine ⟨8 * s.regs.srcLen.toNat - ks.length, r, ⟨?_, ?_, ?_, hstores.keysFrom, fun a ha => hstores.outside ?_, hr',
    hreads.trans hreads', hu'⟩, ?_⟩
  · rw [hloop]; rfl
  · rw [hloop]; exact Nat.zero_add _
  · rw [hloop]; rfl
  · simpa [LoopState.start, State.keyBytes] using ha
  · rw [hexec, decodeElements, ← hstores.decodeKeys_eq]
    congr 2
    omega

/-- Settles O49: after the keys DecodeValue meets the end of the source, which ends the loop (R206). -/
theorem decodeStoresKeys : Obligations.DecodeStoresKeys := by
  intro s ks tail p hs hc hp hsrc hout hasc hlt hroom htail hbits
  have hr := s.decodeReader_ready hs hc hsrc
  have hu : unread s.mem (s.decodeReader.upto s.regs.srcLen.toNat) = stream s.hdr p ks ++ tail :=
    (s.unread_decodeReader s.mem).trans hbits
  obtain ⟨n, r, hdone, hexec⟩ := execDecode_of_stream hc hp hr hu hout hasc hlt hroom
  obtain ⟨rd, hdec, hsound, hreads⟩ := decodeValue_ends hdone.ready.rd
    (.inl ⟨hdone.reads.within.len.symm, rfl⟩) hdone.unread htail
  have hmoved := (hdone.reads.trans hreads).eq_moved hsound
  rw [← hbits, length_memBits] at hmoved
  have hatEnd := moved_avail_atEnd (m := s.mem) (s.decodeReader_sound hs hc)
  rw [decodeKeys, hdone.ready.decodeValue_eq, hdone.param, hdec, hmoved] at hexec
  simp only [completeDecode, hdone.count] at hexec
  rw [State.discardLoop_of_none] at hexec
  · exact ⟨_, hexec, rfl, hatEnd.1, hatEnd.2, keysFrom_zero_iff.1 hdone.keys, hdone.outside⟩
  · exact hs.loop

end Sys2Proof.Machine
end

section
/-! How DECODE fails once it has started its reader (43_set_codec.md R207 (b)). -/

namespace Sys2Proof.Machine

variable {s : State} {rd : RdCursor} {e : Err} {param : Word}

/-- DECODE has failed with `e` past its check phase, PARAM being `param`: only the reader cursor, PARAM, STATUS and the
output region have changed, and the output region holds free values. -/
structure State.DecodeFails (s : State) (param : Word) (rd : RdCursor) (e : Err) (t : State) : Prop where
  state : t = { s with
    rd := rd, mem := t.mem, draws := s.draws + 1, regs := { s.regs with param := param },
    status := { busy := false, done := true, ovr := s.status.ovr, err := some e } }
  drawn : ∀ a, t.mem.read a = if s.outRegion.contains a then Config.freeByte s.draws a else s.mem.read a

theorem failDecode_fails {m : Memory} (hs : s.Inv) (hc : s.DecodeChecks) (param : Word) (rd : RdCursor) (e : Err)
    (hm : s.WritesWithin s.outRegion (s.withMem m)) :
    ∃ t, failDecode e rd { s with mem := m, regs := { s.regs with param := param } } = .next t ∧
      s.DecodeFails param rd e t := by
  rw [failDecode, State.discardLoop_of_none]
  · exact ⟨_, rfl, rfl, hm.read_drawRegion hc.output⟩
  · exact hs.loop

/-! ### In the header (R203) -/

/-- A read of the header that raises ends DECODE with its error, PARAM as it was. -/
theorem execDecode_of_header_raise (hs : s.Inv) (hc : s.DecodeChecks) (hpos : 0 < s.hdr)
    (h : readBits s.cfg s.mem s.hdr s.decodeReader = .raise e rd) :
    ∃ t, execDecode s = .next t ∧ s.DecodeFails s.regs.param rd e t := by
  obtain ⟨t, ht, hfails⟩ := failDecode_fails (m := s.mem) hs hc s.regs.param rd e (.of_mem rfl)
  refine ⟨t, ?_, hfails⟩
  rw [execDecode_of_header hc hpos, decodeHeader, ← State.decodeReader, h]
  exact ht

/-- A header value of W or more ends DECODE with PARAM_RANGE, PARAM written. -/
theorem execDecode_of_header_large {p : Nat} (hs : s.Inv) (hc : s.DecodeChecks) (hpos : 0 < s.hdr)
    (h : readBits s.cfg s.mem s.hdr s.decodeReader = .ok p rd) (hp : s.keyBits ≤ p) :
    ∃ t, execDecode s = .next t ∧ s.DecodeFails (BitVec.ofNat 64 p) rd .paramRange t := by
  obtain ⟨t, ht, hfails⟩ := failDecode_fails (m := s.mem) hs hc (BitVec.ofNat 64 p) rd .paramRange (.of_mem rfl)
  refine ⟨t, ?_, hfails⟩
  rw [execDecode_of_header hc hpos, decodeHeader, ← State.decodeReader, h]
  exact (if_pos hp).trans ht

/-- Settles O50: the header's read meets the end of the source or a hole, or yields a value of W or more. -/
theorem decodeBadHeader : Obligations.DecodeBadHeader := by
  intro s hs hc hpos
  have hsound := s.decodeReader_sound hs hc
  refine ⟨fun ha hshort => ?_, fun j hhole hj hshort => ?_, fun p rest hbits hfit hlarge ha => ?_⟩
  · have hopens : s.decodeReader.opens (8 * s.regs.srcLen.toNat) = s.srcRegion := by
      rw [State.opens_decodeReader, bytesFor_mul, State.srcRegion]
    obtain ⟨t, ht, hfails⟩ :=
      execDecode_of_header_raise hs hc hpos (readBits_of_lt (m := s.mem) hsound hshort (hopens ▸ ha))
    exact ⟨t, ht, hfails.drawn, hfails.state⟩
  · have hready : s.decodeReader.Ready s.cfg j := ⟨hsound, Nat.zero_le j, hj.le, hhole.before⟩
    have hlen : (unread s.mem (s.decodeReader.upto j)).length = 8 * j := by rw [length_unread]; rfl
    obtain ⟨rd, hread, hrd, hreads⟩ := readBits_ends (m := s.mem) s.hdr (v := 0) hready (.inr ⟨hj, hhole.hole, rfl⟩) rfl
      (hlen ▸ hshort)
    have hmoved := hreads.eq_moved hrd
    rw [hlen] at hmoved
    obtain ⟨t, ht, hfails⟩ := execDecode_of_header_raise hs hc hpos hread
    rw [hmoved] at hfails
    exact ⟨t, ht, hfails.drawn, hfails.state⟩
  · have hu : unread s.mem s.decodeReader = binBits s.hdr p ++ rest := (s.unread_decodeReader s.mem).trans hbits
    have havail : s.hdr ≤ avail s.decodeReader := by
      rw [← length_unread s.mem, hu, List.length_append, length_binBits]
      exact Nat.le_add_right _ _
    obtain ⟨hread, -⟩ := readBits_of_le (m := s.mem) hsound havail (s.opens_decodeReader _ ▸ ha)
    rw [hu, List.take_left' (length_binBits _ _), valueOf_binBits, Nat.mod_eq_of_lt hfit] at hread
    obtain ⟨t, ht, hfails⟩ := execDecode_of_header_large hs hc hpos hread hlarge
    exact ⟨t, ht, hfails.drawn, hfails.state⟩

/-! ### In the element phase (R205, R212) -/

/-- The error of a value that is not stored, in the order of R205 and R212. -/
def valueError (c : Config) (k decoded cap : Nat) : Err :=
  if 2 ^ c.width.bits ≤ k then .decodeOverflow else if decoded = cap then .outputExhausted else .busError

theorem some_valueError (c : Config) (k decoded cap : Nat) : some (valueError c k decoded cap) =
    if 2 ^ c.width.bits ≤ k then some .decodeOverflow else if decoded = cap then some .outputExhausted
      else some .busError := by
  rw [valueError, apply_ite some, apply_ite some]

/-- A value that is 2^W or more, or has no room, or has a place that does not answer, ends the element phase after its
codeword, with no byte outside the output array changed. -/
theorem decodeKeys_raise {c : Config} {m : Memory} {outBase cap j k : Nat} {r : DecodeRun} {rest : List Bool} (n : Nat)
    (hr : r.Ready c m outBase cap j) (hcap : r.loop.decoded ≤ cap) (hmin : r.loop.nextMin ≤ k)
    (hu : unread m (r.rd.upto j) = codeword r.loop.p (k - r.loop.nextMin) ++ rest)
    (h : 2 ^ c.width.bits ≤ k ∨ r.loop.decoded = cap ∨ c.KeyHole outBase r.loop.decoded) :
    ∃ r', decodeKeys c outBase cap (n + 1) r = .raise (valueError c k r.loop.decoded cap) r' ∧ r'.rd.Sound c ∧
      RdCursor.Reads m (codeword r.loop.p (k - r.loop.nextMin)) r.rd r'.rd ∧
      ∀ a, a < outBase ∨ outBase + cap * c.width.bytes ≤ a → r'.mem.read a = r.mem.read a := by
  obtain ⟨rd, hdec, hrd, hreads, -⟩ := decodeValue_codeword hr.rd hu
  rw [decodeKeys, hr.decodeValue_eq, hdec, valueError]
  simp only [Nat.sub_add_cancel hmin]
  split
  next => exact ⟨_, rfl, hrd.sound, hreads, fun _ _ => rfl⟩
  next hk =>
    split
    next => exact ⟨_, rfl, hrd.sound, hreads, fun _ _ => rfl⟩
    next hroom =>
      rw [storeKey_of_hole k ((h.resolve_left hk).resolve_left hroom)]
      refine ⟨_, rfl, hrd.sound, hreads, fun a ha => storeBytes_outside _ ?_⟩
      have hkey : (r.loop.decoded + 1) * c.width.bytes ≤ cap * c.width.bytes := Nat.mul_le_mul_right _ (by omega)
      rw [Nat.succ_mul] at hkey
      omega

/-- Settles O51: the codeword after the stream of the keys ends the element phase. -/
theorem decodeValueErrors : Obligations.DecodeValueErrors := by
  intro s ks k rest p hs hc hp hsrc hout hasc hlt hroom hbits herr
  obtain ⟨hasc, hmin⟩ := ascendsFrom_append_singleton.1 hasc
  have hsound := s.decodeReader_sound hs hc
  have hstream : stream s.hdr p (ks ++ [k]) = stream s.hdr p ks ++ codeword p (k - nextMinAfter 0 ks) := by
    rw [stream, codewords_append_singleton, stream, List.append_assoc]
  rw [hstream] at hsrc hbits ⊢
  obtain ⟨hready, tail, hu⟩ := ready_of_prefix hsound ((s.unread_decodeReader s.mem).trans hbits)
    (s.opens_decodeReader _ ▸ hsrc)
  rw [List.append_assoc] at hu
  obtain ⟨n, r, hdone, hexec⟩ := execDecode_of_stream hc hp hready hu hout hasc hlt hroom
  obtain ⟨r', hraise, hrd, hreads, hkeep⟩ := decodeKeys_raise (k := k) n hdone.ready (hdone.count.trans_le hroom)
    (hdone.nextMin.trans_le hmin) (by rw [hdone.param, hdone.nextMin]; exact hdone.unread)
    (by rw [hdone.count]; exact herr)
  rw [hdone.param, hdone.nextMin] at hreads
  have hmoved := (hdone.reads.trans hreads).eq_moved hrd
  have hwithin : s.WritesWithin s.outRegion (s.withMem r'.mem) := by
    intro a ha
    have hkeys : ks.length * s.keyBytes ≤ s.regs.outCap.toNat * s.keyBytes := Nat.mul_le_mul_right _ hroom
    exact (hkeep a ha).trans (hdone.outside a (ha.imp_right fun h => le_trans (Nat.add_le_add_left hkeys _) h))
  obtain ⟨t, ht, hfails⟩ := failDecode_fails hs hc (if s.hdr = 0 then s.regs.param else BitVec.ofNat 64 p) r'.rd
    (valueError s.cfg k ks.length s.regs.outCap.toNat) hwithin
  rw [hraise, completeDecode, hdone.count] at hexec
  rw [hmoved] at hfails
  refine ⟨t, hexec.trans ht, ?_, hfails.drawn⟩
  have hstate := hfails.state
  rwa [some_valueError] at hstate

end Sys2Proof.Machine
end

section
/-! DECODE of what ENCODE wrote (43_set_codec.md R210, R211): the source is the stream and its padding ones, which hold
no codeword, and the parameter ENCODE used is one DECODE accepts. -/

namespace Sys2Proof.Machine

/-! ### The bytes of a stream (20_memory.md R65) -/

theorem getElem_byteBits (b : Byte) (k : Nat) : ∀ {i : Nat} (h : i < (byteBits b k).length),
    (byteBits b k)[i] = b.getLsbD (k - 1 - i) := by
  induction k with
  | zero => intro i h; exact absurd h (Nat.not_lt_zero i)
  | succ k ih =>
    intro i h
    cases i with
    | zero => rfl
    | succ i =>
      simp only [byteBits, List.getElem_cons_succ, ih]
      congr 1
      omega

/-- Bit `i` of the bytes at `a` is bit `i` of the stream there. -/
theorem getElem_memBits (m : Memory) (n : Nat) : ∀ {a i : Nat} (h : i < (memBits m a n).length),
    (memBits m a n)[i] = bitAt m a i := by
  induction n with
  | zero => intro a i h; exact absurd h (Nat.not_lt_zero i)
  | succ n ih =>
    intro a i h
    simp only [memBits, List.getElem_append, length_byteBits, getElem_byteBits, ih, bitAt]
    split
    next hi => congr 2 <;> omega
    next hi => congr 2 <;> omega

/-- A byte-exact copy holds the same bits. -/
theorem memBits_congr {m m' : Memory} (n : Nat) : ∀ {a a' : Nat}, (∀ j, j < n → m'.read (a' + j) = m.read (a + j)) →
    memBits m' a' n = memBits m a n := by
  induction n with
  | zero => intro a a' _; rfl
  | succ n ih =>
    intro a a' h
    have htail : memBits m' (a' + 1) n = memBits m (a + 1) n := by
      refine ih fun j hj => ?_
      rw [Nat.add_right_comm, Nat.add_right_comm a]
      exact h (j + 1) (Nat.succ_lt_succ hj)
    rw [memBits, memBits, htail, show m'.read a' = m.read a from h 0 n.succ_pos]

variable {s t : State} {auto : Bool} {p : Nat} {ks : List Nat}

/-- ENCODE's destination holds the bits written and then ones, to the end of its last byte (R196). -/
theorem memBits_of_appended {l : List Bool} {w : Writer} (h : Appended l s.encodeWriter w) :
    memBits w.mem s.regs.dstBase.toNat (bytesFor l.length) =
      l ++ List.replicate (8 * bytesFor l.length - l.length) true := by
  have hpos : s.encodeWriter.cur.pos = 0 := rfl
  have hlen : l.length ≤ 8 * bytesFor l.length := by unfold bytesFor; omega
  refine List.ext_getElem (by simp; omega) fun i hi _ => ?_
  rw [length_memBits] at hi
  rw [getElem_memBits, List.getElem_append]
  split
  next hil =>
    have hbit := h.bits i hil
    rwa [hpos, Nat.zero_add] at hbit
  next hil =>
    have hne : l ≠ [] := by rintro rfl; exact absurd hi (Nat.not_lt_zero i)
    rw [List.getElem_replicate]
    refine h.ones hne i ?_ ?_
    · rw [hpos, Nat.zero_add]; exact Nat.not_lt.1 hil
    · rwa [h.nbytes, hpos, Nat.zero_add]

/-! ### A successful ENCODE -/

/-- ENCODE has succeeded: it used the parameter `p`, its keys `ks` ascend, and it wrote their stream, which left the
writer `w` (R195, R196). -/
structure State.Encoded (s : State) (auto : Bool) (p : Nat) (ks : List Nat) (w : Writer) (t : State) : Prop where
  checks : s.EncodeChecks
  param : s.EncodeParamIs auto p
  keys : s.HoldsKeys ks
  ascends : AscendsFrom 0 ks
  written : writeString s.cfg (stream s.hdr p ks) s.encodeWriter = .ok () w
  state : t = { s with
    wr := w.cur, mem := w.mem,
    regs := { s.regs with
      result := BitVec.ofNat 64 w.cur.nbytes, param := if auto then BitVec.ofNat 64 p else s.regs.param },
    status := { busy := false, done := true, ovr := s.status.ovr, err := none } }

theorem execEncode_encoded (hs : s.Inv) (h : execEncode auto s = .next t) (hok : t.status.err = none) :
    ∃ p ks w, s.Encoded auto p ks w t := by
  rcases execEncode_cases h with ⟨e, rfl⟩ | ⟨p, hc, hp, ⟨r, hr, -⟩ | ⟨e, r, -, rfl⟩⟩
  · cases hok
  · have hp := encodeParam_eq_ok_iff.1 hp
    obtain ⟨ks, hkeys, hasc, hstr⟩ := encodeStream_ok hs hc hr
    have ht := h.symm.trans (execEncode_of_ok hs hc hp hr)
    exact ⟨p, ks, r.wr, hc, hp, hkeys, hasc, hstr, Host.Outcome.next.inj ht⟩
  · cases hok

/-- The parameter ENCODE uses is below W (R192, R193). -/
theorem State.EncodeParamIs.lt_keyBits (h : s.EncodeParamIs auto p) : p < s.keyBits := by
  have hpos : 0 < s.keyBits := by unfold State.keyBits; cases s.cfg.width <;> decide
  unfold State.EncodeParamIs at h
  split at h
  · split at h
    · exact h ▸ hpos
    · obtain ⟨k, hload, rfl⟩ := h
      exact Nat.lt_of_le_pred hpos (estimate_le_of_lt (loadKey_lt hload) _ _)
  · exact h.2.1

/-- The parameter ENCODE uses fits its header (R192, R193). -/
theorem State.EncodeParamIs.lt_header (h : s.EncodeParamIs auto p) (hpos : 0 < s.hdr) : p < 2 ^ s.hdr := by
  cases auto with
  | true => exact encodeParam_auto_lt (encodeParam_eq_ok_iff.2 h)
  | false => exact h.2.2 hpos

theorem toNat_of_lt_keyBits (h : p < s.keyBits) : (BitVec.ofNat 64 p).toNat = p := by
  have hbits : s.keyBits ≤ 64 := by unfold State.keyBits; cases s.cfg.width <;> decide
  exact Nat.mod_eq_of_lt (by omega)

section

variable {w : Writer} (h : s.Encoded auto p ks w t)

include h

/-- PARAM holds the parameter used, whichever AUTO (R196 (c)). -/
theorem State.Encoded.param_eq : t.regs.param = BitVec.ofNat 64 p := by
  have hparam := h.param
  rw [h.state]
  cases auto with
  | true => rfl
  | false => rw [hparam.1, State.paramVal, BitVec.ofNat_toNat, BitVec.setWidth_eq]; rfl

/-- The destination holds the stream, padded with ones to the bytes RESULT counts (R196 (a)). -/
theorem State.Encoded.stream_eq (hs : s.Inv) :
    ∃ n, memBits t.mem s.regs.dstBase.toNat t.regs.result.toNat = stream s.hdr p ks ++ List.replicate n true := by
  have hsound := s.encodeWriter_sound hs h.checks
  have happ := writeString_appended hsound h.written
  have hwrote := wrote_of_appended (base := s.regs.dstBase.toNat) (cap := s.regs.dstLen.toNat) rfl happ
  have hle : w.cur.nbytes ≤ s.regs.dstLen.toNat := hwrote.cap ▸ (writeString_sound hsound h.written).opened
  have hresult : t.regs.result.toNat = bytesFor (stream s.hdr p ks).length := by
    rw [h.state, ← hwrote.nbytes]
    exact toNat_word_of_le hle
  rw [hresult, h.state]
  exact ⟨_, memBits_of_appended happ⟩

end

/-- Settles O53: DECODE finds the stream ENCODE wrote, and `decodeStoresKeys` says what it makes of it. -/
theorem setRoundTrip : Obligations.SetRoundTrip := by
  intro s t u auto hs hexec hok hu hcfg hhdr hparam hlen hcopy hc hroom hacc
  obtain ⟨p, ks, w, henc⟩ := execEncode_encoded hs hexec hok
  obtain ⟨hcount, -, hkeys⟩ := henc.keys
  have hp := henc.param_eq
  have hbits : u.keyBits = s.keyBits := congrArg (·.width.bits) hcfg
  have hpu : u.DecodeParamIs p := by
    refine ⟨hbits ▸ henc.param.lt_keyBits, ?_⟩
    rw [hhdr]
    split
    next h0 => rw [State.paramVal, hparam h0, hp, toNat_of_lt_keyBits henc.param.lt_keyBits]
    next h0 => exact henc.param.lt_header (Nat.pos_of_ne_zero h0)
  obtain ⟨n, hstream⟩ := henc.stream_eq hs
  have hsource : memBits u.mem u.regs.srcBase.toNat u.regs.srcLen.toNat =
      stream u.hdr p ks ++ List.replicate n true := by
    rw [hlen, hhdr, ← hstream]
    exact memBits_congr _ hcopy
  have hlt : ∀ k ∈ ks, k < 2 ^ u.keyBits := hbits ▸ (keysFrom_zero_iff.2 hkeys).lt
  have hfits : ks.length ≤ u.regs.outCap.toNat := hcount.trans_le hroom
  have houtput : ks.length * u.keyBytes ≤ u.regs.outCap.toNat * u.keyBytes := Nat.mul_le_mul_right _ hfits
  have hout := hc.output
  obtain ⟨v, hv, hstate, -, -, hload, -⟩ := decodeStoresKeys u ks _ p hu hc hpu
    (fun a _ hhi => hacc a (hhi.trans_le hc.source)) (fun a _ hhi => hacc a (by simp only at hhi; omega))
    henc.ascends hlt hfits (.inl ⟨n, rfl⟩) hsource
  have hresult : v.regs.result = BitVec.ofNat 64 ks.length := by rw [hstate]
  refine ⟨v, hv, by rw [hstate], ?_, ?_, fun i hi => ?_⟩
  · rw [hresult, toNat_word_of_le hcount.le, hcount]
  · rw [hstate]
    simp only [hhdr]
    split
    next h0 => exact hparam h0
    next => exact hp.symm
  · rw [hload i (hcount ▸ hi), hkeys i (hcount ▸ hi)]

end Sys2Proof.Machine
end

section
/-! How every command ends (44_control.md R230, R232 to R234): its meaning answers a next state, and that state is a
finished one. -/

namespace Sys2Proof.Machine

variable {s s' t : State}

theorem completeReader_ends {r : Res RdCursor Nat} (h : completeReader r s = .next t) :
    ∃ code u, t = finish code u := by
  cases r with
  | ok v rd => exact ⟨_, _, complete_next.1 h⟩
  | raise e rd => exact ⟨_, _, complete_next.1 h⟩

theorem execEncVal_ends (h : execEncVal s = .next t) : ∃ code u, t = finish code u := by
  unfold execEncVal at h
  split at h <;> exact ⟨_, _, complete_next.1 h⟩

theorem execDecVal_ends (h : execDecVal s = .next t) : ∃ code u, t = finish code u := by
  obtain ⟨code, rd, v, -, ht⟩ := execDecVal_endsReading h
  exact ⟨code, _, ht⟩

theorem execEncode_ends {auto : Bool} (h : execEncode auto s = .next t) : ∃ code u, t = finish code u := by
  rcases execEncode_cases h with ⟨e, ht⟩ | ⟨p, -, -, ⟨r, -, ht⟩ | ⟨e, r, -, ht⟩⟩ <;> exact ⟨_, _, ht⟩

theorem execDecode_ends (h : execDecode s = .next t) : ∃ code u, t = finish code u := by
  rcases execDecode_cases h with ⟨e, ht⟩ | ⟨-, ⟨e, rd, -, ht, -⟩ | ⟨p, rd, -, hend⟩⟩
  · exact ⟨_, _, ht⟩
  · exact ⟨_, _, ht⟩
  · rcases hend with ⟨-, -, ht⟩ | ⟨-, r, -, ht⟩ | ⟨-, e, r, -, ht⟩ <;> exact ⟨_, _, ht⟩

/-- A command has no end but `finish`, whatever its code (44_control.md R233). -/
theorem exec_ends {i : Instr} (h : exec i s = .next t) : ∃ code u, t = finish code u := by
  cases i with
  | nop | wrBit _ | wrBits _ => exact ⟨_, _, complete_next.1 h⟩
  | wrInit =>
    obtain ⟨code, wr, ht⟩ := execWrInit_ends h
    exact ⟨code, _, ht⟩
  | rdInit =>
    obtain ⟨code, rd, ht⟩ := execRdInit_ends h
    exact ⟨code, _, ht⟩
  | rdBit | rdBits _ => exact completeReader_ends h
  | encVal => exact execEncVal_ends h
  | decVal => exact execDecVal_ends h
  | estimate =>
    obtain ⟨code, v, ht⟩ := execEstimate_ends h
    exact ⟨code, _, ht⟩
  | encode auto => exact execEncode_ends h
  | decode => exact execDecode_ends h

/-- Settles O7: the command answers a finished state, and OVR is among what no command writes. -/
theorem everyCommandCompletes : Obligations.EveryCommandCompletes := by
  intro i s
  obtain ⟨t, h⟩ := exec_next i s
  obtain ⟨code, u, rfl⟩ := exec_ends h
  have hovr : u.status.ovr = s.status.ovr := (exec_keeps h).ovr
  refine ⟨_, code, h, ?_⟩
  rw [finish_status, ← hovr]

/-- Settles O30: NOP is `finish` with OK on the state it starts from. -/
theorem nopCompletes : Obligations.NopCompletes := fun _ => rfl

/-- *Complete* runs a legal command that meets no device (44_control.md R232). -/
theorem runCommand_of_legal {i : Instr} (hi : decode s.cfg.width s.curCmd = .ok i) (hd : deviceInBuffer i s = none) :
    runCommand s = exec i s := by
  unfold runCommand
  rw [hi]
  dsimp only
  rw [hd]

/-- Settles O5: taking the turn off `pending` leaves the width and cur_cmd, so *complete* decodes the same command. -/
theorem stepRunsDecoded : Obligations.StepRunsDecoded := by
  intro s s' i hturn hi hd
  rw [← hturn.cfg_eq, ← hturn.curCmd_eq] at hi
  rw [step_of_engineAt hturn, runCommand_of_legal hi hd]

end Sys2Proof.Machine
end

section
/-! The host's register writes while BUSY = 0 (44_control.md R231, R235). -/

namespace Sys2Proof.Machine

variable {s : State} {l : List Action} {v : Word}

theorem writeSlot_cmd_of_idle (v : Word) (hb : s.status.busy = false) : writeSlot .cmd v s = accept v s := by
  unfold writeSlot
  rw [hb]
  rfl

/-- Settles O15: CMD is a guarded slot, and acceptance is what a write to it does while BUSY = 0. -/
theorem commandAcceptance : Obligations.CommandAcceptance := by
  intro s l c h
  rw [step_of_slotWrite h (by decide)]
  exact ⟨fun hb => congrArg _ (writeSlot_cmd_of_idle c hb), fun hb => congrArg _ (writeSlot_of_guarded c rfl hb)⟩

/-- While BUSY = 0 a write to a slot with no effect of its own is `setReg` (10_state.md R21 (c)). -/
theorem writeSlot_of_idle {slot : Slot} (v : Word) (hb : s.status.busy = false)
    (hs : slot ∉ [Slot.ctrl, .status, .cmd]) : writeSlot slot v s = { s with regs := setReg s.cfg slot v s.regs } := by
  unfold writeSlot
  rw [hb, Bool.and_false, if_neg Bool.false_ne_true]
  cases slot with
  | ctrl | status | cmd => exact absurd (by decide) hs
  | _ => rfl

theorem step_of_idleWrite {offset : Nat} (h : s.pending = .regWrite offset 8 v :: l) (hb : s.status.busy = false)
    (ho : accessOK offset 8 = true ∧ slotAt offset ∉ [Slot.ctrl, .status, .cmd]) :
    step s = .next { s with pending := l, regs := setReg s.cfg (slotAt offset) v s.regs } := by
  rw [step_of_slotWrite h ho.1]
  exact congrArg _ (writeSlot_of_idle v hb ho.2)

/-- Settles O17: none of the offsets names CTRL, STATUS or CMD, so each write is `setReg` on the slot it names. -/
theorem writesWhileIdle : Obligations.WritesWhileIdle := by
  intro s l v hb run w a put
  have hrun : ∀ offset, accessOK offset 8 = true ∧ slotAt offset ∉ [Slot.ctrl, .status, .cmd] →
      run offset = put (setReg s.cfg (slotAt offset) v s.regs) :=
    fun offset => step_of_idleWrite (s := { s with pending := .regWrite offset 8 v :: l }) rfl hb
  refine ⟨hrun 0x20 (by decide), hrun 0x28 (by decide), hrun 0x30 (by decide), hrun 0x38 (by decide),
    hrun 0x48 (by decide), hrun 0x50 (by decide), hrun 0x58 (by decide), hrun 0x60 (by decide),
    hrun 0x68 (by decide), hrun 0x70 (by decide), hrun 0x78 (by decide), hrun 0x80 (by decide), ?_⟩
  intro offset ho
  have hfixed : ∀ o ∈ [0x00, 0x40, 0x88, 0x90, 0x98, 0xA0, 0xA8, 0xB0, 0xB8, 0xC0, 0xC8, 0xD0, 0xD8, 0xE0, 0xE8,
      0xF0, 0xF8], accessOK o 8 = true ∧ slotAt o ∈ Slot.fixed := by decide
  obtain ⟨ha, hf⟩ := hfixed offset ho
  exact (step_of_slotWrite rfl ha).trans (congrArg _ (writeSlot_of_fixed v hf))

end Sys2Proof.Machine
end

section
/-! The host's memory accesses (44_control.md R237; 70_reset_and_hazards.md R280): a test of every address of the access
finds one that has a property, or none. -/

namespace Sys2Proof.Machine

theorem firstWith_addresses_some {p : Nat → Bool} {a n : Nat} (h : ∃ x, a ≤ x ∧ x < a + n ∧ p x = true) :
    ∃ x, firstWith p (addresses a n) = some x ∧ a ≤ x ∧ x < a + n ∧ p x = true := by
  obtain ⟨x, hlo, hhi, hx⟩ := h
  cases hf : firstWith p (addresses a n) with
  | none =>
    have hnone := firstWith_none.1 hf x ((mem_addresses n).2 ⟨hlo, hhi⟩)
    exact nomatch hx.symm.trans hnone
  | some y =>
    obtain ⟨hmem, hy⟩ := firstWith_some hf
    obtain ⟨hlo, hhi⟩ := (mem_addresses n).1 hmem
    exact ⟨y, rfl, hlo, hhi, hy⟩

theorem firstWith_addresses_none {p : Nat → Bool} {a n : Nat} (h : ∀ x, a ≤ x → x < a + n → p x = false) :
    firstWith p (addresses a n) = none := by
  refine firstWith_none.2 fun x hx => ?_
  obtain ⟨hlo, hhi⟩ := (mem_addresses n).1 hx
  exact h x hlo hhi

/-- Every address of an access within the space exists (20_memory.md R60). -/
theorem firstWith_missing_none {a n k : Nat} (h : a + n ≤ k) :
    firstWith (fun x => decide (k ≤ x)) (addresses a n) = none :=
  firstWith_addresses_none fun _ _ hx => decide_eq_false (Nat.not_le.2 (hx.trans_le h))

variable {s : State} {a : Nat}

/-! ### Writes -/

/-- A host write that meets the running footprint faults, and names an address of both (70_reset_and_hazards.md
R280). -/
theorem hostMemWrite_fault {bs : List Byte} (hsp : a + bs.length ≤ s.cfg.space)
    (h : ∃ x, a ≤ x ∧ x < a + bs.length ∧ ((runningReads s).contains x || (runningWrites s).contains x) = true) :
    ∃ x, hostMemWrite a bs s = .fault (.footprintWrite x) ∧ a ≤ x ∧ x < a + bs.length ∧
      ((runningReads s).contains x || (runningWrites s).contains x) = true := by
  obtain ⟨x, hfirst, hx⟩ := firstWith_addresses_some h
  refine ⟨x, ?_, hx⟩
  unfold hostMemWrite
  rw [firstWith_missing_none hsp]
  dsimp only
  rw [hfirst]

/-- A host write off the running footprint and the devices stores its bytes (44_control.md R237). -/
theorem hostMemWrite_next {bs : List Byte} (hsp : a + bs.length ≤ s.cfg.space)
    (hoff : ∀ x, a ≤ x → x < a + bs.length → ((runningReads s).contains x || (runningWrites s).contains x) = false)
    (hdev : ∀ x, a ≤ x → x < a + bs.length → s.cfg.isDevice x = false) :
    hostMemWrite a bs s = .next (s.withMem (s.mem.writeList a bs)) := by
  unfold hostMemWrite
  rw [firstWith_missing_none hsp, firstWith_addresses_none hoff, firstWith_addresses_none hdev]

/-- Settles O26: the running footprint does not depend on `pending`, and the bytes stored are those `read_writeList`
reads back. -/
theorem hostMemoryWrites : Obligations.HostMemoryWrites := by
  intro s l a bs h hsp
  rw [step_of_memWrite h]
  simp only [← Bool.or_eq_true]
  refine ⟨hostMemWrite_fault (s := { s with pending := l }) hsp, fun hoff => ?_⟩
  have hnext := hostMemWrite_next (s := { s with pending := l }) hsp
    (fun x hlo hhi => Bool.or_eq_false_iff.2 ⟨(hoff x hlo hhi).1, (hoff x hlo hhi).2.1⟩)
    (fun x hlo hhi => (hoff x hlo hhi).2.2)
  exact ⟨_, hnext, rfl, Memory.read_writeList s.mem a bs⟩

/-! ### Reads -/

theorem Memory.getElem_readList (m : Memory) (n : Nat) : ∀ {a j : Nat} (h : j < (m.readList a n).length),
    (m.readList a n)[j] = m.read (a + j) := by
  induction n with
  | zero => intro a j h; exact absurd h (Nat.not_lt_zero j)
  | succ n ih =>
    intro a j h
    cases j with
    | zero => rfl
    | succ j =>
      have htail := ih (a := a + 1) (Nat.lt_of_succ_lt_succ h)
      rwa [Nat.add_assoc, Nat.add_comm 1 j] at htail

/-- A host read that meets the running write footprint faults, and names an address of both (70_reset_and_hazards.md
R280). -/
theorem hostMemRead_fault {n : Nat} (hsp : a + n ≤ s.cfg.space)
    (h : ∃ x, a ≤ x ∧ x < a + n ∧ (runningWrites s).contains x = true) :
    ∃ x, hostMemRead a n s = .fault (.footprintRead x) ∧ a ≤ x ∧ x < a + n ∧ (runningWrites s).contains x = true := by
  obtain ⟨x, hfirst, hx⟩ := firstWith_addresses_some h
  refine ⟨x, ?_, hx⟩
  unfold hostMemRead
  rw [firstWith_missing_none hsp]
  dsimp only
  rw [hfirst]

/-- A host read off the running write footprint and the devices returns the bytes (44_control.md R237). -/
theorem hostMemRead_next {n : Nat} (hsp : a + n ≤ s.cfg.space)
    (hoff : ∀ x, a ≤ x → x < a + n → (runningWrites s).contains x = false)
    (hdev : ∀ x, a ≤ x → x < a + n → s.cfg.isDevice x = false) :
    hostMemRead a n s = .next { s with seenMem := s.mem.readList a n } := by
  unfold hostMemRead
  rw [firstWith_missing_none hsp, firstWith_addresses_none hoff, firstWith_addresses_none hdev]

/-- Settles O27: the running write footprint does not depend on `pending`, and the bytes returned are read one by
one. -/
theorem hostMemoryReads : Obligations.HostMemoryReads := by
  intro s l a n h hsp
  rw [step_of_memRead h]
  refine ⟨hostMemRead_fault (s := { s with pending := l }) hsp, fun hoff => ?_⟩
  have hnext := hostMemRead_next (s := { s with pending := l }) hsp (fun x hlo hhi => (hoff x hlo hhi).1)
    (fun x hlo hhi => (hoff x hlo hhi).2)
  exact ⟨_, hnext, Memory.length_readList _ _ _, fun j hj => Memory.getElem_readList _ _ hj⟩

end Sys2Proof.Machine
end

section
/-! The interrupt output (60_exceptions.md R252, R253). -/

namespace Sys2Proof.Machine

variable {s : State}

theorem irq_iff : irq s = true ↔ s.status.done = true ∧ s.ie = true := Bool.and_eq_true_iff

theorem irq_of_not_done (h : s.status.done = false) : irq s = false := by
  rw [irq, h, Bool.false_and]

theorem irq_of_not_ie (h : s.ie = false) : irq s = false := by
  rw [irq, h, Bool.and_false]

theorem resetEngine_done (s : State) : (resetEngine s).status.done = false := rfl

/-- Settles O23: each of the host's actions is the update of STATUS or CTRL it names, and the soft reset is the hardware
one. -/
theorem interruptClearing : Obligations.InterruptClearing := by
  refine ⟨fun s => irq_iff, fun s l v => ⟨_, _, _, _, fun hv => ⟨step_of_statusWrite rfl, ?_⟩,
    fun hb => ⟨step_of_slotWrite rfl (by decide), ?_⟩, ⟨step_of_reset rfl, ?_⟩, fun hv => ?_,
    fun hie hv => ⟨step_of_ctrlWrite_clear rfl hv, rfl, irq_of_not_ie hie⟩⟩⟩
  · have hdone : (s.status.done && !v.getLsbD 1) = false := by rw [hv, Bool.not_true, Bool.and_false]
    exact ⟨hdone, irq_of_not_done hdone⟩
  · have hdone : (writeSlot .cmd v { s with pending := l }).status.done = false := by
      rw [writeSlot_cmd_of_idle (s := { s with pending := l }) v hb, accept_status]
    exact ⟨hdone, irq_of_not_done hdone⟩
  · exact ⟨resetEngine_done _, irq_of_not_done (resetEngine_done _)⟩
  · exact (step_of_ctrlWrite_set rfl hv).1.trans (step_of_reset rfl)

end Sys2Proof.Machine
end

section
/-! A byte that does not answer (60_exceptions.md R241): a writer or reader that must open it stops there with
BUS_ERROR, the bits before it written or read. -/

namespace Sys2Proof.Machine

/-! ### The writer (40_bitio.md R122, R127; 41_value_codec.md R162; 43_set_codec.md R197 (c)) -/

section

variable {c : Config} {w : Writer} {l : List Bool} {j : Nat}

/-- A bit string that needs a byte that does not answer is appended up to it. -/
theorem writeString_hole (hs : w.cur.Sound c) (hh : c.FirstHole w.cur.base w.cur.nbytes j) (hj : j < w.cur.cap)
    (hl : 8 * j - w.cur.pos < l.length) :
    ∃ w', writeString c l w = .raise .busError w' ∧ Appended (l.take (8 * j - w.cur.pos)) w w' := by
  obtain ⟨w', hraise, htake, -, -⟩ := writeString_busError hs hh hj hl
  exact ⟨w', hraise, writeString_appended hs htake⟩

end

/-- ENCODE whose stream needs a byte that does not answer fails there with BUS_ERROR. -/
theorem execEncode_of_hole {s : State} {auto : Bool} {ks : List Nat} {p j : Nat} (hs : s.Inv) (hc : s.EncodeChecks)
    (hk : s.HoldsFirst ks) (hasc : AscendsFrom 0 ks) (hp : s.EncodeParamIs auto p)
    (hh : s.cfg.FirstHole s.regs.dstBase.toNat 0 j) (hj : j < s.regs.dstLen.toNat)
    (hl : 8 * j < (stream s.hdr p ks).length) :
    ∃ t, execEncode auto s = .next t ∧ s.EncodeFails auto p .busError t ∧
      t.wr.Wrote s.regs.dstBase.toNat s.regs.dstLen.toNat ((stream s.hdr p ks).take (8 * j)) := by
  obtain ⟨w, hraise, happ⟩ := writeString_hole (s.encodeWriter_sound hs hc) hh hj hl
  obtain ⟨l, hstream⟩ := (encodeStream_of_keys hs hc hk hasc).2 _ _ hraise
  obtain ⟨t, ht, hwr, hfails⟩ := execEncode_of_raise hs hc hp hstream
  exact ⟨t, ht, hfails, hwr ▸ wrote_of_appended rfl happ⟩

/-- Settles O35: WR_BITS, ENC_VAL and ENCODE each write a bit string, which stops at the byte. -/
theorem writerBusError : Obligations.WriterBusError := by
  refine ⟨fun c w l j => writeString_hole, fun s j hs hh hj => ⟨fun n _ hn => ?_, fun hp hl => ?_⟩,
    fun s auto ks p j hs hc hk hasc hp hh hj hl => ?_⟩
  · obtain ⟨w', hraise, happ⟩ := writeString_hole (w := s.writer) (l := binBits n s.regs.data.toNat) hs hh hj
      (by rwa [length_binBits])
    exact ⟨w', happ, by rw [exec_wrBits, hraise]; rfl⟩
  · obtain ⟨w', hraise, happ⟩ := writeString_hole (w := s.writer) hs hh hj hl
    exact ⟨w', happ, by rw [exec_encVal_of_lt hp, hraise]; rfl⟩
  · obtain ⟨t, ht, hfails, hwrote⟩ := execEncode_of_hole hs hc hk hasc hp hh hj hl
    exact ⟨t, ht, hfails.state, hwrote, hfails.drawn⟩

/-! ### The reader (40_bitio.md R131, R136; 41_value_codec.md R166; 43_set_codec.md R206, R207 (b)) -/

section

variable {c : Config} {m : Memory} {r : RdCursor} {n p j : Nat}

/-- ReadBits of a bit or more raises what its first ReadBit raises (40_bitio.md R132). -/
theorem readBits_of_readBit_raise {e : Err} {r' : RdCursor} (h : readBit c m r = .raise e r') (hn : 0 < n) :
    readBits c m n r = .raise e r' := by
  obtain ⟨n, rfl⟩ := Nat.exists_eq_succ_of_ne_zero hn.ne'
  rw [readBits, readBitsFrom, h]

/-- DecodeValue, likewise (41_value_codec.md R161). -/
theorem decodeValue_of_readBit_raise {e : Err} {r' : RdCursor} (h : readBit c m r = .raise e r') :
    decodeValue c m p r = .raise e r' := by
  rw [decodeValue, scanOnes, h]

/-- The bits before the first byte that does not answer can be read. -/
theorem RdCursor.Sound.ready_of_firstHole (hs : r.Sound c) (hh : c.FirstHole r.base r.nbytes j) (hj : j < r.len) :
    r.Ready c j :=
  ⟨hs, hh.le, hj.le, hh.before⟩

theorem RdCursor.Ready.length_unread_upto (hr : r.Ready c j) (m : Memory) :
    (unread m (r.upto j)).length = 8 * j - r.pos := by
  have hpos := rdPos_add_shift hr.sound
  have hle := hr.opened
  rw [length_unread]
  simp only [avail, RdCursor.upto]
  omega

/-- ReadBits that needs a byte that does not answer takes the bits before it. -/
theorem readBits_hole (hs : r.Sound c) (hh : c.FirstHole r.base r.nbytes j) (hj : j < r.len)
    (hn : 8 * j - r.pos < n) : readBits c m n r = .raise .busError (r.moved m (8 * j - r.pos)) := by
  have hr := hs.ready_of_firstHole hh hj
  obtain ⟨r', hread, hs', hreads⟩ := readBits_ends (m := m) n (v := 0) hr (.inr ⟨hj, hh.hole, rfl⟩) rfl
    (hr.length_unread_upto m ▸ hn)
  rw [readBits, hread, hreads.eq_moved hs', hr.length_unread_upto]

/-- DecodeValue with no whole codeword before a byte that does not answer takes the bits before it. -/
theorem decodeValue_hole (hs : r.Sound c) (hh : c.FirstHole r.base r.nbytes j) (hj : j < r.len)
    (hn : NoCodeword p (unread m (r.upto j))) :
    decodeValue c m p r = .raise .busError (r.moved m (8 * j - r.pos)) := by
  have hr := hs.ready_of_firstHole hh hj
  obtain ⟨r', hdec, hs', hreads⟩ := decodeValue_ends (m := m) hr (.inr ⟨hj, hh.hole, rfl⟩) rfl hn
  rw [hdec, hreads.eq_moved hs', hr.length_unread_upto]

end

section

variable {s : State} {e : Err} {rd : RdCursor}

theorem exec_rdBits_of_raise {n : Nat} (h : readBits s.cfg s.mem n s.rd = .raise e rd) :
    exec (.rdBits n) s = complete (some e) (s.withReader rd) :=
  congrArg (completeReader · s) h

/-- The source of DECODE up to byte `j`. -/
theorem State.unread_decodeReader_upto (m : Memory) (s : State) (j : Nat) :
    unread m (s.decodeReader.upto j) = memBits m s.regs.srcBase.toNat j := by
  simp [unread, decodeReader, RdCursor.fresh, RdCursor.upto, byteBits]

/-- The keys DECODE has stored lie in its output region. -/
theorem State.Decoded.writesWithin {p j : Nat} {ks : List Nat} {rest : List Bool} {r : DecodeRun}
    (h : s.Decoded p ks j rest r) (hroom : ks.length ≤ s.regs.outCap.toNat) :
    s.WritesWithin s.outRegion (s.withMem r.mem) := by
  intro a ha
  have hkeys : ks.length * s.keyBytes ≤ s.regs.outCap.toNat * s.keyBytes := Nat.mul_le_mul_right _ hroom
  exact h.outside a (ha.imp_right fun h => le_trans (Nat.add_le_add_left hkeys _) h)

/-- DECODE that meets, after the codewords of keys and then no whole one, a byte that does not answer fails there with
BUS_ERROR. -/
theorem execDecode_of_hole {ks : List Nat} {tail : List Bool} {p j : Nat} (hs : s.Inv) (hc : s.DecodeChecks)
    (hp : s.DecodeParamIs p) (hh : s.cfg.FirstHole s.regs.srcBase.toNat 0 j) (hj : j < s.regs.srcLen.toNat)
    (hout : s.cfg.Answers { base := s.regs.outBase.toNat, len := ks.length * s.keyBytes }) (hasc : AscendsFrom 0 ks)
    (hlt : ∀ k ∈ ks, k < 2 ^ s.keyBits) (hroom : ks.length ≤ s.regs.outCap.toNat) (htail : NoCodeword p tail)
    (hbits : memBits s.mem s.regs.srcBase.toNat j = stream s.hdr p ks ++ tail) :
    ∃ t, execDecode s = .next t ∧
      s.DecodeFails (if s.hdr = 0 then s.regs.param else BitVec.ofNat 64 p) (s.decodeReader.moved s.mem (8 * j))
        .busError t := by
  have hr : s.decodeReader.Ready s.cfg j := (s.decodeReader_sound hs hc).ready_of_firstHole hh hj
  have hends : s.decodeReader.Ends s.cfg j .busError := .inr ⟨hj, hh.hole, rfl⟩
  obtain ⟨n, r, hdone, hexec⟩ :=
    execDecode_of_stream hc hp hr ((s.unread_decodeReader_upto s.mem j).trans hbits) hout hasc hlt hroom
  obtain ⟨rd, hdec, hsound, hreads⟩ :=
    decodeValue_ends hdone.ready.rd (hends.within hdone.reads.within) hdone.unread htail
  have hmoved := (hdone.reads.trans hreads).eq_moved hsound
  rw [← hbits, length_memBits] at hmoved
  rw [decodeKeys, hdone.ready.decodeValue_eq, hdone.param, hdec, hmoved] at hexec
  obtain ⟨t, ht, hfails⟩ := failDecode_fails hs hc (if s.hdr = 0 then s.regs.param else BitVec.ofNat 64 p)
    (s.decodeReader.moved s.mem (8 * j)) .busError
    (hdone.writesWithin hroom)
  exact ⟨t, hexec.trans ht, hfails⟩

end

/-- Settles O42: RD_BIT, RD_BITS, DEC_VAL and DECODE each end as the sub-procedure that meets the byte does. -/
theorem readerBusError : Obligations.ReaderBusError := by
  refine ⟨fun s n hz hlt hhole => ?_, fun s j hs hh hj => ⟨fun n _ hn => ?_, fun hp hn => ?_⟩,
    fun s ks tail p j hs hc hp hh hj hout hasc hlt hroom htail hbits => ?_⟩
  · have hbit : readBit s.cfg s.mem s.rd = .raise .busError s.rd := readBit_of_hole hz hlt hhole
    exact ⟨exec_rdBit_of_raise hbit, fun hn => exec_rdBits_of_raise (readBits_of_readBit_raise hbit hn),
      fun hp => exec_decVal_of_raise hp (decodeValue_of_readBit_raise hbit)⟩
  · exact exec_rdBits_of_raise (readBits_hole hs hh hj hn)
  · exact exec_decVal_of_raise hp (decodeValue_hole hs hh hj hn)
  · obtain ⟨t, ht, hfails⟩ := execDecode_of_hole hs hc hp hh hj hout hasc hlt hroom htail hbits
    exact ⟨t, ht, hfails.state, hfails.drawn⟩

end Sys2Proof.Machine
end

section
/-! The codes each command can end with (60_exceptions.md R240): those of the sub-procedures it runs, and of its own
checks. -/

namespace Sys2Proof.Machine

variable {c : Config} {m : Memory} {s t : State}

/-! ### What the sub-procedures raise -/

@[simp] theorem Res.code_ok {σ α : Type} (a : α) (x : σ) : (Res.ok a x).code = none := rfl

@[simp] theorem Res.code_raise {σ α : Type} (e : Err) (x : σ) : (Res.raise e x : Res σ α).code = some e := rfl

/-- The codes of the bit writer (40_bitio.md R122). -/
def writerCodes : List (Option Err) := [none, some .bufferExhausted, some .busError]

/-- The codes of the bit reader (40_bitio.md R131). -/
def readerCodes : List (Option Err) := [none, some .endOfStream, some .busError]

theorem writeBit_code (b : Bool) (w : Writer) : (writeBit c b w).code ∈ writerCodes := by
  cases h : writeBit c b w with
  | ok u w' => exact List.mem_cons_self
  | raise e w' =>
    rw [Res.code_raise]
    obtain ⟨-, -, ⟨rfl, -⟩ | ⟨rfl, -⟩⟩ := writeBit_raise h
    · decide
    · decide

theorem writeString_code (l : List Bool) : ∀ w : Writer, (writeString c l w).code ∈ writerCodes := by
  induction l with
  | nil => exact fun _ => List.mem_cons_self
  | cons b l ih =>
    intro w
    have hbit := writeBit_code (c := c) b w
    rw [writeString]
    cases h : writeBit c b w with
    | ok u w' => exact ih w'
    | raise e w' => rwa [h] at hbit

theorem readBit_code (r : RdCursor) : (readBit c m r).code ∈ readerCodes := by
  cases h : readBit c m r with
  | ok b r' => exact List.mem_cons_self
  | raise e r' =>
    rw [Res.code_raise]
    obtain ⟨-, -, ⟨rfl, -⟩ | ⟨rfl, -⟩⟩ := readBit_raise h
    · decide
    · decide

theorem readBitVal_code (r : RdCursor) : (readBitVal c m r).code ∈ readerCodes := by
  have hbit := readBit_code (c := c) (m := m) r
  rw [readBitVal]
  cases h : readBit c m r with
  | ok b r' => exact List.mem_cons_self
  | raise e r' => rwa [h] at hbit

theorem readBitsFrom_code (n : Nat) : ∀ (v : Nat) (r : RdCursor), (readBitsFrom c m n v r).code ∈ readerCodes := by
  induction n with
  | zero => exact fun _ _ => List.mem_cons_self
  | succ n ih =>
    intro v r
    have hbit := readBit_code (c := c) (m := m) r
    rw [readBitsFrom]
    cases h : readBit c m r with
    | ok b r' => exact ih _ r'
    | raise e r' => rwa [h] at hbit

theorem scanOnes_code (fuel : Nat) : ∀ (q : Nat) (r : RdCursor), (scanOnes c m fuel q r).code ∈ readerCodes := by
  induction fuel with
  | zero => intro q r; rw [scanOnes, Res.code_raise]; decide
  | succ n ih =>
    intro q r
    have hbit := readBit_code (c := c) (m := m) r
    rw [scanOnes]
    cases h : readBit c m r with
    | ok b r' =>
      cases b with
      | false => exact List.mem_cons_self
      | true => exact ih _ r'
    | raise e r' => rwa [h] at hbit

theorem decodeValue_code (p : Nat) (r : RdCursor) : (decodeValue c m p r).code ∈ readerCodes := by
  have hones := scanOnes_code (c := c) (m := m) (avail r + 1) 0 r
  rw [decodeValue]
  cases h : scanOnes c m (avail r + 1) 0 r with
  | raise e r1 => rwa [h] at hones
  | ok q r1 =>
    have hbits := readBitsFrom_code (c := c) (m := m) p 0 r1
    dsimp only
    rw [readBits]
    cases h' : readBitsFrom c m p 0 r1 with
    | raise e r2 => rwa [h'] at hbits
    | ok rem r2 => exact List.mem_cons_self

theorem decodeChecked_code (p : Nat) (r : RdCursor) :
    (decodeChecked c m p r).code ∈ some .decodeOverflow :: readerCodes := by
  have hvalue := decodeValue_code (c := c) (m := m) p r
  rw [decodeChecked]
  cases h : decodeValue c m p r with
  | raise e r' => rw [h] at hvalue; exact List.mem_cons_of_mem _ hvalue
  | ok v r' =>
    dsimp only
    split
    · exact List.mem_cons_self
    · exact List.mem_cons_of_mem _ List.mem_cons_self

/-- A read that meets the end of the source wants more bits than are left (40_bitio.md R133 (c)). -/
theorem avail_lt_of_endOfStream (n : Nat) : ∀ {v : Nat} {r r' : RdCursor},
    readBitsFrom c m n v r = .raise .endOfStream r' → avail r < n := by
  induction n with
  | zero => intro v r r' h; cases h
  | succ n ih =>
    intro v r r' h
    rw [readBitsFrom] at h
    cases hb : readBit c m r with
    | ok b r1 =>
      rw [hb] at h
      have hrest := ih h
      have hbit := readBit_avail hb
      omega
    | raise e r1 =>
      rw [hb] at h
      cases h
      obtain ⟨-, hz, ⟨-, hend⟩ | ⟨he, -⟩⟩ := readBit_raise hb
      · rw [avail, Nat.sub_eq_zero_of_le hend, hz]
        exact Nat.succ_pos n
      · cases he

/-- The one error of LoadKey, and of StoreKey, is BUS_ERROR (20_memory.md R66, R67). -/
theorem loadKey_error {e : Err} {base i : Nat} (h : loadKey c m base i = .error e) : e = .busError :=
  loadBytes_error _ h

theorem storeBytes_raise {e : Err} {m' : Memory} (k : Nat) : ∀ {a v : Nat} {m : Memory},
    storeBytes c a k v m = .raise e m' → e = .busError := by
  induction k with
  | zero => intro a v m h; cases h
  | succ k ih =>
    intro a v m h
    rw [storeBytes] at h
    split at h
    · exact ih h
    · cases h; rfl

theorem storeKey_raise {e : Err} {base i v : Nat} {m' : Memory} (h : storeKey c base i v m = .raise e m') :
    e = .busError :=
  storeBytes_raise _ h

/-! ### What ENCODE and DECODE raise past their checks -/

/-- The codes of ENCODE's writer phase (43_set_codec.md R194, R195). -/
def encodeCodes : List (Option Err) := some .invalidInput :: writerCodes

theorem encodeKeys_code (keyBase n : Nat) : ∀ r : EncodeRun, (encodeKeys c keyBase n r).code ∈ encodeCodes := by
  induction n with
  | zero => intro r; rw [encodeKeys, Res.code_ok]; decide
  | succ n ih =>
    intro r
    rw [encodeKeys]
    cases hkey : loadKey c r.wr.mem keyBase r.loop.keyIndex with
    | error e => rw [loadKey_error hkey, Res.code_raise]; decide
    | ok key =>
      dsimp only
      split
      next => exact List.mem_cons_self
      next =>
        have hcode := writeString_code (c := c) (codeword r.loop.p (key - r.loop.nextMin)) r.wr
        rw [encodeValue_eq]
        cases h : writeString c (codeword r.loop.p (key - r.loop.nextMin)) r.wr with
        | raise e w => rw [h] at hcode; exact List.mem_cons_of_mem _ hcode
        | ok u w => exact ih _

theorem encodeStream_code (p : Nat) (s : State) : (encodeStream s p).code ∈ encodeCodes := by
  have hcode := writeString_code (c := s.cfg) (binBits s.hdr p) s.encodeWriter
  rw [encodeStream, writeBits_eq, ← State.encodeWriter]
  cases h : writeString s.cfg (binBits s.hdr p) s.encodeWriter with
  | raise e w => rw [h] at hcode; exact List.mem_cons_of_mem _ hcode
  | ok u w => exact encodeKeys_code _ _ _

/-- ENCODE refuses PARAM for AUTO = 0 only; for AUTO = 1 its last key may not answer (43_set_codec.md R192, R193). -/
theorem encodeParam_error {auto : Bool} {e : Err} (h : encodeParam auto s = .error e) :
    e = if auto then .busError else .paramRange := by
  unfold encodeParam at h
  cases auto with
  | false =>
    simp only [Bool.false_eq_true, if_false] at h
    split at h
    next => cases h; rfl
    next => cases h
  | true =>
    simp only [if_true] at h
    split at h
    next => cases h
    next =>
      split at h
      next hkey => cases h; exact loadKey_error hkey
      next => cases h

/-- The codes of DECODE's element phase: the end of the source ends it with success (43_set_codec.md R205, R206). -/
def decodeCodes : List (Option Err) := [none, some .busError, some .decodeOverflow, some .outputExhausted]

theorem decodeKeys_code (outBase cap fuel : Nat) :
    ∀ r : DecodeRun, (decodeKeys c outBase cap fuel r).code ∈ decodeCodes := by
  induction fuel with
  | zero => exact fun _ => List.mem_cons_self
  | succ n ih =>
    intro r
    have hvalue := decodeValue_code (c := c) (m := r.mem) r.loop.p r.rd
    rw [decodeKeys]
    cases h : decodeValue c r.mem r.loop.p r.rd with
    | raise e rd =>
      rw [h, Res.code_raise] at hvalue
      cases e with
      | endOfStream => exact List.mem_cons_self
      | busError => rw [Res.code_raise]; decide
      | _ => exact absurd hvalue (by decide)
    | ok d rd =>
      dsimp only
      split
      next => rw [Res.code_raise]; decide
      next =>
        split
        next => rw [Res.code_raise]; decide
        next =>
          cases hstore : storeKey c outBase r.loop.decoded (d + r.loop.nextMin) r.mem with
          | raise e m' => rw [storeKey_raise hstore, Res.code_raise]; decide
          | ok u m' => exact ih _

/-! ### The code a command ends with -/

theorem complete_err {code : Option Err} (h : complete code s = .next t) : t.status.err = code := by
  rw [complete_next.1 h, finish_status]

theorem completeWriter_err {r : Res Writer Unit} (h : completeWriter r s = .next t) : t.status.err = r.code :=
  complete_err h

theorem completeReader_err {r : Res RdCursor Nat} (h : completeReader r s = .next t) : t.status.err = r.code := by
  cases r with
  | ok v rd => exact complete_err h
  | raise e rd => exact complete_err h

theorem completeEncode_err {r : Res EncodeRun Unit} (h : completeEncode r s = .next t) : t.status.err = r.code := by
  cases r with
  | ok u r => exact complete_err h
  | raise e r => exact complete_err h

theorem completeDecode_err {r : Res DecodeRun Unit} (h : completeDecode r s = .next t) : t.status.err = r.code := by
  cases r with
  | ok u r => exact complete_err h
  | raise e r => exact complete_err h

/-- A command that is one check ends with the code of one of its sides. -/
theorem complete_ite_err {p : Prop} [Decidable p] {code code' : Option Err} {u : State}
    (h : (if p then complete code s else complete code' u) = .next t) : t.status.err ∈ [code, code'] := by
  split at h
  next => exact complete_err h ▸ List.mem_cons_self
  next => exact complete_err h ▸ List.mem_cons_of_mem _ List.mem_cons_self

theorem execEncVal_err (h : execEncVal s = .next t) : t.status.err ∈ some .paramRange :: writerCodes := by
  unfold execEncVal at h
  split at h
  next => rw [complete_err h]; exact List.mem_cons_self
  next =>
    rw [completeWriter_err h, encodeValue_eq]
    exact List.mem_cons_of_mem _ (writeString_code _ _)

theorem execDecVal_err (h : execDecVal s = .next t) :
    t.status.err ∈ some .paramRange :: some .decodeOverflow :: readerCodes := by
  unfold execDecVal at h
  split at h
  next => rw [complete_err h]; exact List.mem_cons_self
  next =>
    rw [completeReader_err h]
    exact List.mem_cons_of_mem _ (decodeChecked_code _ _)

/-- ENCODE ends with a code of its checks or of its writer phase; PARAM_RANGE is for AUTO = 0 only (43_set_codec.md
R191 to R195). -/
theorem execEncode_err {auto : Bool} (h : execEncode auto s = .next t) :
    t.status.err ∈ some .configError :: (if auto then some .busError else some .paramRange) :: encodeCodes := by
  unfold execEncode at h
  split at h
  next =>
    split at h
    next e he =>
      rw [complete_err h, encodeParam_error he, apply_ite some]
      exact List.mem_cons_of_mem _ List.mem_cons_self
    next p _ =>
      rw [completeEncode_err h]
      exact List.mem_cons_of_mem _ (List.mem_cons_of_mem _ (encodeStream_code p s))
  next => rw [complete_err h]; exact List.mem_cons_self

/-- DECODE with a header ends with a code of its read, of the check of its value, or of the element phase; with
END_OF_STREAM only if the source is shorter than the header (43_set_codec.md R203). -/
theorem decodeHeader_err (h : decodeHeader s = .next t) :
    t.status.err ∈ some .paramRange :: decodeCodes ∨
      (t.status.err = some .endOfStream ∧ 8 * s.regs.srcLen.toNat < s.hdr) := by
  rw [decodeHeader, ← State.decodeReader] at h
  have hcode := readBitsFrom_code (c := s.cfg) (m := s.mem) s.hdr 0 s.decodeReader
  cases hread : readBits s.cfg s.mem s.hdr s.decodeReader with
  | raise e rd =>
    rw [hread] at h
    rw [← readBits, hread, Res.code_raise] at hcode
    have herr : t.status.err = some e := complete_err h
    rw [herr]
    cases e with
    | endOfStream => exact .inr ⟨rfl, avail_lt_of_endOfStream _ hread⟩
    | busError => exact .inl (by decide)
    | _ => exact absurd hcode (by decide)
  | ok p rd =>
    rw [hread] at h
    dsimp only at h
    split at h
    next => exact .inl (complete_err h ▸ List.mem_cons_self)
    next => exact .inl (completeDecode_err h ▸ List.mem_cons_of_mem _ (decodeKeys_code _ _ _ _))

theorem execDecode_err (h : execDecode s = .next t) :
    t.status.err ∈ some .configError :: some .paramRange :: decodeCodes ∨
      (t.status.err = some .endOfStream ∧ 8 * s.regs.srcLen.toNat < s.hdr) := by
  unfold execDecode at h
  split at h
  next =>
    split at h
    next => exact .inl (by rw [complete_err h]; decide)
    next =>
      split at h
      next =>
        rw [completeDecode_err h]
        exact .inl (List.mem_cons_of_mem _ (List.mem_cons_of_mem _ (decodeKeys_code _ _ _ _)))
      next => exact (decodeHeader_err h).imp_left (List.mem_cons_of_mem _)
  next => exact .inl (by rw [complete_err h]; decide)

/-- Settles O8: each command's codes are among those of R240. -/
theorem codesOfEachCommand : Obligations.CodesOfEachCommand := by
  intro i s t h
  cases i with
  | nop => exact complete_err h
  | wrInit | rdInit => exact complete_ite_err h
  | estimate => exact (by decide : [some Err.configError, none] ⊆ _) (complete_ite_err h)
  | wrBit b => exact completeWriter_err h ▸ writeBit_code b _
  | wrBits n => exact completeWriter_err ((exec_wrBits n s).symm.trans h) ▸ writeString_code _ _
  | rdBit => exact completeReader_err h ▸ readBitVal_code _
  | rdBits n => exact completeReader_err h ▸ readBitsFrom_code n 0 _
  | encVal => exact (by decide : some Err.paramRange :: writerCodes ⊆ _) (execEncVal_err h)
  | decVal =>
    exact (by decide : some Err.paramRange :: some .decodeOverflow :: readerCodes ⊆ _) (execDecVal_err h)
  | encode auto =>
    have herr := execEncode_err h
    cases auto with
    | false =>
      exact ⟨(by decide : some Err.configError :: some .paramRange :: encodeCodes ⊆ _) herr, nofun⟩
    | true =>
      refine ⟨(by decide : some Err.configError :: some .busError :: encodeCodes ⊆ _) herr, fun _ hp => ?_⟩
      exact absurd (hp ▸ herr) (by decide)
  | decode =>
    rcases execDecode_err h with herr | ⟨herr, hshort⟩
    · refine ⟨(by decide : some Err.configError :: some .paramRange :: decodeCodes ⊆ _) herr, fun hend => ?_⟩
      exact absurd (hend ▸ herr) (by decide)
    · rw [herr]
      exact ⟨by decide, fun _ => hshort⟩

end Sys2Proof.Machine
end

section
/-! Hardware and soft reset (70_reset_and_hazards.md R270 to R272): what becomes of memory, and which actions stop a
running command. -/

namespace Sys2Proof.Machine

variable {s : State}

/-! ### Memory at a reset -/

/-- A draw gives a free value to the bytes of the region that exist (20_memory.md R60), and to no other. -/
theorem read_drawMem (c : Config) (k : Nat) (r : Region) (m : Memory) (a : Nat) :
    (drawMem c k r m).read a = if r.contains a = true ∧ a < c.space then Config.freeByte k a else m.read a := by
  have hiff : (r.base ≤ a ∧ a < r.base + min r.len (c.space - r.base)) ↔ (r.contains a = true ∧ a < c.space) := by
    rw [Region.contains_iff]
    omega
  rw [drawMem, Memory.read_fill, if_congr hiff rfl rfl]

/-- While BUSY = 1 the running write footprint is that of the command cur_cmd decodes to; an illegal one has none
(30_encoding.md R96). -/
theorem contains_runningWrites (hb : s.status.busy = true) (a : Nat) :
    (runningWrites s).contains a = true ↔
      ∃ i, decode s.cfg.width s.curCmd = .ok i ∧ (writeFootprint i s).contains a = true := by
  cases hd : decode s.cfg.width s.curCmd with
  | error e =>
    rw [runningWrites_of_none (running_eq_none (.inr ⟨e, hd⟩)), Region.contains_empty]
    exact ⟨nofun, fun ⟨_, hi, _⟩ => nomatch hi⟩
  | ok i =>
    rw [runningWrites_of_some (running_eq_some hb hd)]
    exact ⟨fun ha => ⟨i, rfl, ha⟩, fun ⟨_, hi, ha⟩ => Except.ok.inj hi ▸ ha⟩

theorem resetEngine_mem_of_idle (hb : s.status.busy = false) : (resetEngine s).mem = s.mem := by
  rw [resetEngine, hb, if_neg Bool.false_ne_true, clearEngine_mem]

theorem resetEngine_mem_of_busy (hb : s.status.busy = true) :
    (resetEngine s).mem = drawMem s.cfg s.draws (runningWrites s) s.mem := by
  rw [resetEngine, if_pos hb, clearEngine_mem, State.drawRegion_mem]

@[simp] theorem resetEngine_pending (s : State) : (resetEngine s).pending = s.pending := by
  unfold resetEngine
  split <;> rfl

/-- An aborted command leaves free values in its write footprint and every other byte as it was
(70_reset_and_hazards.md R272). -/
theorem read_resetEngine_of_busy (hb : s.status.busy = true) (a : Nat) :
    (resetEngine s).mem.read a =
      if (runningWrites s).contains a = true ∧ a < s.cfg.space then Config.freeByte s.draws a else s.mem.read a := by
  rw [resetEngine_mem_of_busy hb, read_drawMem]

/-- Settles O13: `clearEngine` writes the zeros, and memory is that of an idle or of an aborting reset. -/
theorem hardwareReset : Obligations.HardwareReset := by
  intro s l h
  refine ⟨_, step_of_reset h, rfl, rfl, rfl, rfl, rfl, rfl, rfl, rfl, resetEngine_cfg _, resetEngine_pending _,
    fun hb => resetEngine_mem_of_idle (s := { s with pending := l }) hb, fun hb a => ?_⟩
  have hread := read_resetEngine_of_busy (s := { s with pending := l }) hb a
  have hfoot := contains_runningWrites (s := { s with pending := l }) hb a
  exact ⟨fun hin => hread.trans (if_pos (hin.imp_left hfoot.2)),
    fun hout => hread.trans (if_neg (hout ∘ And.imp_left hfoot.1))⟩

/-! ### What stops a running command -/

/-- The only register write that ends BUSY is the soft reset (10_state.md R23, R48). -/
theorem writeSlot_busy {slot : Slot} {v : Word} (hb : s.status.busy = true)
    (h : slot = .ctrl → v.getLsbD 1 = false) : (writeSlot slot v s).status.busy = true := by
  unfold writeSlot
  split
  · exact hb
  · cases slot with
    | ctrl =>
      dsimp only
      rw [writeCtrl_of_clear s (h rfl)]
      exact hb
    | cmd => rfl
    | _ => exact hb

theorem readSlot_status (slot : Slot) (s : State) : (readSlot slot s).status = s.status := by
  unfold readSlot
  split <;> rfl

/-- A register write that ends BUSY is one to CTRL with SRST = 1 (70_reset_and_hazards.md R271). -/
theorem ctrl_of_writeSlot_idle {offset : Nat} {v : Word} (ha : accessOK offset 8 = true) (hb : s.status.busy = true)
    (hidle : (writeSlot (slotAt offset) v s).status.busy = false) : offset = 0x08 ∧ v.getLsbD 1 = true := by
  have hsoft : slotAt offset = .ctrl ∧ v.getLsbD 1 = true := by
    by_contra hnot
    have hbusy := writeSlot_busy (v := v) hb fun hc => Bool.eq_false_iff.2 fun hv => hnot ⟨hc, hv⟩
    exact nomatch hbusy.symm.trans hidle
  exact ⟨slotAt_eq_ctrl ha hsoft.1, hsoft.2⟩

/-- Settles O14: a soft reset is the hardware one, CTRL shows IE only, and of the other actions each keeps BUSY. -/
theorem softReset : Obligations.SoftReset := by
  refine ⟨fun s l v hv => ?_, fun s => ?_, fun s t hb hstep hidle => ?_⟩
  · obtain ⟨heq, t, ht, hie⟩ := step_of_ctrlWrite_set (s := { s with pending := .regWrite 0x08 8 v :: l }) rfl hv
    refine ⟨heq, t, ht, hie, ?_⟩
    rw [slotValue, hie]
    rfl
  · rw [slotValue]
    cases s.ie <;> rfl
  · have hkept : t.status ≠ s.status := fun he => nomatch hidle.symm.trans ((congrArg Status.busy he).trans hb)
    rcases step_cases hstep with ⟨hnot, -⟩ | ⟨s', hturn, -⟩ | ⟨l, offset, v, hp, ha, rfl⟩ | ⟨l, slot, rfl⟩ |
      ⟨l, a, bs, -, -, rfl⟩ | ⟨l, bs, rfl⟩ | ⟨l, hp, -⟩
    · exact nomatch hb.symm.trans hnot
    · exact .inl ⟨s', hturn⟩
    · obtain ⟨rfl, hv⟩ := ctrl_of_writeSlot_idle (s := { s with pending := l }) ha hb hidle
      exact .inr (.inr ⟨l, v, hp, hv⟩)
    · exact absurd (readSlot_status slot _) hkept
    · exact absurd rfl hkept
    · exact absurd rfl hkept
    · exact .inr (.inl ⟨l, hp⟩)

end Sys2Proof.Machine
end
